-- ==== Sys2Proof/Word.lean ====
section
/-! DEFINITION. The word types of the soft-UART block: command and payload words, bytes, pin identifiers, instance
indices, response words and logic levels (spec/00_scope.md R12, R16, R17; spec/30_encoding.md R90, R91). -/

namespace Sys2Proof

/-- A 64-bit word on the command port: a `CMD` word or a `PAY` word (R90). -/
abbrev Word := BitVec 64

/-- A data byte, bit 0 the first on the wire (R12, R16). -/
abbrev Byte := BitVec 8

/-- A pin identifier; all 256 values name a pin (R12). -/
abbrev Pin := BitVec 8

/-- The instance index field of a command word (R12, R91). -/
abbrev Index := BitVec 8

/-- A baud rate in bits per second (R12, R23). -/
abbrev Baud := BitVec 32

/-- A word on the response port (R93). -/
abbrev RespWord := BitVec 32

/-- A logic level: `true` is 1 (high), `false` is 0 (low) (R17). -/
abbrev Level := Bool

/-- The idle level of a UART line is high (R17). -/
def idleLevel : Level := true

end Sys2Proof
end

