-- ==== Sys2Proof/Config.lean ====
section
/-! DEFINITION. The implementation parameters of spec/00_scope.md R6 to R11 with their constraints, the two
configurations the spec names (R13), and the two free values of the model. -/

namespace Sys2Proof

/-- The parameters the source leaves to the implementation (R6 to R11).  The machine carries one value of this type
in its state and no step changes it, so that every claim about a state is a claim for every configuration. -/
structure Config where
  /-- `N_INST`, the number of instances (R6). -/
  nInst : Nat
  /-- `BUF_CAP`, the number of storage cells of each buffer (R7). -/
  bufCap : Nat
  /-- `STARTUP_MARGIN`, signed microseconds (R8). -/
  startupMargin : Int
  /-- `SETTLE_BITS`, bit periods from the stop bit to the return of PUT (R9). -/
  settleBits : Nat
  /-- `SINGLE_CORE`: the normal context makes no progress while the interrupt context is busy (R10). -/
  singleCore : Bool
  /-- `PEND_LATCH`: an edge seen while the interrupt context is busy is latched (R11). -/
  pendLatch : Bool
  deriving DecidableEq, Repr

/-- `IDX_W = log2(BUF_CAP)`, the width of `head` and `tail` (R7). -/
def Config.idxW (c : Config) : Nat := Nat.log2 c.bufCap

/-- The constraints of R6, R7 and R9.  R8's constraint speaks of the baud rates in use and is `Config.marginFits`. -/
def Config.wf (c : Config) : Bool :=
  decide (1 ≤ c.nInst) && decide (c.nInst ≤ 256) && decide (2 ≤ c.bufCap) &&
    decide (c.bufCap = 2 ^ c.idxW) && decide (1 ≤ c.settleBits)

/-- R8: the centering delay of a bit period must not be negative. -/
def Config.marginFits (c : Config) (bitPeriod : Nat) : Bool :=
  decide (0 ≤ ((bitPeriod / 2 : Nat) : Int) + c.startupMargin)

/-- The reference configuration `REF` (R13). -/
def Config.ref : Config where
  nInst := 4
  bufCap := 64
  startupMargin := 0
  settleBits := 3
  singleCore := true
  pendLatch := true

/-- The small configuration `SMALL`: `REF` with `BUF_CAP = 8` (R13). -/
def Config.small : Config := { Config.ref with bufCap := 8 }

/-- FREE VALUE (assumption 14, DESIGN CHOICE): the centering delay of a run whose bit period and margin break R8.  The
spec gives such a delay no value, so nothing in the model can know it. -/
opaque Config.freeCenteringDelay : Nat → Int → Nat

/-- FREE VALUE (assumption 21, DESIGN CHOICE): the response of AVAIL for an occupancy of `2 ^ 32` or more, which only a
block with `BUF_CAP > 2 ^ 32` can have.  It does not fit the 32-bit response of R93 and the spec gives it no value. -/
opaque Config.freeCount : Nat → BitVec 32

end Sys2Proof
end

