-- ==== Sys2Proof/Syntax.lean ====
section
/-! DEFINITION. The nine host operations of spec/30_encoding.md R96, one constructor per row of
spec/opcode_table.json, with the operands of R91 and R94. -/

namespace Sys2Proof

inductive Instr where
  /-- OPEN idx, baud, rx, tx (R158). -/
  | openInst (idx : Index) (baud : Baud) (rx tx : Pin)
  /-- CLOSE idx (R162). -/
  | closeInst (idx : Index)
  /-- ISACTIVE idx (R152). -/
  | isActive (idx : Index)
  /-- PUT idx, byte (R222). -/
  | put (idx : Index) (byte : Byte)
  /-- PUTS idx, text: the bytes of the payload words, in the order they are sent (R92, R234). -/
  | puts (idx : Index) (text : List Byte)
  /-- AVAIL idx (R250). -/
  | avail (idx : Index)
  /-- READ idx (R252). -/
  | read (idx : Index)
  /-- OVF idx (R254). -/
  | ovf (idx : Index)
  /-- OVFCLR idx (R256). -/
  | ovfclr (idx : Index)
  deriving DecidableEq, Repr

end Sys2Proof
end

