-- ==== Sys2Proof/Machine/State.lean ====
section
/-! DEFINITION. The state of the soft-UART block as plain data (spec/10_state.md R20 to R45), its inputs and outputs as
lists the step reads and extends (R14, R41, R44, R90), the reasons a step can stop, and the state after reset (R45). -/

namespace Sys2Proof.Machine

/-! ## Memory -/

/-- The storage of one buffer: the cells that differ from what an unlisted cell reads as, by rising position
(R27, R43; the reading of an unlisted cell is assumption 9). -/
abbrev Memory := List Host.Cell

/-! ## The instance table -/

/-- `inst[i]`, the configuration registers of one instance (R21 to R24). -/
structure Inst where
  rxPin : Pin
  txPin : Pin
  /-- The rate, and the active flag: zero means inactive (R23). -/
  baudRate : Baud
  /-- Microseconds per bit, held in 32 bits (R24). -/
  bitPeriod : BitVec 32
  deriving DecidableEq, Repr

/-- `buf[i]`, the circular receive buffer of one instance (R27 to R30). -/
structure Buffer where
  storage : Memory
  /-- Next read position, in `[0, BUF_CAP)` (R28). -/
  head : Nat
  /-- Next write position, in `[0, BUF_CAP)` (R29). -/
  tail : Nat
  overflowFlag : Bool
  deriving DecidableEq, Repr

/-- `rx[i]`, the interrupt enable and pending bits of one instance (R34, R36). -/
structure RxControl where
  attached : Bool
  pend : Bool
  deriving DecidableEq, Repr

/-- One slot of the instance table with what it owns exclusively (R20). -/
structure Slot where
  inst : Inst
  buf : Buffer
  rx : RxControl
  deriving DecidableEq, Repr

/-! ## The two sequencers -/

/-- `isr`, the position of the receive sequencer (R33). -/
structure Isr where
  busy : Bool
  inst : Nat
  ts : Nat
  /-- Data bits sampled so far, 0 to 8. -/
  k : Nat
  shift : Byte
  deriving DecidableEq, Repr

/-- `tx`, the position of the transmit sequencer (R35). -/
structure Tx where
  busy : Bool
  inst : Nat
  byte : Byte
  /-- The tick in which the current PUT began. -/
  t0 : Nat
  /-- The next frame index, 1 to 10. -/
  j : Nat
  /-- The bytes of a PUTS not yet begun. -/
  rest : List Byte
  deriving DecidableEq, Repr

/-! ## Pins -/

/-- The direction of a pin (R40). -/
inductive PinDir where
  | unconfigured | input | output
  deriving DecidableEq, Repr

/-- `pin[p]`, what the GPIO abstraction holds for one pin (R40). -/
structure PinState where
  dir : PinDir
  pullUp : Bool
  pullDown : Bool
  /-- The driven level, meaningful when `dir` is output. -/
  out : Level
  deriving DecidableEq, Repr

/-- A pin no OPEN has configured (R45; the bits beside `dir` are assumption 11). -/
def PinState.unconfigured : PinState where
  dir := .unconfigured
  pullUp := false
  pullDown := false
  out := false

/-! ## Inputs and outputs -/

/-- The environment changes an input level: from tick `tick` on, `in(pin, t)` is `level` (R41, assumption 3). -/
structure InputChange where
  tick : Nat
  pin : Pin
  level : Level
  deriving DecidableEq, Repr

/-- The environment wires an output pin of the block to a pin of the block: `in(sink, t) = out(source, t - 1)` (R41). -/
structure Wire where
  source : Pin
  sink : Pin
  deriving DecidableEq, Repr

/-- A word the host offers on the command port from tick `tick` on (R44, R90, R99). -/
structure Offer where
  tick : Nat
  word : Word
  deriving DecidableEq, Repr

/-- A word the block issued on the response port, with the tick in which it did (R93). -/
structure Response where
  tick : Nat
  word : RespWord
  deriving DecidableEq, Repr

/-! ## The state -/

structure State where
  /-- The parameters R6 to R11: fixed, no step writes them. -/
  cfg : Config
  /-- The elapsed-time source, in microseconds (R39, R19). -/
  now : Nat
  /-- No tick has run since reset, so the first one takes `prev` equal to its own levels (R37). -/
  fresh : Bool
  /-- `prev[p]`: the levels of the previous tick; listed pins read low (R37). -/
  prev : List (Nat × Level)
  /-- `in(p, now)`: the levels of the current tick; listed pins read low (R41). -/
  level : List (Nat × Level)
  /-- `pin[p]`: listed pins differ from `PinState.unconfigured` (R40). -/
  pins : List (Nat × PinState)
  /-- `inst`, `buf` and `rx`, indices 0 to `N_INST - 1` (R20). -/
  slots : List Slot
  isr : Isr
  tx : Tx
  /-- The words on offer and to be offered, in order (R90, R44). -/
  port : List Offer
  /-- The environment's changes still to come (R41, R44). -/
  changes : List InputChange
  /-- The environment's wires (R41). -/
  wires : List Wire
  /-- The responses issued, oldest first (R93). -/
  responses : List Response
  deriving DecidableEq, Repr

/-! ## Stops -/

/-- Why the machine stops with no next state. -/
inductive Fault where
  /-- Raised by CLOSE with an index in range, and by an OPEN that would succeed, when the receive sequencer is running
  for that very index: the source calls the outcome undefined and the spec gives it no next state (R166,
  93_implementation_defined.md U1).  Safe: the model stops where the hardware goes on in some way nobody states. -/
  | registryRace
  deriving DecidableEq, Repr

/-- Why an instruction has no meaning. -/
inductive Refusal where
  /-- Raised by no arm of the finished model: every operation has its meaning.  Safe: a stop. -/
  | notModelled (mnemonic : String)
  deriving DecidableEq, Repr

/-! ## Reset (R45) -/

/-- One slot after reset: inactive, empty buffer, flag clear, nothing attached or pending.  The spec leaves `rxPin`,
`txPin`, `bitPeriod` and the storage unspecified (assumptions 8 and 9). -/
def Slot.reset : Slot where
  inst := { rxPin := 0#8, txPin := 0#8, baudRate := 0#32, bitPeriod := 0#32 }
  buf := { storage := [], head := 0, tail := 0, overflowFlag := false }
  rx := { attached := false, pend := false }

/-- The interrupt context idle; the other fields hold no meaning (R33, assumption 12). -/
def Isr.reset : Isr where
  busy := false
  inst := 0
  ts := 0
  k := 0
  shift := 0#8

/-- The normal context idle; the other fields hold no meaning (R35, assumption 12). -/
def Tx.reset : Tx where
  busy := false
  inst := 0
  byte := 0#8
  t0 := 0
  j := 1
  rest := []

/-- The state after reset of a block with the given parameters (R45, R331, R332): no word offered, every input high. -/
def State.resetOf (c : Config) : State where
  cfg := c
  now := 0
  fresh := true
  prev := []
  level := []
  pins := []
  slots := List.replicate c.nInst Slot.reset
  isr := Isr.reset
  tx := Tx.reset
  port := []
  changes := []
  wires := []
  responses := []

/-- The state after reset of the reference configuration (R13, R45). -/
def State.reset : State := State.resetOf Config.ref

end Sys2Proof.Machine
end

