-- ==== Sys2Proof/Machine/Table.lean ====
section
/-! DEFINITION. Sparse tables: a list of keys and values in one canonical form (keys strictly rising, no entry equal to
what an unlisted key reads as), so that equal tables are equal data.  Buffer storage, pin levels and pin states are
held this way. -/

namespace Sys2Proof.Machine

/-- The value at key `k`; an unlisted key reads as `d`. -/
def tableRead {α : Type} (d : α) : List (Nat × α) → Nat → α
  | [], _ => d
  | e :: t, k => if e.1 = k then e.2 else tableRead d t k

/-- The table without key `k`. -/
def tableErase {α : Type} : List (Nat × α) → Nat → List (Nat × α)
  | [], _ => []
  | e :: t, k => if e.1 = k then tableErase t k else e :: tableErase t k

/-- The table with an entry for key `k`, before the first greater key. -/
def tableInsert {α : Type} : List (Nat × α) → Nat → α → List (Nat × α)
  | [], k, v => [(k, v)]
  | e :: t, k, v => if k < e.1 then (k, v) :: e :: t else e :: tableInsert t k v

/-- The table with value `v` at key `k`; the value an unlisted key reads as removes the entry. -/
def tableWrite {α : Type} [DecidableEq α] (d : α) (t : List (Nat × α)) (k : Nat) (v : α) : List (Nat × α) :=
  if v = d then tableErase t k else tableInsert (tableErase t k) k v

/-- Keys strictly rising. -/
abbrev tableSorted {α : Type} (t : List (Nat × α)) : Prop := t.Pairwise (fun a b => a.1 < b.1)

/-- The canonical form, with every key below `bound`. -/
abbrev tableWf {α : Type} (d : α) (bound : Nat) (t : List (Nat × α)) : Prop :=
  tableSorted t ∧ ∀ e ∈ t, e.2 ≠ d ∧ e.1 < bound

/-! ## Buffer storage as a table -/

/-- What a storage cell that nothing has written reads as (DESIGN CHOICE, assumption 9: the spec leaves the reset
contents unspecified and R70 shows that no operation returns such a cell). -/
def unwrittenByte : Byte := 0#8

/-- One byte of storage. -/
def Memory.read (m : Memory) (pos : Nat) : Byte := tableRead unwrittenByte m pos

/-- Storage with one byte written. -/
def Memory.write (m : Memory) (pos : Nat) (v : Byte) : Memory := tableWrite unwrittenByte m pos v

/-- The canonical form of the storage of a buffer of `cap` cells. -/
abbrev Memory.wf (cap : Nat) (m : Memory) : Prop := tableWf unwrittenByte cap m

end Sys2Proof.Machine
end

