-- ==== Sys2Proof/Machine/Ops.lean ====
section
/-! DEFINITION. The named operations over the state: the instance table, buffer storage, the GPIO primitives, the
response port, and the entry to and return from the receive interrupt (spec/00_scope.md R18, spec/60_exceptions.md R289
to R306, spec/42_receive_engine.md R184, R192).  The block raises no exception (R280): its one asynchronous event is the
receive run. -/

namespace Sys2Proof.Machine

/-! ## The instance table -/

/-- Slot `i` of the table; an index with no slot reads as an inactive one (R150). -/
def State.slot (s : State) (i : Nat) : Slot := s.slots.getD i Slot.reset

/-- Slot `i` replaced; an index with no slot changes nothing. -/
def State.setSlot (s : State) (i : Nat) (x : Slot) : State := { s with slots := s.slots.set i x }

/-- `inst[i]`. -/
def State.inst (s : State) (i : Nat) : Inst := (s.slot i).inst
/-- `buf[i]`. -/
def State.buf (s : State) (i : Nat) : Buffer := (s.slot i).buf
/-- `rx[i]`. -/
def State.rx (s : State) (i : Nat) : RxControl := (s.slot i).rx

/-- `inst[i] <- v`. -/
def State.setInst (s : State) (i : Nat) (v : Inst) : State := s.setSlot i { s.slot i with inst := v }
/-- `buf[i] <- v`. -/
def State.setBuf (s : State) (i : Nat) (v : Buffer) : State := s.setSlot i { s.slot i with buf := v }
/-- `rx[i] <- v`. -/
def State.setRx (s : State) (i : Nat) (v : RxControl) : State := s.setSlot i { s.slot i with rx := v }

/-- `inst[i].bitPeriod` as a number of microseconds. -/
def State.bitPeriod (s : State) (i : Nat) : Nat := (s.inst i).bitPeriod.toNat

/-! ## Buffer storage (R18, R73: every access is one byte) -/

/-- `BufRead(i, pos)`. -/
def State.bufRead (s : State) (i pos : Nat) : Byte := (s.buf i).storage.read pos

/-- `BufWrite(i, pos, v)`. -/
def State.bufWrite (s : State) (i pos : Nat) (v : Byte) : State :=
  s.setBuf i { s.buf i with storage := (s.buf i).storage.write pos v }

/-! ## The GPIO abstraction (R300 to R306) -/

/-- `pin[p]`. -/
def State.pin (s : State) (p : Pin) : PinState := tableRead PinState.unconfigured s.pins p.toNat

/-- `pin[p] <- v`. -/
def State.setPin (s : State) (p : Pin) (v : PinState) : State :=
  { s with pins := tableWrite PinState.unconfigured s.pins p.toNat v }

/-- `GpioConfigure(p, mode, pullUp, pullDown)` (R301). -/
def State.gpioConfigure (s : State) (p : Pin) (mode : PinDir) (pullUp pullDown : Bool) : State :=
  s.setPin p { s.pin p with dir := mode, pullUp := pullUp, pullDown := pullDown }

/-- `GpioSet(p, v)` (R302). -/
def State.gpioSet (s : State) (p : Pin) (v : Level) : State := s.setPin p { s.pin p with out := v }

/-- The level of pin `p` in a table of input levels; an unlisted pin is at the idle level (R17, R41). -/
def levelOf (t : List (Nat × Level)) (p : Pin) : Level := tableRead idleLevel t p.toNat

/-- `GpioGet(p)`: the live input level `in(p, now)` (R303, R38). -/
def State.gpioGet (s : State) (p : Pin) : Level := levelOf s.level p

/-- `out(p, now)`: the driven level of an output pin, and none for a pin the block does not drive (R40). -/
def State.out (s : State) (p : Pin) : Option Level :=
  if (s.pin p).dir = .output then some (s.pin p).out else none

/-- `Attach(p, i)` with `rx[i].attached <- 1` (R304), and `rx[i].pend <- 0` beside it in both rules that attach
(R158, R192). -/
def State.attach (s : State) (i : Nat) : State := s.setRx i { attached := true, pend := false }

/-- `Detach(p)` with `rx[i].attached <- 0` (R305), and `rx[i].pend <- 0` beside it in every rule that detaches
(R158, R162, R184). -/
def State.detach (s : State) (i : Nat) : State := s.setRx i { attached := false, pend := false }

/-! ## The response port -/

/-- The operation in progress issues its response in this tick (R93). -/
def State.respond (s : State) (v : RespWord) : State :=
  { s with responses := s.responses ++ [{ tick := s.now, word := v }] }

/-! ## Entry to and return from the receive interrupt -/

/-- Entry: the run for instance `i` starts in this tick; it detaches its own interrupt and saves nothing
(R184, R289). -/
def State.startRun (s : State) (i : Nat) : State :=
  { s.detach i with isr := { busy := true, inst := i, ts := s.now, k := 0, shift := 0#8 } }

/-- Return: the run re-arms its instance and frees the interrupt context; nothing is restored (R192, R291). -/
def State.endRun (s : State) : State :=
  { s.attach s.isr.inst with isr := { s.isr with busy := false } }

/-! ## The reset event -/

/-- The reset event striking a running block: the state becomes that of R45 whatever it was before, every pin
unconfigured among it, so that the block drives no pin until an OPEN (R330 to R332).  What R45 gives no value and what
lies outside the block (the parameters, the time base, the environment and the host) stays (assumption 19). -/
def State.restart (s : State) : State :=
  { s with
    fresh := true
    pins := []
    slots := List.replicate s.cfg.nInst Slot.reset
    isr := Isr.reset
    tx := Tx.reset }

end Sys2Proof.Machine
end

