-- ==== Sys2Proof/Machine/Operands.lean ====
section
/-! DEFINITION. The operand forms of the host operations: the instance index and the active gate, the pin operands of
OPEN and their conflict check, and the response words (spec/30_encoding.md R93, R94; spec/41_instance_registry.md R150 to
R157). -/

namespace Sys2Proof.Machine

/-- `idx < N_INST`, compared as an unsigned number (R94). -/
def State.indexInRange (s : State) (idx : Index) : Bool := decide (idx.toNat < s.cfg.nInst)

/-- `isActive(i)` (R150). -/
def State.isActive (s : State) (i : Nat) : Bool :=
  decide (i < s.cfg.nInst) && decide ((s.inst i).baudRate ≠ 0#32)

/-- The gate of R151: the index operand names an active instance. -/
def State.gate (s : State) (idx : Index) : Bool := s.isActive idx.toNat

/-- A requested pin pair shares a pin with instance `j`, all four cross combinations (R157). -/
def State.sharesPin (s : State) (j : Nat) (rx tx : Pin) : Bool :=
  decide (rx = (s.inst j).rxPin) || decide (rx = (s.inst j).txPin) ||
    decide (tx = (s.inst j).rxPin) || decide (tx = (s.inst j).txPin)

/-- Some other active instance holds one of the requested pins (R157). -/
def State.pinConflict (s : State) (i : Nat) (rx tx : Pin) : Bool :=
  (List.range s.cfg.nInst).any (fun j => decide (j ≠ i) && s.isActive j && s.sharesPin j rx tx)

/-- OPEN fails: any of R154 to R157, all evaluated before any write (R153). -/
def State.openFails (s : State) (idx : Index) (baud : Baud) (rx tx : Pin) : Bool :=
  !s.indexInRange idx || decide (baud = 0#32) || decide (rx = tx) || s.pinConflict idx.toNat rx tx

/-- The receive sequencer is running for the instance of the index operand (R166). -/
def State.receivingFor (s : State) (idx : Index) : Bool := s.isr.busy && decide (s.isr.inst = idx.toNat)

/-- The source's `bool` as a response: 1 for true, 0 for false (R93). -/
def respBool (b : Bool) : RespWord := if b then 1#32 else 0#32

/-- A byte zero-extended to a response (R93). -/
def respByte (b : Byte) : RespWord := b.setWidth 32

/-- A count zero-extended to a response (R93, R250); one that does not fit is the free value of assumption 21. -/
def respCount (n : Nat) : RespWord := if n < 2 ^ 32 then BitVec.ofNat 32 n else Config.freeCount n

end Sys2Proof.Machine
end

