-- ==== Sys2Proof/Machine/Flags.lean ====
section
/-! DEFINITION. The one status flag of an instance, `buf[i].overflowFlag` (spec/10_state.md R30, R32;
spec/44_buffer_access.md R255): set by an append to a full buffer, cleared by OVFCLR, a successful OPEN and reset. -/

namespace Sys2Proof.Machine

/-- The flag as OVF reads it (R254). -/
def State.overflowFlag (s : State) (i : Nat) : Bool := (s.buf i).overflowFlag

/-- `buf[i].overflowFlag <- 1` (R66). -/
def State.setOverflow (s : State) (i : Nat) : State := s.setBuf i { s.buf i with overflowFlag := true }

/-- `buf[i].overflowFlag <- 0` (R256). -/
def State.clearOverflow (s : State) (i : Nat) : State := s.setBuf i { s.buf i with overflowFlag := false }

end Sys2Proof.Machine
end

