-- ==== Sys2Proof/Machine/Ring.lean ====
section
/-! DEFINITION. The circular receive buffer: empty, full, occupancy, append and pop (spec/20_memory.md R62 to R69). -/

namespace Sys2Proof.Machine

/-- The position after `x`: `(x + 1) mod BUF_CAP` (R69). -/
def nextPos (cap x : Nat) : Nat := (x + 1) % cap

/-- The buffer is empty (R62). -/
def Buffer.isEmpty (b : Buffer) : Bool := decide (b.head = b.tail)

/-- `occ`, the number of bytes appended and not yet read (R63). -/
def Buffer.occupancy (cap : Nat) (b : Buffer) : Nat := (b.tail + cap - b.head) % cap

/-- The buffer is full (R64). -/
def Buffer.isFull (cap : Nat) (b : Buffer) : Bool := decide (nextPos cap b.tail = b.head)

/-- `Append(i, b)`: store and advance `tail`, or set the overflow flag and drop the byte (R66). -/
def State.append (s : State) (i : Nat) (b : Byte) : State :=
  if (s.buf i).isFull s.cfg.bufCap then s.setOverflow i
  else
    let s1 := s.bufWrite i (s.buf i).tail b
    s1.setBuf i { s1.buf i with tail := nextPos s.cfg.bufCap (s.buf i).tail }

/-- The byte at `head`, which `Pop(i)` returns (R67). -/
def State.popByte (s : State) (i : Nat) : Byte := s.bufRead i (s.buf i).head

/-- `Pop(i)`'s write: `head` advances, the storage keeps its value (R67). -/
def State.popAdvance (s : State) (i : Nat) : State :=
  s.setBuf i { s.buf i with head := nextPos s.cfg.bufCap (s.buf i).head }

end Sys2Proof.Machine
end

