-- ==== Sys2Proof/Machine/BufferAccess.lean ====
section
/-! DEFINITION. The meanings of AVAIL, READ, OVF and OVFCLR (spec/44_buffer_access.md R250 to R257). -/

namespace Sys2Proof.Machine

/-- AVAIL (R250). -/
def execAvail (idx : Index) (s : State) : Host.Outcome State Fault Refusal :=
  if s.gate idx then .next (s.respond (respCount ((s.buf idx.toNat).occupancy s.cfg.bufCap)))
  else .next (s.respond 0#32)

/-- READ (R252): the sentinel 0 when inactive or empty, else `Pop`. -/
def execRead (idx : Index) (s : State) : Host.Outcome State Fault Refusal :=
  if !s.gate idx then .next (s.respond (respByte 0#8))
  else if (s.buf idx.toNat).isEmpty then .next (s.respond (respByte 0#8))
  else .next ((s.popAdvance idx.toNat).respond (respByte (s.popByte idx.toNat)))

/-- OVF (R254). -/
def execOvf (idx : Index) (s : State) : Host.Outcome State Fault Refusal :=
  if s.gate idx then .next (s.respond (respBool (s.overflowFlag idx.toNat)))
  else .next (s.respond (respBool false))

/-- OVFCLR (R256). -/
def execOvfclr (idx : Index) (s : State) : Host.Outcome State Fault Refusal :=
  if s.gate idx then .next ((s.clearOverflow idx.toNat).respond (respBool true))
  else .next (s.respond (respBool false))

end Sys2Proof.Machine
end

