-- ==== Sys2Proof/Machine/Timing.lean ====
section
/-! DEFINITION. The Timing Calculator and the two kinds of wait (spec/40_timing_calculator.md R130 to R140). -/

namespace Sys2Proof.Machine

/-- The bit period of a baud rate: `round(1 000 000 / baud)`, ties up, exact on integers (R131). -/
def bitPeriodOf (baud : Baud) : Nat := (2000000 + baud.toNat) / (2 * baud.toNat)

/-- The bit period as the 32-bit register holds it (R24, R131). -/
def bitPeriodReg (baud : Baud) : BitVec 32 := BitVec.ofNat 32 (bitPeriodOf baud)

/-- The centering delay, `floor(bitPeriod / 2) + STARTUP_MARGIN` (R133).  Where that is negative the parameters break R8
and the delay is the free value of assumption 14. -/
def centeringDelay (c : Config) (bp : Nat) : Nat :=
  if c.marginFits bp then (((bp / 2 : Nat) : Int) + c.startupMargin).toNat
  else Config.freeCenteringDelay bp c.startupMargin

/-- The inter-bit delay (R134). -/
def intraBitDelay (bp : Nat) : Nat := bp

/-- The stop-bit delay (R135). -/
def stopBitDelay (bp : Nat) : Nat := bp

/-- The relative delays before sample `k`, counted from the start of a run (R137, R187). -/
def sampleOffset (c : Config) (bp k : Nat) : Nat := centeringDelay c bp + (k + 1) * intraBitDelay bp

/-- The relative delays before the end of a run, counted from its start (R190, R193). -/
def windowLength (c : Config) (bp : Nat) : Nat := centeringDelay c bp + 8 * intraBitDelay bp + stopBitDelay bp

/-- The absolute deadline of frame index `j` is met: `now - t0 >= bitPeriod * j` (R138). -/
def deadlineMet (now t0 bp j : Nat) : Bool := decide (t0 + bp * j ≤ now)

end Sys2Proof.Machine
end

