-- ==== Sys2Proof/Machine/Registry.lean ====
section
/-! DEFINITION. The meanings of ISACTIVE, OPEN and CLOSE (spec/41_instance_registry.md R150 to R166). -/

namespace Sys2Proof.Machine

/-- OPEN step 1: the implicit close of a prior configuration (R158). -/
def State.closePrior (s : State) (i : Nat) : State :=
  if s.isActive i then
    let s1 := s.detach i
    s1.setInst i { s1.inst i with baudRate := 0#32 }
  else s

/-- OPEN step 2: the configuration registers and an empty buffer; the storage keeps its contents (R158). -/
def State.configure (s : State) (i : Nat) (baud : Baud) (rx tx : Pin) : State :=
  let s1 := s.setInst i { s.inst i with rxPin := rx, txPin := tx, bitPeriod := bitPeriodReg baud }
  s1.setBuf i { s1.buf i with head := 0, tail := 0, overflowFlag := false }

/-- OPEN step 3: the receive pin an input with pull-up, the transmit pin an output with pull-up driven to idle (R158). -/
def State.configurePins (s : State) (rx tx : Pin) : State :=
  ((s.gpioConfigure rx .input true false).gpioConfigure tx .output true false).gpioSet tx idleLevel

/-- OPEN step 4: arm the receive interrupt and mark the instance active (R158). -/
def State.activate (s : State) (i : Nat) (baud : Baud) : State :=
  let s1 := s.attach i
  s1.setInst i { s1.inst i with baudRate := baud }

/-- The state writes of a successful OPEN (R158). -/
def State.openSuccess (s : State) (i : Nat) (baud : Baud) (rx tx : Pin) : State :=
  (((s.closePrior i).configure i baud rx tx).configurePins rx tx).activate i baud

/-- OPEN (R158; its failures R154 to R157, R159; the race R166). -/
def execOpen (idx : Index) (baud : Baud) (rx tx : Pin) (s : State) : Host.Outcome State Fault Refusal :=
  if s.openFails idx baud rx tx then .next (s.respond (respBool false))
  else if s.receivingFor idx then .fault .registryRace
  else .next ((s.openSuccess idx.toNat baud rx tx).respond (respBool true))

/-- The state writes of CLOSE with an index in range (R162). -/
def State.closeSuccess (s : State) (i : Nat) : State :=
  let s1 := s.detach i
  s1.setInst i { s1.inst i with baudRate := 0#32 }

/-- CLOSE (R162; the race R166). -/
def execClose (idx : Index) (s : State) : Host.Outcome State Fault Refusal :=
  if !s.indexInRange idx then .next (s.respond (respBool false))
  else if s.receivingFor idx then .fault .registryRace
  else .next ((s.closeSuccess idx.toNat).respond (respBool true))

/-- ISACTIVE (R152). -/
def execIsActive (idx : Index) (s : State) : Host.Outcome State Fault Refusal :=
  .next (s.respond (respBool (s.gate idx)))

end Sys2Proof.Machine
end

