-- ==== Sys2Proof/Machine/Transmit.lean ====
section
/-! DEFINITION. The transmit sequencer and the meanings of PUT and PUTS (spec/43_transmit_engine.md R220 to R236). -/

namespace Sys2Proof.Machine

/-- The level of the wire in bit-time `j` of the frame of byte `b`: start, eight data bits least significant first,
stop (spec/30_encoding.md R110; R224). -/
def frameLevel (b : Byte) (j : Nat) : Level :=
  if j = 0 then false else if j ≤ 8 then b.getLsbD (j - 1) else true

/-- The bit period of the transmitting instance. -/
def State.txPeriod (s : State) : Nat := s.bitPeriod s.tx.inst

/-- A PUT of byte `b` on instance `i` begins in this tick, with `rest` the bytes after it: the start bit is driven at
once (R222, R223). -/
def State.beginPut (s : State) (i : Nat) (b : Byte) (rest : List Byte) : State :=
  { s.gpioSet (s.inst i).txPin (frameLevel b 0) with
    tx := { busy := true, inst := i, byte := b, t0 := s.now, j := 1, rest := rest } }

/-- The next pin write of the frame is due: index 1 to 8 a data bit, 9 the stop bit (R222). -/
def State.writeDue (s : State) : Bool :=
  decide (s.tx.j ≤ 9) && deadlineMet s.now s.tx.t0 s.txPeriod s.tx.j

/-- The pin write of frame index `j` (R222, R224). -/
def State.txWrite (s : State) : State :=
  { s.gpioSet (s.inst s.tx.inst).txPin (frameLevel s.tx.byte s.tx.j) with tx := { s.tx with j := s.tx.j + 1 } }

/-- Every pin write that is due, in order of `j`, at most `n` of them (R138, R232). -/
def State.txWrites : Nat → State → State
  | 0, s => s
  | n + 1, s => if s.writeDue then State.txWrites n s.txWrite else s

/-- The PUT returns: the stop bit is driven and the settle margin is over (R222, R226). -/
def State.putReturns (s : State) : Bool :=
  decide (s.tx.j = 10) && deadlineMet s.now s.tx.t0 s.txPeriod (9 + s.cfg.settleBits)

/-- The operation in progress completes with response `v` (R292). -/
def State.txFinish (s : State) (v : RespWord) : State :=
  { s with tx := { s.tx with busy := false } }.respond v

/-- Every action of the PUT or PUTS in progress that is due in this tick.  The second argument is the bytes not yet
begun: when the PUT returns the next one begins in the same tick, after the gate of `PUT`, which stops the PUTS with
response 0 when it fails (R234, R292). -/
def State.txAdvance : State → List Byte → State
  | s, [] =>
    let s1 := State.txWrites 10 s
    if s1.putReturns then s1.txFinish (respBool true) else s1
  | s, b :: bs =>
    let s1 := State.txWrites 10 s
    if s1.putReturns then
      if s1.isActive s1.tx.inst then State.txAdvance (s1.beginPut s1.tx.inst b bs) bs
      else s1.txFinish (respBool false)
    else s1

/-- Step 4 (i) of a tick: the transmit actions due in this tick (R292). -/
def State.transmitStep (s : State) : State := if s.tx.busy then s.txAdvance s.tx.rest else s

/-- PUT (R222). -/
def execPut (idx : Index) (byte : Byte) (s : State) : Host.Outcome State Fault Refusal :=
  if s.gate idx then .next ((s.beginPut idx.toNat byte []).txAdvance [])
  else .next (s.respond (respBool false))

/-- PUTS (R234): the gate, then a PUT of each byte in order; an empty text on an active instance completes at once. -/
def execPuts (idx : Index) (text : List Byte) (s : State) : Host.Outcome State Fault Refusal :=
  if s.gate idx then
    match text with
    | [] => .next (s.respond (respBool true))
    | b :: bs => .next ((s.beginPut idx.toNat b bs).txAdvance bs)
  else .next (s.respond (respBool false))

end Sys2Proof.Machine
end

