-- ==== Sys2Proof/Machine/Dispatch.lean ====
section
/-! DEFINITION. One arm per host operation (spec/30_encoding.md R96): each is one direct call of its meaning. -/

namespace Sys2Proof.Machine

def exec (i : Instr) (s : State) : Host.Outcome State Fault Refusal :=
  match i with
  | .openInst idx baud rx tx => Sys2Proof.Machine.execOpen idx baud rx tx s
  | .closeInst idx => Sys2Proof.Machine.execClose idx s
  | .isActive idx => Sys2Proof.Machine.execIsActive idx s
  | .put idx byte => Sys2Proof.Machine.execPut idx byte s
  | .puts idx text => Sys2Proof.Machine.execPuts idx text s
  | .avail idx => Sys2Proof.Machine.execAvail idx s
  | .read idx => Sys2Proof.Machine.execRead idx s
  | .ovf idx => Sys2Proof.Machine.execOvf idx s
  | .ovfclr idx => Sys2Proof.Machine.execOvfclr idx s

end Sys2Proof.Machine
end

