-- ==== Sys2Proof/WellFormed.lean ====
section
/-! DEFINITION. Which instructions have an encoding.  Every operand field holds every value of its type, so the one
condition is that the byte count of a PUTS fits the 32-bit `arg` field (spec/30_encoding.md R91, R92). -/

namespace Sys2Proof

/-- An operation that the command port can spell.  An index out of range, a zero baud rate or two equal pins are legal
words whose operation fails by its own rule (R97). -/
def Instr.wellFormed : Instr → Bool
  | .openInst _ _ _ _ => true
  | .closeInst _ => true
  | .isActive _ => true
  | .put _ _ => true
  | .puts _ text => decide (text.length < 2 ^ 32)
  | .avail _ => true
  | .read _ => true
  | .ovf _ => true
  | .ovfclr _ => true

end Sys2Proof
end

