-- ==== Sys2Proof/Decode.lean ====
section
/-! DEFINITION. The decoder of the command port, total on any list of words and rejecting by name, and the encoder
(spec/30_encoding.md R90 to R101).  A command word is one 64-bit value and has no byte order (R71). -/

namespace Sys2Proof

/-! ## Fields of a `CMD` word (R91) -/

/-- Bits 63:60. -/
def fieldOp (w : Word) : BitVec 4 := w.extractLsb' 60 4
/-- Bits 59:56, reserved, must be zero. -/
def fieldZero (w : Word) : BitVec 4 := w.extractLsb' 56 4
/-- Bits 55:48. -/
def fieldIdx (w : Word) : Index := w.extractLsb' 48 8
/-- Bits 47:40. -/
def fieldRx (w : Word) : Pin := w.extractLsb' 40 8
/-- Bits 39:32. -/
def fieldTx (w : Word) : Pin := w.extractLsb' 32 8
/-- Bits 31:0. -/
def fieldArg (w : Word) : BitVec 32 := w.extractLsb' 0 32

/-- The byte of a `PAY` word: bits 7:0, the others are ignored (R92). -/
def payByte (w : Word) : Byte := w.extractLsb' 0 8

/-! ## The opcode map (R96) -/

/-- The nine operations of R96, by name. -/
inductive Op where
  /-- OPEN. -/
  | opn
  | close | isActive | put | puts | avail | read | ovf | ovfclr
  deriving DecidableEq, Repr

/-- The code of an operation in bits 63:60 (R96). -/
def opCode : Op → BitVec 4
  | .opn => 0x1#4
  | .close => 0x2#4
  | .isActive => 0x3#4
  | .put => 0x4#4
  | .puts => 0x5#4
  | .avail => 0x6#4
  | .read => 0x7#4
  | .ovf => 0x8#4
  | .ovfclr => 0x9#4

/-- The `mask` column of R96. -/
def opMask : Op → Word
  | .opn => 0xFF00000000000000#64
  | .put => 0xFF00FFFFFFFFFF00#64
  | .puts => 0xFF00FFFF00000000#64
  | .close => 0xFF00FFFFFFFFFFFF#64
  | .isActive => 0xFF00FFFFFFFFFFFF#64
  | .avail => 0xFF00FFFFFFFFFFFF#64
  | .read => 0xFF00FFFFFFFFFFFF#64
  | .ovf => 0xFF00FFFFFFFFFFFF#64
  | .ovfclr => 0xFF00FFFFFFFFFFFF#64

/-- The `match` column of R96. -/
def opMatch : Op → Word
  | .opn => 0x1000000000000000#64
  | .close => 0x2000000000000000#64
  | .isActive => 0x3000000000000000#64
  | .put => 0x4000000000000000#64
  | .puts => 0x5000000000000000#64
  | .avail => 0x6000000000000000#64
  | .read => 0x7000000000000000#64
  | .ovf => 0x8000000000000000#64
  | .ovfclr => 0x9000000000000000#64

/-- The rows of R96 in the table's order. -/
def allOps : List Op := [.opn, .close, .isActive, .put, .puts, .avail, .read, .ovf, .ovfclr]

/-- The operation an `op` field names; none for the reserved codes 0x0 and 0xA to 0xF (R98). -/
def opOfCode (c : BitVec 4) : Option Op := allOps.find? (fun o => opCode o = c)

/-- The fields R91 requires to be zero for an operation are zero (R97); the field `zero` apart. -/
def operandFieldsClear (o : Op) (w : Word) : Bool :=
  match o with
  | .opn => true
  | .put => decide (fieldRx w = 0#8) && decide (fieldTx w = 0#8) && decide ((fieldArg w).extractLsb' 8 24 = 0#24)
  | .puts => decide (fieldRx w = 0#8) && decide (fieldTx w = 0#8)
  | .close | .isActive | .avail | .read | .ovf | .ovfclr =>
    decide (fieldRx w = 0#8) && decide (fieldTx w = 0#8) && decide (fieldArg w = 0#32)

/-! ## Decoding -/

/-- Why a word spells no operation (R97). -/
inductive Illegal where
  /-- `op` is 0x0 or 0xA to 0xF. -/
  | reservedOp
  /-- Bits 59:56 are not zero. -/
  | zeroField
  /-- A field the operation requires to be zero is not. -/
  | operandField
  deriving DecidableEq, Repr

/-- What the decoder reads from the head of the words on offer. -/
inductive Decoded where
  /-- A legal operation and the words after it. -/
  | op (i : Instr) (rest : List Word)
  /-- An illegal word, one word long whatever its `op` (R95), and the words after it. -/
  | illegal (why : Illegal) (rest : List Word)
  /-- No word, or a PUTS header whose payload words are not all on offer. -/
  | incomplete
  deriving DecidableEq, Repr

/-- Which operation one `CMD` word spells, or why none (R96, R97). -/
def decodeHeader (w : Word) : Except Illegal Op :=
  match opOfCode (fieldOp w) with
  | none => .error .reservedOp
  | some o =>
    if fieldZero w ≠ 0#4 then .error .zeroField
    else if operandFieldsClear o w then .ok o
    else .error .operandField

/-- The bytes of the next `n` payload words and the words after them (R92); none when fewer are on offer. -/
def takePayload : Nat → List Word → Option (List Byte × List Word)
  | 0, ws => some ([], ws)
  | _ + 1, [] => none
  | n + 1, w :: ws =>
    match takePayload n ws with
    | none => none
    | some (text, rest) => some (payByte w :: text, rest)

/-- The operands of a legal header (R94), with the payload of a PUTS from the words after it (R95). -/
def decodeOperands (o : Op) (w : Word) (ws : List Word) : Decoded :=
  match o with
  | .opn => .op (.openInst (fieldIdx w) (fieldArg w) (fieldRx w) (fieldTx w)) ws
  | .close => .op (.closeInst (fieldIdx w)) ws
  | .isActive => .op (.isActive (fieldIdx w)) ws
  | .put => .op (.put (fieldIdx w) ((fieldArg w).extractLsb' 0 8)) ws
  | .puts =>
    match takePayload (fieldArg w).toNat ws with
    | none => .incomplete
    | some (text, rest) => .op (.puts (fieldIdx w) text) rest
  | .avail => .op (.avail (fieldIdx w)) ws
  | .read => .op (.read (fieldIdx w)) ws
  | .ovf => .op (.ovf (fieldIdx w)) ws
  | .ovfclr => .op (.ovfclr (fieldIdx w)) ws

/-- The decoder: the operation at the head of the words on offer (R95 to R97). -/
def decode : List Word → Decoded
  | [] => .incomplete
  | w :: ws =>
    match decodeHeader w with
    | .error why => .illegal why ws
    | .ok o => decodeOperands o w ws

/-! ## Encoding -/

/-- A `CMD` word from its fields, the field `zero` clear (R91). -/
def cmdWord (op : BitVec 4) (idx : Index) (rx tx : Pin) (arg : BitVec 32) : Word :=
  (op.setWidth 64 <<< 60) ||| (idx.setWidth 64 <<< 48) ||| (rx.setWidth 64 <<< 40) |||
    (tx.setWidth 64 <<< 32) ||| arg.setWidth 64

/-- The operation of R96 an instruction is. -/
def opOf : Instr → Op
  | .openInst _ _ _ _ => .opn
  | .closeInst _ => .close
  | .isActive _ => .isActive
  | .put _ _ => .put
  | .puts _ _ => .puts
  | .avail _ => .avail
  | .read _ => .read
  | .ovf _ => .ovf
  | .ovfclr _ => .ovfclr

/-- The first word of an instruction (R91, R96). -/
def encodeHeader : Instr → Word
  | .openInst idx baud rx tx => cmdWord (opCode .opn) idx rx tx baud
  | .closeInst idx => cmdWord (opCode .close) idx 0#8 0#8 0#32
  | .isActive idx => cmdWord (opCode .isActive) idx 0#8 0#8 0#32
  | .put idx byte => cmdWord (opCode .put) idx 0#8 0#8 (byte.setWidth 32)
  | .puts idx text => cmdWord (opCode .puts) idx 0#8 0#8 (BitVec.ofNat 32 text.length)
  | .avail idx => cmdWord (opCode .avail) idx 0#8 0#8 0#32
  | .read idx => cmdWord (opCode .read) idx 0#8 0#8 0#32
  | .ovf idx => cmdWord (opCode .ovf) idx 0#8 0#8 0#32
  | .ovfclr idx => cmdWord (opCode .ovfclr) idx 0#8 0#8 0#32

/-- The payload words of an instruction, bits 63:8 clear (R92). -/
def encodePayload : Instr → List Word
  | .puts _ text => text.map (fun b => b.setWidth 64)
  | .openInst _ _ _ _ => []
  | .closeInst _ => []
  | .isActive _ => []
  | .put _ _ => []
  | .avail _ => []
  | .read _ => []
  | .ovf _ => []
  | .ovfclr _ => []

/-- The words of an instruction, in the order the host offers them. -/
def encode (i : Instr) : List Word := encodeHeader i :: encodePayload i

/-- The length of an operation on the command port, in words (R95). -/
def wordLength (i : Instr) : Nat := 1 + (encodePayload i).length

/-! ## One word as the opcode table numbers it -/

/-- How many payload words a first word announces: `arg` for a legal PUTS, none otherwise (R92, R95). -/
def payloadCount (w : Word) : Nat :=
  match decodeHeader w with
  | .ok .puts => (fieldArg w).toNat
  | _ => 0

/-- The words on the port of an instruction whose bits are the low `nbits` bits of `w`, the rest zero: the first word,
then as many payload words as it announces. -/
def layoutWords (nbits w : Nat) : List Word :=
  let v := w % 2 ^ nbits
  let first : Word := BitVec.ofNat 64 v
  first :: (List.range (payloadCount first)).map (fun k => BitVec.ofNat 64 (v >>> (64 * (k + 1))))

/-- The instruction the decoder reads from bits numbered as the opcode table numbers them. -/
def decodeTableWord (nbits w : Nat) : Option Instr :=
  match decode (layoutWords nbits w) with
  | .op i _ => some i
  | _ => none

end Sys2Proof
end

