-- ==== Sys2Proof/Machine/Receive.lean ====
section
/-! DEFINITION. Edge detection and the receive sequencer (spec/60_exceptions.md R286 to R288; spec/42_receive_engine.md R183
to R198). -/

namespace Sys2Proof.Machine

/-! ## Edge detection, step 2 of a tick (R286) -/

/-- A falling edge on pin `p`: high in the previous tick, low in this one. -/
def State.fallingEdge (s : State) (p : Pin) : Bool := levelOf s.prev p && !levelOf s.level p

/-- The pending bit of an attached slot after edge detection (R286, R287). -/
def State.latchEdge (s : State) (x : Slot) : Slot :=
  if x.rx.attached && s.fallingEdge x.inst.rxPin && (!s.isr.busy || s.cfg.pendLatch) then
    { x with rx := { x.rx with pend := true } }
  else x

/-- Step 2 of a tick: edge detection on every attached receive pin. -/
def State.detectEdges (s : State) : State := { s with slots := s.slots.map s.latchEdge }

/-! ## The receive sequencer -/

/-- The bit period of the running instance (R183). -/
def State.runPeriod (s : State) : Nat := s.bitPeriod s.isr.inst

/-- The next sample of the run is due: it is taken at `ts + cd + (k + 1) * bp` (R187). -/
def State.sampleDue (s : State) : Bool :=
  s.isr.busy && decide (s.isr.k < 8) &&
    decide (s.isr.ts + sampleOffset s.cfg s.runPeriod s.isr.k ≤ s.now)

/-- A byte with bit `k` set to the level `v` (R186, R188: level 1 is bit 1). -/
def setBit (b : Byte) (k : Nat) (v : Level) : Byte :=
  if v then b ||| (1#8 <<< k) else b &&& ~~~(1#8 <<< k)

/-- `isr.shift[k] <- GpioGet(rxPin)` and `isr.k <- k + 1` (R186). -/
def State.recordSample (s : State) : State :=
  { s with isr := { s.isr with
      shift := setBit s.isr.shift s.isr.k (s.gpioGet (s.inst s.isr.inst).rxPin)
      k := s.isr.k + 1 } }

/-- One sample, and after the eighth the append of the assembled byte in the same tick (R186, R189). -/
def State.takeSample (s : State) : State :=
  let s1 := s.recordSample
  if s1.isr.k = 8 then s1.append s1.isr.inst s1.isr.shift else s1

/-- Every sample that is due, in order, at most `n` of them. -/
def State.takeSamples : Nat → State → State
  | 0, s => s
  | n + 1, s => if s.sampleDue then State.takeSamples n s.takeSample else s

/-- The end of the run is due: it ends at `ts + cd + 9 * bp`, after its eight samples (R190, R192). -/
def State.endDue (s : State) : Bool :=
  s.isr.busy && decide (s.isr.k = 8) && decide (s.isr.ts + windowLength s.cfg s.runPeriod ≤ s.now)

/-- Every action of the run in progress that is due in this tick (R198). -/
def State.advanceRun (s : State) : State :=
  let s1 := State.takeSamples 8 s
  if s1.endDue then s1.endRun else s1

/-- The lowest index that is pending and attached (R288). -/
def State.nextPending (s : State) : Option Nat :=
  (List.range s.cfg.nInst).find? (fun i => (s.rx i).pend && (s.rx i).attached)

/-- Every pending bit cleared (R287). -/
def State.clearPending (s : State) : State :=
  { s with slots := s.slots.map (fun x => { x with rx := { x.rx with pend := false } }) }

/-- A run starts for instance `i`; without `PEND_LATCH` all pending bits are then cleared (R288). -/
def State.serve (s : State) (i : Nat) : State :=
  if s.cfg.pendLatch then s.startRun i else (s.startRun i).clearPending

/-- While the interrupt context is idle and an instance is pending, start its run and perform what is due in this tick
(R288).  A further run starts in the same tick only when the one before has ended in it, and each start clears its own
pending bit, so `N_INST` starts are enough. -/
def State.startRuns : Nat → State → State
  | 0, s => s
  | n + 1, s =>
    if s.isr.busy then s
    else
      match s.nextPending with
      | none => s
      | some i => State.startRuns n (s.serve i).advanceRun

/-- Step 3 of a tick: the interrupt context (R15, R288). -/
def State.interruptStep (s : State) : State := State.startRuns s.cfg.nInst s.advanceRun

end Sys2Proof.Machine
end

