-- ==== Sys2Proof/Machine/Tick.lean ====
section
/-! DEFINITION. One tick of the block (spec/00_scope.md R15; spec/60_exceptions.md R286, R288, R292): inputs, edge
detection, the interrupt context, the normal context with the acceptance of host operations.  The meaning of an
operation is an argument here; Step.lean supplies it. -/

namespace Sys2Proof.Machine

/-! ## Step 1: time and inputs (R15, R37, R39, R41) -/

/-- The level a wire carries: the driven level of its source in the previous tick; an undriven line reads high (R41). -/
def State.wireLevel (s : State) (w : Wire) : Level := (s.out w.source).getD idleLevel

/-- The level of pin `p` in a table, replaced. -/
def setLevel (t : List (Nat × Level)) (p : Pin) (v : Level) : List (Nat × Level) := tableWrite idleLevel t p.toNat v

/-- `in(p, now + 1)`: the levels of this tick with the environment's changes up to the next tick, then its wires. -/
def State.nextLevel (s : State) : List (Nat × Level) :=
  let due := s.changes.filter (fun c => decide (c.tick ≤ s.now + 1))
  let external := due.foldl (fun t c => setLevel t c.pin c.level) s.level
  s.wires.foldl (fun t w => setLevel t w.sink (s.wireLevel w)) external

/-- Step 1 of a tick.  In the first tick after reset `prev` is taken equal to the tick's own levels (R37). -/
def State.sampleInputs (s : State) : State :=
  { s with
    now := s.now + 1
    fresh := false
    prev := if s.fresh then s.nextLevel else s.level
    level := s.nextLevel
    changes := s.changes.filter (fun c => !decide (c.tick ≤ s.now + 1)) }

/-! ## The command port (R90, R102) -/

/-- The words on offer in this tick, in order. -/
def State.offered (s : State) : List Word := (s.port.takeWhile (fun o => decide (o.tick ≤ s.now))).map (·.word)

/-- The first `n` words of the port are taken. -/
def State.takeWords (s : State) (n : Nat) : State := { s with port := s.port.drop n }

/-- The normal context takes no step in this tick (R15 step 4, R292). -/
def State.held (s : State) : Bool := s.cfg.singleCore && s.isr.busy

/-- An illegal word writes no state and gets response 0 (R97). -/
def State.rejectWord (s : State) : State := (s.takeWords 1).respond 0#32

/-- What a state does next when it is one: the rest of a tick after an operation. -/
def andThen (o : Host.Outcome State Fault Refusal) (f : State → Host.Outcome State Fault Refusal) :
    Host.Outcome State Fault Refusal :=
  match o with
  | .next s => f s
  | .fault r => .fault r
  | .refused r => .refused r

/-- Step 4 (ii): while the normal context is idle and an operation is on offer, accept and execute it, at most `n`
times (R292). -/
def acceptLoop (run : Instr → State → Host.Outcome State Fault Refusal) :
    Nat → State → Host.Outcome State Fault Refusal
  | 0, s => .next s
  | n + 1, s =>
    if s.tx.busy then .next s
    else
      match decode s.offered with
      | .incomplete => .next s
      | .illegal _ _ => acceptLoop run n s.rejectWord
      | .op i _ => andThen (run i (s.takeWords (wordLength i))) (acceptLoop run n)

/-- Step 4 (ii) to its end: every acceptance takes at least one word of the port. -/
def acceptAll (run : Instr → State → Host.Outcome State Fault Refusal) (s : State) :
    Host.Outcome State Fault Refusal :=
  acceptLoop run s.port.length s

/-! ## The tick -/

/-- Steps 1 to 3 of a tick (R15). -/
def State.interruptPart (s : State) : State := s.sampleInputs.detectEdges.interruptStep

/-- The tick up to the acceptance of operations: steps 1 to 3, and step 4 (i) unless the normal context is held. -/
def State.beforeAccept (s : State) : State :=
  if s.interruptPart.held then s.interruptPart else s.interruptPart.transmitStep

/-- One tick (R15). -/
def tickWith (run : Instr → State → Host.Outcome State Fault Refusal) (s : State) :
    Host.Outcome State Fault Refusal :=
  if s.interruptPart.held then .next s.interruptPart else acceptAll run s.beforeAccept

/-! ## Placing one instruction on the port -/

/-- The state with both contexts idle, nothing pending, and no edge to be seen in the next tick: an operation offered
then is accepted then (R102). -/
def State.readyToAccept (s : State) : State :=
  { s.clearPending with
    fresh := true
    isr := { s.isr with busy := false }
    tx := { s.tx with busy := false } }

/-- The state with the given words, and no others, on offer. -/
def State.withPort (s : State) (ws : List Word) : State :=
  { s with port := ws.map (fun w => { tick := 0, word := w }) }

end Sys2Proof.Machine
end

