-- ==== Sys2Proof/Machine/Step.lean ====
section
/-! DEFINITION. The step of the machine: one tick of one microsecond (spec/00_scope.md R15), in which any number of host
operations on offer may be accepted (spec/30_encoding.md R102). -/

namespace Sys2Proof.Machine

/-- One tick of the block. -/
def step (s : State) : Host.Outcome State Fault Refusal := tickWith exec s

/-- The state whose next tick accepts exactly the instruction with the given bits (assumption 6). -/
def State.withFetchWord (s : State) (nbits w : Nat) : State := s.readyToAccept.withPort (layoutWords nbits w)

end Sys2Proof.Machine
end

