-- ==== Sys2Proof/Safety.lean ====
section
/-! DEFINITION. What counts as a sound state of the block, in the terms the claims use: the invariant of the reachable
states, the bytes a buffer holds as a queue, and the part of a state that the host can tell apart. -/

namespace Sys2Proof.Machine

/-! ## Buffers as queues -/

/-- The bytes appended and not yet read, oldest first (R63, R65). -/
def Buffer.contents (cap : Nat) (b : Buffer) : List Byte :=
  (List.range (b.occupancy cap)).map (fun n => b.storage.read ((b.head + n) % cap))

/-- The buffer an append leaves behind: flag set when full, else one cell and `tail` written. -/
def Buffer.appended (cap : Nat) (b : Buffer) (v : Byte) : Buffer :=
  if b.isFull cap then { b with overflowFlag := true }
  else { b with storage := b.storage.write b.tail v, tail := nextPos cap b.tail }

/-- Both indices in range and the storage in canonical form within the storage positions (R27 to R31). -/
abbrev Buffer.wf (cap : Nat) (b : Buffer) : Prop := b.head < cap ∧ b.tail < cap ∧ b.storage.wf cap

/-! ## The invariant -/

/-- The receive sequencer is running for instance `i`. -/
def State.sampling (s : State) (i : Nat) : Bool := s.isr.busy && decide (s.isr.inst = i)

/-- The transmit sequencer is sending on instance `i`. -/
def State.sending (s : State) (i : Nat) : Bool := s.tx.busy && decide (s.tx.inst = i)

/-- The level the transmit pin of an active instance is driven to: that of the last frame index written while a PUT is
in progress on it, else idle (R224, R225). -/
def State.lineLevel (s : State) (i : Nat) : Level :=
  if s.sending i then frameLevel s.tx.byte (s.tx.j - 1) else idleLevel

/-- What holds of every reachable state. -/
structure SoundState (s : State) : Prop where
  /-- The parameters meet R6, R7 and R9. -/
  cfg_wf : s.cfg.wf = true
  /-- The table has `N_INST` slots (R20). -/
  table_length : s.slots.length = s.cfg.nInst
  /-- R31, and the storage is canonical. -/
  buffers_wf : ∀ i, i < s.cfg.nInst → (s.buf i).wf s.cfg.bufCap
  /-- An instance is armed exactly while it is active and not sampling (R34, R193). -/
  armed_iff : ∀ i, i < s.cfg.nInst → (s.rx i).attached = (s.isActive i && !s.sampling i)
  /-- A pending bit is never set on a detached instance (R36). -/
  pending_attached : ∀ i, i < s.cfg.nInst → (s.rx i).pend = true → (s.rx i).attached = true
  /-- The bit period of an active instance is that of its rate (R24). -/
  period_of_rate : ∀ i, i < s.cfg.nInst → s.isActive i = true →
    (s.inst i).bitPeriod = bitPeriodReg (s.inst i).baudRate
  /-- The two pins of an active instance differ (R21). -/
  pins_differ : ∀ i, i < s.cfg.nInst → s.isActive i = true → (s.inst i).rxPin ≠ (s.inst i).txPin
  /-- No two active instances share a pin (R21, R157). -/
  pins_disjoint : ∀ i, i < s.cfg.nInst → ∀ j, j < s.cfg.nInst → i ≠ j →
    s.isActive i = true → s.isActive j = true → s.sharesPin j (s.inst i).rxPin (s.inst i).txPin = false
  /-- The receive pin of an active instance is an input with pull-up (R158). -/
  rx_pin_input : ∀ i, i < s.cfg.nInst → s.isActive i = true →
    (s.pin (s.inst i).rxPin).dir = .input ∧ (s.pin (s.inst i).rxPin).pullUp = true
  /-- The transmit pin of an active instance is an output with pull-up, driven to the line's level (R158, R225). -/
  tx_pin_output : ∀ i, i < s.cfg.nInst → s.isActive i = true →
    (s.pin (s.inst i).txPin).dir = .output ∧ (s.pin (s.inst i).txPin).pullUp = true ∧
      (s.pin (s.inst i).txPin).out = s.lineLevel i
  /-- A run in progress is for an active instance, began in the past and has taken at most eight samples, none of them
  early (R33, R187). -/
  run_position : s.isr.busy = true →
    s.isr.inst < s.cfg.nInst ∧ s.isActive s.isr.inst = true ∧ s.isr.k ≤ 8 ∧ s.isr.ts ≤ s.now ∧
      (0 < s.isr.k → s.isr.ts + sampleOffset s.cfg s.runPeriod (s.isr.k - 1) ≤ s.now)
  /-- Between ticks no action of a run is overdue: the interrupt context is never held up (R137, R290). -/
  run_not_late : s.sampleDue = false ∧ s.endDue = false
  /-- A PUT in progress is for an active instance, at frame index 1 to 10, with no pin write early (R35, R138). -/
  put_position : s.tx.busy = true →
    s.tx.inst < s.cfg.nInst ∧ s.isActive s.tx.inst = true ∧ 1 ≤ s.tx.j ∧ s.tx.j ≤ 10 ∧
      s.tx.t0 + s.txPeriod * (s.tx.j - 1) ≤ s.now
  /-- The tables of pins and levels are canonical. -/
  pins_wf : tableWf PinState.unconfigured 256 s.pins
  level_wf : tableWf idleLevel 256 s.level
  prev_wf : tableWf idleLevel 256 s.prev

/-! ## What the host can tell apart -/

/-- A slot with the contents of its storage left out. -/
def Slot.blind (x : Slot) : Slot := { x with buf := { x.buf with storage := [] } }

/-- A state with the contents of every storage left out. -/
def State.blind (s : State) : State := { s with slots := s.slots.map Slot.blind }

/-- Two states that differ at most in storage cells outside the occupied ranges (R70, U6). -/
def sameButStale (s t : State) : Prop :=
  s.blind = t.blind ∧ ∀ i, i < s.cfg.nInst → (s.buf i).contents s.cfg.bufCap = (t.buf i).contents t.cfg.bufCap

/-! ## What an operation leaves alone -/

/-- `t` is `s` but for the contents of the instance table, the pins, `tx` and the responses: what no host operation
writes (R297). -/
structure ExecFrame (s t : State) : Prop where
  cfg : t.cfg = s.cfg
  now : t.now = s.now
  fresh : t.fresh = s.fresh
  prev : t.prev = s.prev
  level : t.level = s.level
  isr : t.isr = s.isr
  port : t.port = s.port
  changes : t.changes = s.changes
  wires : t.wires = s.wires
  slots_length : t.slots.length = s.slots.length

/-- The instance index operand, the only way an operation names an instance (R20, R60). -/
def indexOf : Instr → Index
  | .openInst idx _ _ _ => idx
  | .closeInst idx => idx
  | .isActive idx => idx
  | .put idx _ => idx
  | .puts idx _ => idx
  | .avail idx => idx
  | .read idx => idx
  | .ovf idx => idx
  | .ovfclr idx => idx

/-! ## Runs and outcomes -/

/-- `n` ticks, stopping at the first that has no next state: `Host.Core.run` of the machine. -/
def ticks : Nat → State → Host.Outcome State Fault Refusal
  | 0, s => .next s
  | n + 1, s => andThen (step s) (ticks n)

/-- The next state of an outcome, if it has one. -/
def nextState? (o : Host.Outcome State Fault Refusal) : Option State :=
  match o with
  | .next s => some s
  | .fault _ => none
  | .refused _ => none

end Sys2Proof.Machine
end

