-- ==== Sys2Proof/Certificates/Slice0/Obligations.lean ====
section
/-! DEFINITION. The statements for the provers, in the order of the spec's files: the command port, the registry, the
receive buffer, the timing calculator, the receive sequencer, the transmit sequencer, reset, and the whole machine. -/

open Sys2Proof Sys2Proof.Machine

/-! ## The command port (spec/30_encoding.md) -/

/-- Every operand of every well-formed operation survives encoding and decoding, whatever words follow it
(R91, R92, R94 to R96). -/
def Obligations.DecodeAfterEncodeGivesInstruction : Prop :=
  ∀ (i : Instr) (rest : List Word), i.wellFormed = true → decode (encode i ++ rest) = .op i rest

/-- A word that decodes is, bit for bit, the first word of what it decodes to; payload words give their low eight bits
and the operation is as long as R95 says. -/
def Obligations.DecodedWordIsItsEncoding : Prop :=
  ∀ (w : Word) (ws rest : List Word) (i : Instr), decode (w :: ws) = .op i rest →
    encodeHeader i = w ∧ i.wellFormed = true ∧ ws = ws.take (wordLength i - 1) ++ rest ∧
      encodePayload i = (ws.take (wordLength i - 1)).map (fun v => (payByte v).setWidth 64)

/-- The decoder reads a first word as the mask and match columns of the opcode map say, and calls it illegal exactly when
no row matches (R96, R97). -/
def Obligations.HeaderDecodesByMaskAndMatch : Prop :=
  ∀ w : Word,
    (∀ o : Op, decodeHeader w = .ok o ↔ w &&& opMask o = opMatch o) ∧
    ((∃ why, decodeHeader w = .error why) ↔ ∀ o : Op, w &&& opMask o ≠ opMatch o)

/-- The worked encodings of R101, decoded and encoded, with its two illegal words. -/
def Obligations.WorkedEncodings : Prop :=
  (encode (.openInst 0#8 9600#32 5#8 4#8) = [0x1000050400002580#64] ∧
    decode [0x1000050400002580#64] = .op (.openInst 0#8 9600#32 5#8 4#8) []) ∧
  (encode (.closeInst 3#8) = [0x2003000000000000#64] ∧ decode [0x2003000000000000#64] = .op (.closeInst 3#8) []) ∧
  (encode (.isActive 1#8) = [0x3001000000000000#64] ∧ decode [0x3001000000000000#64] = .op (.isActive 1#8) []) ∧
  (encode (.put 0#8 0x41#8) = [0x4000000000000041#64] ∧ decode [0x4000000000000041#64] = .op (.put 0#8 0x41#8) []) ∧
  (encode (.puts 2#8 [0x48#8, 0x69#8]) = [0x5002000000000002#64, 0x48#64, 0x69#64] ∧
    decode [0x5002000000000002#64, 0x48#64, 0x69#64] = .op (.puts 2#8 [0x48#8, 0x69#8]) []) ∧
  (encode (.avail 0#8) = [0x6000000000000000#64] ∧ decode [0x6000000000000000#64] = .op (.avail 0#8) []) ∧
  (encode (.read 1#8) = [0x7001000000000000#64] ∧ decode [0x7001000000000000#64] = .op (.read 1#8) []) ∧
  (encode (.ovf 0#8) = [0x8000000000000000#64] ∧ decode [0x8000000000000000#64] = .op (.ovf 0#8) []) ∧
  (encode (.ovfclr 0#8) = [0x9000000000000000#64] ∧ decode [0x9000000000000000#64] = .op (.ovfclr 0#8) []) ∧
  decode [0x2003000000000001#64] = .illegal .operandField [] ∧ decode [0#64] = .illegal .reservedOp []

/-- An illegal word at the head of the port is taken, one word long, writes no state and gets response 0; then the port
is looked at again (R95, R97, R292). -/
def Obligations.IllegalWordAnswersZero : Prop :=
  ∀ (s : State) (w : Word) (ws : List Word), s.tx.busy = false → s.offered = w :: ws →
    (∀ o : Op, w &&& opMask o ≠ opMatch o) →
    acceptAll exec s =
      acceptAll exec { s with port := s.port.drop 1, responses := s.responses ++ [{ tick := s.now, word := 0#32 }] }

/-- A tick in which the normal context is neither held nor busy runs the operation its decoder reads, at the state the
earlier parts of the tick leave, its words taken from the port; then it looks at the port again.  Where those words were
all the port held, the tick is that operation (R15, R102, R292). -/
def Obligations.StepRunsTheDecodedInstruction : Prop :=
  ∀ (s : State) (i : Instr) (rest : List Word),
    s.interruptPart.held = false → s.beforeAccept.tx.busy = false → decode s.beforeAccept.offered = .op i rest →
    step s = andThen (exec i (s.beforeAccept.takeWords (wordLength i))) (acceptAll exec) ∧
    (s.beforeAccept.port.length = wordLength i →
      step s = exec i (s.beforeAccept.takeWords (wordLength i)))

/-- The model's choice of assumption 6: a placed instruction is the one the next tick runs, at a state that has passed
only the input part of the tick. -/
def Obligations.PlacedWordRunsInTheNextTick : Prop :=
  ∀ (s : State) (nbits w : Nat) (i : Instr), decodeTableWord nbits w = some i →
    step (s.withFetchWord nbits w) = exec i ((s.withFetchWord nbits w).sampleInputs.takeWords (wordLength i))

/-- An operation answers once, in the tick it completes: every operation but a PUT or PUTS that goes on completes in
the tick of acceptance with one response, and one that goes on has issued none (R90, R93). -/
def Obligations.OperationIssuesOneResponse : Prop :=
  ∀ (i : Instr) (s t : State), s.tx.busy = false → exec i s = .next t →
    (t.tx.busy = false ∧ ∃ v, t.responses = s.responses ++ [{ tick := s.now, word := v }]) ∨
    (t.tx.busy = true ∧ t.responses = s.responses ∧ ((∃ idx b, i = .put idx b) ∨ ∃ idx text, i = .puts idx text))

/-! ## The instance registry (spec/41_instance_registry.md) -/

/-- ISACTIVE answers 1 exactly for an index in range whose rate is not 0, and changes nothing else; after reset it
answers 0, after a successful OPEN of the index 1, after a CLOSE of the index 0 (R150, R152). -/
def Obligations.IsActiveReadsTheRate : Prop :=
  (∀ (idx : Index) (s : State), exec (.isActive idx) s =
    .next (s.respond (if idx.toNat < s.cfg.nInst ∧ (s.inst idx.toNat).baudRate ≠ 0#32 then 1#32 else 0#32))) ∧
  (∀ (idx : Index) (c : Config), exec (.isActive idx) (State.resetOf c) = .next ((State.resetOf c).respond 0#32)) ∧
  (∀ (idx : Index) (baud : Baud) (rx tx : Pin) (s t : State), s.slots.length = s.cfg.nInst →
    s.openFails idx baud rx tx = false → exec (.openInst idx baud rx tx) s = .next t →
    exec (.isActive idx) t = .next (t.respond 1#32)) ∧
  (∀ (idx : Index) (s t : State), s.slots.length = s.cfg.nInst → exec (.closeInst idx) s = .next t →
    exec (.isActive idx) t = .next (t.respond 0#32))

/-- OPEN with an index out of range, a zero rate, two equal pins, or a pin of another active instance answers 0 and
writes no state (R154, R155, R157, R159). -/
def Obligations.OpenFailureWritesNothing : Prop :=
  ∀ (idx : Index) (baud : Baud) (rx tx : Pin) (s : State),
    (s.cfg.nInst ≤ idx.toNat ∨ baud = 0#32 ∨ rx = tx ∨
      ∃ j, j < s.cfg.nInst ∧ j ≠ idx.toNat ∧ (s.inst j).baudRate ≠ 0#32 ∧
        (rx = (s.inst j).rxPin ∨ rx = (s.inst j).txPin ∨ tx = (s.inst j).rxPin ∨ tx = (s.inst j).txPin)) →
    exec (.openInst idx baud rx tx) s = .next (s.respond 0#32)

/-- OPEN where none of its failures applies and no run for the index is in progress: the whole of its effect, and that
nothing else changes (R158; the storage keeps its contents). -/
def Obligations.OpenSuccessConfiguresTheInstance : Prop :=
  ∀ (idx : Index) (baud : Baud) (rx tx : Pin) (s : State), s.slots.length = s.cfg.nInst →
    idx.toNat < s.cfg.nInst → baud ≠ 0#32 → rx ≠ tx →
    (∀ j, j < s.cfg.nInst → j ≠ idx.toNat → (s.inst j).baudRate ≠ 0#32 →
      rx ≠ (s.inst j).rxPin ∧ rx ≠ (s.inst j).txPin ∧ tx ≠ (s.inst j).rxPin ∧ tx ≠ (s.inst j).txPin) →
    s.receivingFor idx = false →
    ∃ t, exec (.openInst idx baud rx tx) s = .next t ∧
      t.inst idx.toNat =
        { rxPin := rx, txPin := tx, baudRate := baud,
          bitPeriod := BitVec.ofNat 32 ((2000000 + baud.toNat) / (2 * baud.toNat)) } ∧
      t.buf idx.toNat = { s.buf idx.toNat with head := 0, tail := 0, overflowFlag := false } ∧
      t.rx idx.toNat = { attached := true, pend := false } ∧
      t.pin rx = { s.pin rx with dir := .input, pullUp := true, pullDown := false } ∧
      t.pin tx = { dir := .output, pullUp := true, pullDown := false, out := true } ∧
      t.responses = s.responses ++ [{ tick := s.now, word := 1#32 }] ∧
      (∀ j, j ≠ idx.toNat → t.slot j = s.slot j) ∧ (∀ p, p ≠ rx → p ≠ tx → t.pin p = s.pin p) ∧
      t.tx = s.tx ∧ ExecFrame s t

/-- Re-opening an active index is CLOSE of it followed by the OPEN, but for the one response less (R160). -/
def Obligations.ReopenIsCloseThenOpen : Prop :=
  ∀ (idx : Index) (baud : Baud) (rx tx : Pin) (s : State), s.slots.length = s.cfg.nInst →
    s.gate idx = true → s.openFails idx baud rx tx = false → s.receivingFor idx = false →
    ∃ c u t, exec (.closeInst idx) s = .next c ∧ exec (.openInst idx baud rx tx) c = .next u ∧
      exec (.openInst idx baud rx tx) s = .next t ∧ { u with responses := [] } = { t with responses := [] } ∧
      t.responses = s.responses ++ [{ tick := s.now, word := 1#32 }] ∧
      u.responses = s.responses ++ [{ tick := s.now, word := 1#32 }, { tick := s.now, word := 1#32 }]

/-- CLOSE answers 0 for an index out of range; otherwise, where no run for the index is in progress, it detaches the
interrupt, marks the instance inactive, answers 1 and leaves everything else alone, the pins and the buffer among it
(R161, R162, R164). -/
def Obligations.CloseDeactivatesTheInstance : Prop :=
  ∀ (idx : Index) (s : State),
    (s.cfg.nInst ≤ idx.toNat → exec (.closeInst idx) s = .next (s.respond 0#32)) ∧
    (s.slots.length = s.cfg.nInst → idx.toNat < s.cfg.nInst → s.receivingFor idx = false →
      ∃ t, exec (.closeInst idx) s = .next t ∧
        t.inst idx.toNat = { s.inst idx.toNat with baudRate := 0#32 } ∧ t.buf idx.toNat = s.buf idx.toNat ∧
        t.rx idx.toNat = { attached := false, pend := false } ∧
        t.responses = s.responses ++ [{ tick := s.now, word := 1#32 }] ∧
        (∀ j, j ≠ idx.toNat → t.slot j = s.slot j) ∧ t.pins = s.pins ∧ t.tx = s.tx ∧ ExecFrame s t)

/-- CLOSE is idempotent: of an inactive instance of a sound state it answers 1 and changes nothing, and a second CLOSE
in a row changes nothing more (R163). -/
def Obligations.CloseTwiceChangesNothingMore : Prop :=
  (∀ (idx : Index) (s : State), SoundState s → idx.toNat < s.cfg.nInst → s.isActive idx.toNat = false →
    exec (.closeInst idx) s = .next (s.respond 1#32)) ∧
  (∀ (idx : Index) (s : State), s.slots.length = s.cfg.nInst → idx.toNat < s.cfg.nInst →
    s.receivingFor idx = false →
    ∃ t, exec (.closeInst idx) s = .next t ∧ exec (.closeInst idx) t = .next (t.respond 1#32))

/-- The one race: CLOSE, or an OPEN that would succeed, of the index whose run is in progress has no next state
(R166, 93_implementation_defined.md U1).  R166 says this of `SINGLE_CORE` false; for `SINGLE_CORE` true, where it says
that the case cannot arise, the fault is the model's reading (assumption 15, DEDUCED). -/
def Obligations.RegistryRaceHasNoNextState : Prop :=
  ∀ (idx : Index) (s : State), s.isr.busy = true → s.isr.inst = idx.toNat →
    (idx.toNat < s.cfg.nInst → exec (.closeInst idx) s = .fault .registryRace) ∧
    (∀ baud rx tx, s.openFails idx baud rx tx = false → exec (.openInst idx baud rx tx) s = .fault .registryRace)

/-- The gate: PUT, PUTS, AVAIL, READ, OVF and OVFCLR of an index out of range or of an inactive instance answer 0 and
write no state (R151, R281). -/
def Obligations.GatedOperationsFailWhenInactive : Prop :=
  ∀ (idx : Index) (s : State), s.cfg.nInst ≤ idx.toNat ∨ (s.inst idx.toNat).baudRate = 0#32 →
    (∀ b, exec (.put idx b) s = .next (s.respond 0#32)) ∧
    (∀ text, exec (.puts idx text) s = .next (s.respond 0#32)) ∧
    exec (.avail idx) s = .next (s.respond 0#32) ∧ exec (.read idx) s = .next (s.respond 0#32) ∧
    exec (.ovf idx) s = .next (s.respond 0#32) ∧ exec (.ovfclr idx) s = .next (s.respond 0#32)

/-! ## The receive buffer (spec/20_memory.md, spec/44_buffer_access.md) -/

/-- Empty, occupancy and full of a buffer with its indices in range, and the occupancy counts the bytes the buffer
holds (R62 to R64). -/
def Obligations.EmptyFullAndOccupancyAgree : Prop :=
  ∀ (cap : Nat) (b : Buffer), 2 ≤ cap → b.head < cap → b.tail < cap →
    b.occupancy cap ≤ cap - 1 ∧ (b.contents cap).length = b.occupancy cap ∧
    (b.isEmpty = true ↔ b.head = b.tail) ∧ (b.isEmpty = true ↔ b.occupancy cap = 0) ∧
    (b.isFull cap = true ↔ b.occupancy cap = cap - 1) ∧
    (b.isFull cap = true ↔ (b.tail + 1) % cap = b.head)

/-- Advancing an index is the `IDX_W`-bit increment with the carry discarded, and the occupancy the `IDX_W`-bit
difference with the borrow discarded (R69). -/
def Obligations.IndexArithmeticIsModular : Prop :=
  ∀ (c : Config) (b : Buffer), c.wf = true → b.head < c.bufCap → b.tail < c.bufCap →
    (BitVec.ofNat c.idxW b.tail + 1).toNat = nextPos c.bufCap b.tail ∧
    (BitVec.ofNat c.idxW b.head + 1).toNat = nextPos c.bufCap b.head ∧
    (BitVec.ofNat c.idxW b.tail - BitVec.ofNat c.idxW b.head).toNat = b.occupancy c.bufCap

/-- The append: into a full buffer it sets the flag and changes nothing else; else it stores the byte at `tail` alone and
advances `tail`, and changes nothing else (R66). -/
def Obligations.AppendStoresAtTailOrDrops : Prop :=
  ∀ (s : State) (i : Nat) (v : Byte), i < s.slots.length →
    ((s.append i v).buf i).head = (s.buf i).head ∧
    (∀ j, j ≠ i → (s.append i v).slot j = s.slot j) ∧ (s.append i v).inst i = s.inst i ∧
    (s.append i v).rx i = s.rx i ∧ { s.append i v with slots := [] } = { s with slots := [] } ∧
    (((s.buf i).tail + 1) % s.cfg.bufCap = (s.buf i).head →
      (s.append i v).buf i = { s.buf i with overflowFlag := true }) ∧
    (((s.buf i).tail + 1) % s.cfg.bufCap ≠ (s.buf i).head →
      (s.append i v).bufRead i (s.buf i).tail = v ∧
      (∀ pos, pos ≠ (s.buf i).tail → (s.append i v).bufRead i pos = s.bufRead i pos) ∧
      ((s.append i v).buf i).tail = ((s.buf i).tail + 1) % s.cfg.bufCap ∧
      ((s.append i v).buf i).overflowFlag = (s.buf i).overflowFlag)

/-- Each buffer is a first-in first-out queue of at most `BUF_CAP - 1` bytes: an append puts its byte last, or drops
exactly that byte and sets the flag where the queue is full; a READ of an active instance answers the oldest byte and
takes it away, or answers 0 where there is none; AVAIL answers the length of the queue, where that fits the response word
(R65 to R68, R250, R252). -/
def Obligations.BufferIsABoundedQueue : Prop :=
  ∀ (s : State) (i : Nat), SoundState s → i < s.cfg.nInst →
    (∀ v : Byte,
      ((s.append i v).buf i).contents s.cfg.bufCap =
        (if ((s.buf i).contents s.cfg.bufCap).length = s.cfg.bufCap - 1 then (s.buf i).contents s.cfg.bufCap
         else (s.buf i).contents s.cfg.bufCap ++ [v]) ∧
      ((s.append i v).buf i).overflowFlag =
        ((s.buf i).overflowFlag || decide (((s.buf i).contents s.cfg.bufCap).length = s.cfg.bufCap - 1))) ∧
    (∀ idx : Index, idx.toNat = i → s.isActive i = true →
      (((s.buf i).contents s.cfg.bufCap).length < 2 ^ 32 →
        exec (.avail idx) s = .next (s.respond (BitVec.ofNat 32 ((s.buf i).contents s.cfg.bufCap).length))) ∧
      match (s.buf i).contents s.cfg.bufCap with
      | [] => exec (.read idx) s = .next (s.respond 0#32)
      | v :: vs => ∃ t, exec (.read idx) s = .next t ∧ (t.buf i).contents s.cfg.bufCap = vs ∧
          t.responses = s.responses ++ [{ tick := s.now, word := v.setWidth 32 }])

/-- AVAIL of an active instance answers `(tail - head + BUF_CAP) mod BUF_CAP`, where that fits the response word, and
writes no state; of any other it answers 0 and writes no state (R250). -/
def Obligations.AvailAnswersTheOccupancy : Prop :=
  ∀ (idx : Index) (s : State),
    (s.gate idx = true → ∃ v, exec (.avail idx) s = .next (s.respond v) ∧
      (((s.buf idx.toNat).tail + s.cfg.bufCap - (s.buf idx.toNat).head) % s.cfg.bufCap < 2 ^ 32 →
        v = BitVec.ofNat 32 (((s.buf idx.toNat).tail + s.cfg.bufCap - (s.buf idx.toNat).head) % s.cfg.bufCap))) ∧
    (s.gate idx = false → exec (.avail idx) s = .next (s.respond 0#32))

/-- READ: 0 and no state written when inactive or empty; else the byte at `head`, zero-extended, and `head` advanced by
one modulo `BUF_CAP`, and nothing else written, the flag and the storage among it (R67, R252). -/
def Obligations.ReadPopsTheByteAtHead : Prop :=
  ∀ (idx : Index) (s : State), s.slots.length = s.cfg.nInst →
    (s.gate idx = false ∨ (s.buf idx.toNat).head = (s.buf idx.toNat).tail →
      exec (.read idx) s = .next (s.respond 0#32)) ∧
    (s.gate idx = true → (s.buf idx.toNat).head ≠ (s.buf idx.toNat).tail →
      ∃ t, exec (.read idx) s = .next t ∧
        t.responses = s.responses ++
          [{ tick := s.now, word := (s.bufRead idx.toNat (s.buf idx.toNat).head).setWidth 32 }] ∧
        t.buf idx.toNat = { s.buf idx.toNat with head := ((s.buf idx.toNat).head + 1) % s.cfg.bufCap } ∧
        t.inst idx.toNat = s.inst idx.toNat ∧ t.rx idx.toNat = s.rx idx.toNat ∧
        (∀ j, j ≠ idx.toNat → t.slot j = s.slot j) ∧ t.pins = s.pins ∧ t.tx = s.tx ∧ ExecFrame s t)

/-- OVF of an active instance answers the flag and writes no state, the flag among it; of any other it answers 0
(R254). -/
def Obligations.OvfAnswersTheFlag : Prop :=
  ∀ (idx : Index) (s : State),
    (s.gate idx = true → exec (.ovf idx) s =
      .next (s.respond (if (s.buf idx.toNat).overflowFlag then 1#32 else 0#32))) ∧
    (s.gate idx = false → exec (.ovf idx) s = .next (s.respond 0#32))

/-- OVFCLR of an active instance clears the flag alone and answers 1; a second one changes nothing more, and an append
to a still full buffer sets the flag again; of any other instance it answers 0 and writes no state (R256). -/
def Obligations.OvfclrClearsTheFlagAlone : Prop :=
  ∀ (idx : Index) (s : State), s.slots.length = s.cfg.nInst →
    (s.gate idx = false → exec (.ovfclr idx) s = .next (s.respond 0#32)) ∧
    (s.gate idx = true →
      ∃ t, exec (.ovfclr idx) s = .next t ∧
        t.responses = s.responses ++ [{ tick := s.now, word := 1#32 }] ∧
        t.buf idx.toNat = { s.buf idx.toNat with overflowFlag := false } ∧
        t.inst idx.toNat = s.inst idx.toNat ∧ t.rx idx.toNat = s.rx idx.toNat ∧
        (∀ j, j ≠ idx.toNat → t.slot j = s.slot j) ∧ t.pins = s.pins ∧ t.tx = s.tx ∧ ExecFrame s t ∧
        exec (.ovfclr idx) t = .next (t.respond 1#32) ∧
        ((t.buf idx.toNat).isFull t.cfg.bufCap = true → ∀ v, ((t.append idx.toNat v).buf idx.toNat).overflowFlag = true))

/-- The flag is sticky: of the host operations only a successful OPEN and an OVFCLR of the index clear it and none sets
it; the interrupt part of a tick never clears it and the transmit sequencer does not touch it (R30, R255). -/
def Obligations.OverflowFlagIsSticky : Prop :=
  (∀ (i : Instr) (s t : State) (j : Nat), exec i s = .next t → (s.buf j).overflowFlag = true →
    (t.buf j).overflowFlag = true ∨
      (indexOf i).toNat = j ∧
        ((∃ idx baud rx tx, i = .openInst idx baud rx tx ∧ s.openFails idx baud rx tx = false) ∨
          ∃ idx, i = .ovfclr idx)) ∧
  (∀ (i : Instr) (s t : State) (j : Nat), exec i s = .next t → (t.buf j).overflowFlag = true →
    (s.buf j).overflowFlag = true) ∧
  (∀ (s : State) (j : Nat), (s.buf j).overflowFlag = true →
    (s.interruptPart.buf j).overflowFlag = true) ∧
  (∀ (s : State) (j : Nat), s.transmitStep.buf j = s.buf j)

/-- No host operation stores a byte: whatever operation runs, every cell of every buffer reads as before
(R27, R61; CLOSE and OPEN keep the storage, R158, R162). -/
def Obligations.OperationsLeaveStorageAlone : Prop :=
  ∀ (i : Instr) (s t : State), exec i s = .next t → ∀ j pos, t.bufRead j pos = s.bufRead j pos

/-- The contents of storage cells outside the occupied ranges are unobservable: two sound states that differ only there
step alike, and the next states differ only there again, so no response, pin or fault ever tells them apart
(R70, 93_implementation_defined.md U3 and U6). -/
def Obligations.StaleStorageIsUnobservable : Prop :=
  ∀ s t : State, SoundState s → SoundState t → sameButStale s t →
    (∀ s', step s = .next s' → ∃ t', step t = .next t' ∧ sameButStale s' t') ∧
    (∀ f, step s = .fault f → step t = .fault f)

/-! ## The timing calculator (spec/40_timing_calculator.md) -/

/-- The bit period is 1 000 000 / baud rounded to nearest with ties up, fits its register, never exceeds 1 000 000, is 1
for 666 667 to 2 000 000 and 0 above; with the worked examples (R131). -/
def Obligations.BitPeriodRoundsToNearest : Prop :=
  (∀ baud : Baud, baud ≠ 0#32 →
    2 * baud.toNat * bitPeriodOf baud ≤ 2000000 + baud.toNat ∧
    2000000 + baud.toNat < 2 * baud.toNat * (bitPeriodOf baud + 1) ∧
    bitPeriodOf baud ≤ 1000000 ∧ (bitPeriodReg baud).toNat = bitPeriodOf baud ∧
    (bitPeriodOf baud = 1 ↔ 666667 ≤ baud.toNat ∧ baud.toNat ≤ 2000000) ∧
    (bitPeriodOf baud = 0 ↔ 2000001 ≤ baud.toNat)) ∧
  bitPeriodOf 1#32 = 1000000 ∧ bitPeriodOf 80000#32 = 13 ∧ bitPeriodOf 9600#32 = 104

/-! ## The receive sequencer (spec/60_exceptions.md, spec/42_receive_engine.md) -/

/-- Steps 1 and 2 of a tick: a pending bit is set exactly by a fall, between the previous tick and this one, on the
receive pin of an attached instance while the interrupt context is idle or `PEND_LATCH` holds, and detection writes
nothing else; the first tick after reset sees no fall (R286, R37). -/
def Obligations.FallingEdgeSetsPending : Prop :=
  ∀ (s : State) (i : Nat),
    s.sampleInputs.detectEdges.inst i = s.inst i ∧ s.sampleInputs.detectEdges.buf i = s.buf i ∧
    (s.sampleInputs.detectEdges.rx i).attached = (s.rx i).attached ∧
    ((s.sampleInputs.detectEdges.rx i).pend = true ↔
      (s.rx i).pend = true ∨
      ((s.rx i).attached = true ∧ s.fresh = false ∧ levelOf s.level (s.inst i).rxPin = true ∧
        levelOf s.nextLevel (s.inst i).rxPin = false ∧ (s.isr.busy = false ∨ s.cfg.pendLatch = true))) ∧
    { s.sampleInputs.detectEdges with slots := [] } = { s.sampleInputs with slots := [] }

/-- Start of a run: with the interrupt context idle, the lowest index that is pending and attached gets its run in this
tick, which detaches its own interrupt, starts at sample 0 with an empty byte, and clears its own pending bit, or all of
them without `PEND_LATCH`; with none, nothing happens.  Stated for a window of positive length; a window of length 0 is
`ZeroWindowRunsFollowInOneTick` (R184, R287, R288). -/
def Obligations.RunStartsForTheLowestPendingIndex : Prop :=
  ∀ s : State, s.slots.length = s.cfg.nInst → s.isr.busy = false →
    ((∀ i, i < s.cfg.nInst → ¬ ((s.rx i).pend = true ∧ (s.rx i).attached = true)) → s.interruptStep = s) ∧
    (∀ i, i < s.cfg.nInst → (s.rx i).pend = true → (s.rx i).attached = true →
      (∀ j, j < i → ¬ ((s.rx j).pend = true ∧ (s.rx j).attached = true)) →
      0 < windowLength s.cfg (s.bitPeriod i) →
      s.interruptStep.isr = { busy := true, inst := i, ts := s.now, k := 0, shift := 0#8 } ∧
      s.interruptStep.rx i = { attached := false, pend := false } ∧
      (∀ j, j ≠ i → s.interruptStep.rx j = { s.rx j with pend := (s.rx j).pend && s.cfg.pendLatch }) ∧
      (∀ j, s.interruptStep.buf j = s.buf j ∧ s.interruptStep.inst j = s.inst j) ∧
      { s.interruptStep with slots := [], isr := s.isr } = { s with slots := [] })

/-- A run in progress with a bit period of at least 1 takes sample `k` in tick
`ts + floor(bp / 2) + STARTUP_MARGIN + (k + 1) * bp` and no earlier: the level of the receive pin in that very tick
becomes bit `k` of the byte, the other bits stay, and after sample 7 the byte is appended in the same tick
(R186 to R189). -/
def Obligations.SampleTakenAtItsTick : Prop :=
  ∀ s : State, s.isr.busy = true → s.isr.k < 8 → 0 < s.runPeriod → s.cfg.marginFits s.runPeriod = true →
    ((s.now : Int) < s.isr.ts + ((s.runPeriod / 2 : Nat) : Int) + s.cfg.startupMargin + (s.isr.k + 1) * s.runPeriod →
      s.advanceRun = s) ∧
    ((s.now : Int) = s.isr.ts + ((s.runPeriod / 2 : Nat) : Int) + s.cfg.startupMargin + (s.isr.k + 1) * s.runPeriod →
      ∃ b : Byte,
        (∀ n, n < 8 → b.getLsbD n =
          if n = s.isr.k then levelOf s.level (s.inst s.isr.inst).rxPin else s.isr.shift.getLsbD n) ∧
        (s.isr.k < 7 → s.advanceRun = { s with isr := { s.isr with k := s.isr.k + 1, shift := b } }) ∧
        (s.isr.k = 7 →
          s.advanceRun = { s with isr := { s.isr with k := 8, shift := b } }.append s.isr.inst b))

/-- The end of a run: after the eighth sample nothing happens before tick `ts + cd + 9 * bp`, and in it the instance is
re-armed, nothing is pending for it, and the interrupt context is free; nothing else changes (R190, R192). -/
def Obligations.RunEndsAndReArms : Prop :=
  ∀ s : State, s.isr.busy = true → s.isr.k = 8 → s.isr.inst < s.slots.length →
    (s.now < s.isr.ts + centeringDelay s.cfg s.runPeriod + 9 * s.runPeriod → s.advanceRun = s) ∧
    (s.isr.ts + centeringDelay s.cfg s.runPeriod + 9 * s.runPeriod ≤ s.now →
      s.advanceRun.rx s.isr.inst = { attached := true, pend := false } ∧
      s.advanceRun.isr = { s.isr with busy := false } ∧
      (∀ j, s.advanceRun.inst j = s.inst j ∧ s.advanceRun.buf j = s.buf j) ∧
      (∀ j, j ≠ s.isr.inst → s.advanceRun.rx j = s.rx j) ∧
      { s.advanceRun with slots := [], isr := s.isr } = { s with slots := [] })

/-- A run with a bit period of 0, the rates of 2 000 001 and above: nothing happens before the centering delay is over,
and in the tick in which it is, all samples still to be taken read the one level of that tick, the byte is appended and
the instance re-armed; so a run from its start appends `0xFF` or `0x00`.  The delay is `STARTUP_MARGIN` where that is not
negative (R132, R186 to R192, R198, 93_implementation_defined.md U7). -/
def Obligations.ZeroPeriodRunTakesOneTick : Prop :=
  ∀ s : State, s.isr.busy = true → s.isr.k < 8 → s.isr.inst < s.slots.length → s.runPeriod = 0 →
    (0 ≤ s.cfg.startupMargin → (centeringDelay s.cfg 0 : Int) = s.cfg.startupMargin) ∧
    (s.now < s.isr.ts + centeringDelay s.cfg 0 → s.advanceRun = s) ∧
    (s.isr.ts + centeringDelay s.cfg 0 ≤ s.now →
      ∃ b : Byte,
        (∀ n, n < 8 → b.getLsbD n =
          if n < s.isr.k then s.isr.shift.getLsbD n else levelOf s.level (s.inst s.isr.inst).rxPin) ∧
        (s.isr.k = 0 → b = if levelOf s.level (s.inst s.isr.inst).rxPin then 0xFF#8 else 0x00#8) ∧
        s.advanceRun.isr = { s.isr with busy := false, k := 8, shift := b } ∧
        s.advanceRun.buf s.isr.inst = (s.buf s.isr.inst).appended s.cfg.bufCap b ∧
        s.advanceRun.rx s.isr.inst = { attached := true, pend := false } ∧
        (∀ j, s.advanceRun.inst j = s.inst j) ∧ (∀ j, j ≠ s.isr.inst → s.advanceRun.slot j = s.slot j) ∧
        { s.advanceRun with slots := [], isr := s.isr } = { s with slots := [] })

/-- A run whose window has length 0, a bit period and a centering delay of 0: with the interrupt context idle, the run
for the lowest index that is pending and attached starts, samples, appends and ends in this tick, and then the rule for
starting a run is applied again in the same tick, to the state it leaves: with the other indices still pending, or none
of them without `PEND_LATCH` (R184, R192, R198, R287, R288). -/
def Obligations.ZeroWindowRunsFollowInOneTick : Prop :=
  ∀ (s : State) (i : Nat), s.slots.length = s.cfg.nInst → s.isr.busy = false → i < s.cfg.nInst →
    (s.rx i).pend = true → (s.rx i).attached = true →
    (∀ j, j < i → ¬ ((s.rx j).pend = true ∧ (s.rx j).attached = true)) →
    windowLength s.cfg (s.bitPeriod i) = 0 →
    ∃ (b : Byte) (u : State), (b = if levelOf s.level (s.inst i).rxPin then 0xFF#8 else 0x00#8) ∧
      u.isr = { busy := false, inst := i, ts := s.now, k := 8, shift := b } ∧
      u.buf i = (s.buf i).appended s.cfg.bufCap b ∧ u.rx i = { attached := true, pend := false } ∧
      (∀ j, j ≠ i → u.buf j = s.buf j ∧ u.rx j = { s.rx j with pend := (s.rx j).pend && s.cfg.pendLatch }) ∧
      (∀ j, u.inst j = s.inst j) ∧ u.slots.length = s.slots.length ∧
      { u with slots := [], isr := s.isr } = { s with slots := [] } ∧
      s.interruptStep = u.interruptStep

/-- Throughout the sampling window the instance is detached and a fall on its line leaves no trace: until the tick before
the window's end the run goes on for the same instance, not attached and not pending (R181, R193). -/
def Obligations.LineIsNotWatchedInTheWindow : Prop :=
  ∀ s t : State, SoundState s → s.isr.busy = true →
    s.now + 1 < s.isr.ts + windowLength s.cfg s.runPeriod → step s = .next t →
    t.isr.busy = true ∧ t.isr.inst = s.isr.inst ∧ t.isr.ts = s.isr.ts ∧
      t.rx s.isr.inst = { attached := false, pend := false } ∧ t.inst s.isr.inst = s.inst s.isr.inst

/-- A whole run: from the tick it starts in, through any ticks and any operations the block accepts meanwhile, the byte
appended with the eighth sample has as bit `k` the level of the receive pin in the tick of sample `k` (R186 to R189,
R198). -/
def Obligations.RunAppendsTheSampledByte : Prop :=
  ∀ s v : State, SoundState s → s.isr.busy = true → s.isr.ts = s.now → s.isr.k = 0 → 0 < s.runPeriod →
    ticks (sampleOffset s.cfg s.runPeriod 7 - 1) s = .next v →
    ∃ b : Byte,
      v.interruptPart.buf s.isr.inst = (v.buf s.isr.inst).appended s.cfg.bufCap b ∧
      levelOf v.nextLevel (s.inst s.isr.inst).rxPin = b.getLsbD 7 ∧
      ∀ k, k < 7 → ∃ u : State,
        ticks (sampleOffset s.cfg s.runPeriod k) s = .next u ∧
        levelOf u.level (s.inst s.isr.inst).rxPin = b.getLsbD k

/-- What a tick's interrupt part writes: never the configuration, `head`, the transmit sequencer, a pin or a response;
and in a sound state the bytes waiting in a buffer stay, new ones only behind them (R61, R66, R297). -/
def Obligations.InterruptPartOnlyProduces : Prop :=
  ∀ (s : State) (i : Nat),
    s.interruptPart.inst i = s.inst i ∧ (s.interruptPart.buf i).head = (s.buf i).head ∧
    s.interruptPart.tx = s.tx ∧ s.interruptPart.pins = s.pins ∧ s.interruptPart.responses = s.responses ∧
    s.interruptPart.port = s.port ∧
    (SoundState s → i < s.cfg.nInst →
      ∃ new, (s.interruptPart.buf i).contents s.cfg.bufCap = (s.buf i).contents s.cfg.bufCap ++ new)

/-! ## The transmit sequencer (spec/43_transmit_engine.md) -/

/-- PUT on an active instance with a bit period of at least 1: it begins in this tick, drives the start bit on the
transmit pin, answers nothing yet, and writes nothing else (R222, R223). -/
def Obligations.PutDrivesTheStartBit : Prop :=
  ∀ (idx : Index) (b : Byte) (s : State), s.gate idx = true → 0 < s.bitPeriod idx.toNat →
    ∃ t, exec (.put idx b) s = .next t ∧
      t.tx = { busy := true, inst := idx.toNat, byte := b, t0 := s.now, j := 1, rest := [] } ∧
      t.pin (s.inst idx.toNat).txPin = { s.pin (s.inst idx.toNat).txPin with out := false } ∧
      (∀ p, p ≠ (s.inst idx.toNat).txPin → t.pin p = s.pin p) ∧
      t.slots = s.slots ∧ t.responses = s.responses ∧ ExecFrame s t

/-- PUT and PUTS on an active instance with a bit period of 0: the whole of every frame and the return fall in the tick
of acceptance, the response is 1, and the level left on the pin is 1 where a byte was sent; an empty PUTS on an active
instance answers 1 at once, whatever the bit period, and drives nothing (R132, R228, R235). -/
def Obligations.ZeroPeriodSendsInOneTick : Prop :=
  ∀ (idx : Index) (s : State), s.gate idx = true →
    exec (.puts idx []) s = .next (s.respond 1#32) ∧
    (s.bitPeriod idx.toNat = 0 → ∀ (i : Instr) (b : Byte) (bs : List Byte),
      i = .put idx b ∨ i = .puts idx (b :: bs) →
      ∃ t, exec i s = .next t ∧ t.tx.busy = false ∧
        t.pin (s.inst idx.toNat).txPin = { s.pin (s.inst idx.toNat).txPin with out := true } ∧
        (∀ p, p ≠ (s.inst idx.toNat).txPin → t.pin p = s.pin p) ∧ t.slots = s.slots ∧
        t.responses = s.responses ++ [{ tick := s.now, word := 1#32 }] ∧ ExecFrame s t)

/-- PUTS of at least one byte on an active instance with a bit period of at least 1 begins the PUT of its first byte in
this tick, with the other bytes still to be sent in order, and writes nothing else (R234, R235). -/
def Obligations.PutsBeginsWithItsFirstByte : Prop :=
  ∀ (idx : Index) (b : Byte) (bs : List Byte) (s : State), s.gate idx = true → 0 < s.bitPeriod idx.toNat →
    ∃ t, exec (.puts idx (b :: bs)) s = .next t ∧
      t.tx = { busy := true, inst := idx.toNat, byte := b, t0 := s.now, j := 1, rest := bs } ∧
      t.pin (s.inst idx.toNat).txPin = { s.pin (s.inst idx.toNat).txPin with out := false } ∧
      (∀ p, p ≠ (s.inst idx.toNat).txPin → t.pin p = s.pin p) ∧
      t.slots = s.slots ∧ t.responses = s.responses ∧ ExecFrame s t

/-- The transmit actions of a tick before the return is due, whether the tick before was held up or not: the pin carries
the frame level of the bit-time the elapsed time falls in, the stop level from bit-time 9 on, and the frame index is the
one after it (R138, R224, R229, R232; the frame of R110). -/
def Obligations.TransmitPinFollowsElapsedTime : Prop :=
  ∀ s : State, s.tx.busy = true → 0 < s.txPeriod → 1 ≤ s.tx.j → s.tx.j ≤ 10 →
    s.tx.t0 + s.txPeriod * (s.tx.j - 1) ≤ s.now →
    (s.pin (s.inst s.tx.inst).txPin).out = frameLevel s.tx.byte (s.tx.j - 1) →
    s.now < s.tx.t0 + s.txPeriod * (9 + s.cfg.settleBits) →
    s.transmitStep.tx = { s.tx with j := min 9 ((s.now - s.tx.t0) / s.txPeriod) + 1 } ∧
    s.transmitStep.pin (s.inst s.tx.inst).txPin =
      { s.pin (s.inst s.tx.inst).txPin with
        out := [false, s.tx.byte.getLsbD 0, s.tx.byte.getLsbD 1, s.tx.byte.getLsbD 2, s.tx.byte.getLsbD 3,
          s.tx.byte.getLsbD 4, s.tx.byte.getLsbD 5, s.tx.byte.getLsbD 6, s.tx.byte.getLsbD 7,
          true].getD (min 9 ((s.now - s.tx.t0) / s.txPeriod)) true } ∧
    (∀ p, p ≠ (s.inst s.tx.inst).txPin → s.transmitStep.pin p = s.pin p) ∧
    s.transmitStep.slots = s.slots ∧ s.transmitStep.responses = s.responses ∧ ExecFrame s s.transmitStep

/-- The return of a PUT in the first tick, among those in which the normal context takes a step, at or after
`t0 + bp * (9 + SETTLE_BITS)`.  With no byte left the operation answers 1 with the line high.  With a byte left on an
active instance its PUT begins in the same tick.  With a byte left on an inactive instance, which no run of the block
reaches, the operation stops with response 0 and the bytes after are not sent.  In every case the other pins, the
instance table and what no operation writes stay as they were (R222, R226, R234, R235, R236). -/
def Obligations.PutReturnsAndNextByteBegins : Prop :=
  ∀ s : State, s.tx.busy = true → 0 < s.txPeriod → 1 ≤ s.tx.j → s.tx.j ≤ 10 → 1 ≤ s.cfg.settleBits →
    (s.tx.j = 10 → (s.pin (s.inst s.tx.inst).txPin).out = true) →
    s.tx.t0 + s.txPeriod * (9 + s.cfg.settleBits) ≤ s.now →
    (s.tx.rest = [] →
      s.transmitStep.tx.busy = false ∧
      s.transmitStep.pin (s.inst s.tx.inst).txPin = { s.pin (s.inst s.tx.inst).txPin with out := true } ∧
      s.transmitStep.responses = s.responses ++ [{ tick := s.now, word := 1#32 }]) ∧
    (∀ b bs, s.tx.rest = b :: bs → s.isActive s.tx.inst = true →
      s.transmitStep.tx = { busy := true, inst := s.tx.inst, byte := b, t0 := s.now, j := 1, rest := bs } ∧
      s.transmitStep.pin (s.inst s.tx.inst).txPin = { s.pin (s.inst s.tx.inst).txPin with out := false } ∧
      s.transmitStep.responses = s.responses) ∧
    (∀ b bs, s.tx.rest = b :: bs → s.isActive s.tx.inst = false →
      s.transmitStep.tx.busy = false ∧
      s.transmitStep.pin (s.inst s.tx.inst).txPin = { s.pin (s.inst s.tx.inst).txPin with out := true } ∧
      s.transmitStep.responses = s.responses ++ [{ tick := s.now, word := 0#32 }]) ∧
    (∀ p, p ≠ (s.inst s.tx.inst).txPin → s.transmitStep.pin p = s.pin p) ∧
    s.transmitStep.slots = s.slots ∧ ExecFrame s s.transmitStep

/-- With `SINGLE_CORE`, a tick that ends its interrupt part with a run in progress performs no transmit action, accepts no
word and answers nothing: the transmit pin keeps its level and the words stay on offer (R15, R102, R232). -/
def Obligations.RunHoldsTheNormalContext : Prop :=
  ∀ s : State, s.cfg.singleCore = true → s.interruptPart.isr.busy = true →
    ∃ t, step s = .next t ∧ t.tx = s.tx ∧ t.pins = s.pins ∧ t.port = s.port ∧ t.responses = s.responses ∧
      ∀ i, t.inst i = s.inst i ∧ (t.buf i).head = (s.buf i).head

/-- While an operation is being sent the block accepts no other: a tick whose transmit step leaves the PUT or PUTS in
progress is over after that step, with every word still on offer and nothing answered (R102, R220, R235, R292). -/
def Obligations.BusyTransmitterAcceptsNothing : Prop :=
  ∀ s : State, s.beforeAccept.tx.busy = true →
    step s = .next s.beforeAccept ∧ s.beforeAccept.port = s.port ∧ s.beforeAccept.responses = s.responses

/-- The undisturbed frame, tick by tick: without `SINGLE_CORE`, from a PUT that begins in this tick, after `n` ticks the
pin carries the frame level of bit-time `n / bp`, the stop level from bit-time 9 on, and no word is accepted and nothing
answered before `n = bp * (9 + SETTLE_BITS)`, where the first answer given is the response 1 of the PUT (R228, R229, R236). -/
def Obligations.UndisturbedFrameOnTheWire : Prop :=
  ∀ s : State, SoundState s → s.cfg.singleCore = false → s.tx.busy = true → s.tx.t0 = s.now → s.tx.j = 1 →
    s.tx.rest = [] → 0 < s.txPeriod →
    (∀ n, n < s.txPeriod * (9 + s.cfg.settleBits) →
      ∃ u : State, ticks n s = .next u ∧ u.tx.busy = true ∧ u.port = s.port ∧ u.responses = s.responses ∧
        u.out (s.inst s.tx.inst).txPin = some (frameLevel s.tx.byte (min 9 (n / s.txPeriod)))) ∧
    (∀ u : State, ticks (s.txPeriod * (9 + s.cfg.settleBits)) s = .next u →
      ∃ more, u.responses =
        s.responses ++ { tick := s.now + s.txPeriod * (9 + s.cfg.settleBits), word := 1#32 } :: more)

/-- Round trip in one block without `SINGLE_CORE`: the transmit pin of an instance `A` wired to the receive pin of an armed
instance `B` with the same bit period, the line high, nothing pending, no other input and no operation on offer.  When
the PUT of a byte has just begun on `A`, then in the tick of the eighth sample `B` holds exactly that byte behind the
ones it held, and the flag is as it was (R237 and the source's property S4). -/
def Obligations.LoopBackDeliversTheByteSent : Prop :=
  ∀ (s : State) (b : Nat), SoundState s → s.cfg.singleCore = false → s.tx.busy = true → s.tx.t0 = s.now → s.tx.j = 1 →
    0 < s.txPeriod → b < s.cfg.nInst → s.isActive b = true → s.bitPeriod b = s.txPeriod →
    centeringDelay s.cfg s.txPeriod < s.txPeriod → s.isr.busy = false →
    (∀ i, i < s.cfg.nInst → (s.rx i).pend = false) → s.fresh = false → s.changes = [] → s.port = [] →
    s.wires = [{ source := (s.inst s.tx.inst).txPin, sink := (s.inst b).rxPin }] →
    levelOf s.level (s.inst b).rxPin = true → (s.buf b).occupancy s.cfg.bufCap < s.cfg.bufCap - 1 →
    ∃ u : State, ticks (1 + sampleOffset s.cfg s.txPeriod 7) s = .next u ∧
      (u.buf b).contents s.cfg.bufCap = (s.buf b).contents s.cfg.bufCap ++ [s.tx.byte] ∧
      (u.buf b).overflowFlag = (s.buf b).overflowFlag

/-! ## Reset (spec/10_state.md R45, spec/70_reset_and_hazards.md) -/

/-- What the spec states of the state after reset, for any parameters: every instance inactive with an empty buffer and a
clear flag, nothing attached or pending, both contexts idle, every pin unconfigured; and the first tick after it, with no
word on offer, sees no edge and starts nothing (R45, R331, R37). -/
def Obligations.ResetLeavesTheBlockIdle : Prop :=
  ∀ c : Config,
    (State.resetOf c).slots.length = c.nInst ∧
    (∀ i, ((State.resetOf c).inst i).baudRate = 0#32 ∧ ((State.resetOf c).buf i).head = 0 ∧
      ((State.resetOf c).buf i).tail = 0 ∧ ((State.resetOf c).buf i).overflowFlag = false ∧
      (State.resetOf c).rx i = { attached := false, pend := false }) ∧
    (State.resetOf c).isr.busy = false ∧ (State.resetOf c).tx.busy = false ∧
    (∀ p, ((State.resetOf c).pin p).dir = .unconfigured ∧ (State.resetOf c).out p = none) ∧
    ∃ t, step (State.resetOf c) = .next t ∧ t.slots = (State.resetOf c).slots ∧ t.isr.busy = false ∧ t.responses = []

/-- Every operation is well defined on the state after reset: the gated ones and ISACTIVE answer 0, CLOSE answers 1 for
an index in range and 0 otherwise, and OPEN answers 1 exactly for an index in range, a rate not 0 and two different pins
(R331, R334). -/
def Obligations.OperationsOnTheResetState : Prop :=
  ∀ (c : Config) (idx : Index),
    (∀ i ∈ [Instr.isActive idx, Instr.avail idx, Instr.read idx, Instr.ovf idx, Instr.ovfclr idx],
      exec i (State.resetOf c) = .next ((State.resetOf c).respond 0#32)) ∧
    (∀ b, exec (.put idx b) (State.resetOf c) = .next ((State.resetOf c).respond 0#32)) ∧
    (∀ text, exec (.puts idx text) (State.resetOf c) = .next ((State.resetOf c).respond 0#32)) ∧
    (∃ t, exec (.closeInst idx) (State.resetOf c) = .next t ∧
      t.responses = [Response.mk (State.resetOf c).now (if idx.toNat < c.nInst then 1#32 else 0#32)]) ∧
    (∀ baud rx tx, ∃ t, exec (.openInst idx baud rx tx) (State.resetOf c) = .next t ∧
      t.responses = [Response.mk (State.resetOf c).now
        (if idx.toNat < c.nInst ∧ baud ≠ 0#32 ∧ rx ≠ tx then 1#32 else 0#32)])

/-- The reset event striking a running block leaves it in the state of reset as far as the spec states it: every instance
inactive with an empty buffer and a clear flag, nothing attached or pending, both contexts idle, every pin unconfigured
and none driven by the block, no response issued; the result is sound (R45, R330 to R332; that the event keeps the words
on offer is the model's choice of assumption 19). -/
def Obligations.RestartResetsTheBlock : Prop :=
  ∀ s : State,
    s.restart.slots.length = s.cfg.nInst ∧
    (∀ i, (s.restart.inst i).baudRate = 0#32 ∧ (s.restart.buf i).head = 0 ∧ (s.restart.buf i).tail = 0 ∧
      (s.restart.buf i).overflowFlag = false ∧ s.restart.rx i = { attached := false, pend := false }) ∧
    s.restart.isr.busy = false ∧ s.restart.tx.busy = false ∧ s.restart.fresh = true ∧
    (∀ p, (s.restart.pin p).dir = .unconfigured ∧ s.restart.out p = none) ∧
    s.restart.responses = s.responses ∧ s.restart.port = s.port ∧ (SoundState s → SoundState s.restart)

/-! ## The whole machine -/

/-- The state after reset of any block whose parameters meet R6, R7 and R9 is sound. -/
def Obligations.ResetStateIsSound : Prop := ∀ c : Config, c.wf = true → SoundState (State.resetOf c)

/-- A tick keeps every clause of the invariant: indices in range and canonical tables (R31), an instance armed exactly
while it is active and not sampling (R34, R193), no pending bit on a detached instance (R36), the bit period of the rate
(R24), all pins of active instances distinct (R21), receive pins inputs and transmit pins outputs at the level of the
last frame index (R158, R225), and both sequencers never early and the receive one never late (R33, R35, R137, R138). -/
def Obligations.StepKeepsSoundStates : Prop := ∀ s t : State, SoundState s → step s = .next t → SoundState t

/-- The block raises nothing: no operation is refused, a tick of a block with `SINGLE_CORE` always has a next state, and
without it the only stop is the registry race during a run (R166, R280). -/
def Obligations.OnlyTheRegistryRaceStops : Prop :=
  ∀ s : State, (∀ r, step s ≠ .refused r) ∧
    (s.cfg.singleCore = true → ∃ t, step s = .next t) ∧
    (∀ f, step s = .fault f → s.cfg.singleCore = false ∧ s.interruptPart.isr.busy = true)

/-- Time and inputs: a tick advances `now` by one, whatever it does; the levels of the next state are those the
environment supplies for it, where a wire carries what its source pin was driven to in the tick before, the last of the
due changes of a pin gives its level, and any other pin keeps its level; the changes not yet due stay (R15, R39, R41; the
form of the environment is the model's choice of assumptions 3 and 4). -/
def Obligations.TickAdvancesTimeAndInputs : Prop :=
  ∀ s t : State, step s = .next t →
    t.now = s.now + 1 ∧ t.cfg = s.cfg ∧ t.wires = s.wires ∧ t.fresh = false ∧
    t.prev = (if s.fresh then t.level else s.level) ∧
    ((s.wires.map (·.sink)).Nodup → ∀ w ∈ s.wires, levelOf t.level w.sink = (s.out w.source).getD true) ∧
    (∀ p, (∀ w ∈ s.wires, w.sink ≠ p) → (∀ c ∈ s.changes, c.tick ≤ s.now + 1 → c.pin ≠ p) →
      levelOf t.level p = levelOf s.level p) ∧
    (∀ before c after, s.changes = before ++ c :: after → c.tick ≤ s.now + 1 →
      (∀ d ∈ after, d.tick ≤ s.now + 1 → d.pin ≠ c.pin) → (∀ w ∈ s.wires, w.sink ≠ c.pin) →
      levelOf t.level c.pin = c.level) ∧
    t.changes = s.changes.filter (fun c => decide (s.now + 1 < c.tick))

/-- What no host operation writes: the parameters, the time base, the input levels, the position of the receive
sequencer, and the words still on offer (R14, R33, R39, R297). -/
def Obligations.OperationsWriteNoTimeOrInput : Prop :=
  ∀ (i : Instr) (s t : State), exec i s = .next t → ExecFrame s t

/-- Instances are isolated: whatever operation runs, every slot but the one its index names is as before, configuration,
buffer and interrupt bits alike (R20, R60). -/
def Obligations.OperationsReachOnlyTheirInstance : Prop :=
  ∀ (i : Instr) (s t : State), exec i s = .next t → ∀ j, j ≠ (indexOf i).toNat → t.slot j = s.slot j

/-- Of the host operations, only OPEN and CLOSE of an index change its configuration registers or its interrupt bits,
only READ and OPEN of it move `head`, and only OPEN of it moves `tail` (R21 to R24, R26, R28, R29, R34; what the receive
sequencer writes of them is not the subject here). -/
def Obligations.RegistersHaveTheirWriters : Prop :=
  ∀ (i : Instr) (s t : State) (j : Nat), exec i s = .next t →
    ((t.inst j ≠ s.inst j ∨ t.rx j ≠ s.rx j) →
      (∃ idx baud rx tx, i = .openInst idx baud rx tx ∧ idx.toNat = j) ∨ ∃ idx, i = .closeInst idx ∧ idx.toNat = j) ∧
    ((t.buf j).head ≠ (s.buf j).head →
      (∃ idx baud rx tx, i = .openInst idx baud rx tx ∧ idx.toNat = j) ∨ ∃ idx, i = .read idx ∧ idx.toNat = j) ∧
    ((t.buf j).tail ≠ (s.buf j).tail →
      ∃ idx baud rx tx, i = .openInst idx baud rx tx ∧ idx.toNat = j)

/-- Of the host operations, only OPEN writes a pin, as one of its two pin operands, and PUT and PUTS, as the transmit
pin of their instance; CLOSE and the buffer operations write none (R164, R257, R297). -/
def Obligations.PinsHaveTheirWriters : Prop :=
  ∀ (i : Instr) (s t : State) (p : Pin), exec i s = .next t → t.pin p ≠ s.pin p →
    (∃ idx baud rx tx, i = .openInst idx baud rx tx ∧ (p = rx ∨ p = tx)) ∨
    (((∃ idx b, i = .put idx b) ∨ ∃ idx text, i = .puts idx text) ∧ p = (s.inst (indexOf i).toNat).txPin)
end

