-- ==== Sys2Proof/Laws/Decode.lean ====
section
/-! SUPPORT. The laws of command words: the bits and fields of an assembled word, and how many words the decoder takes
(spec/30_encoding.md R91 to R97). -/

namespace Sys2Proof

/-! ## The fields of an assembled word (R91) -/

section fields

variable (op : BitVec 4) (idx : Index) (rx tx : Pin) (arg : BitVec 32)

/-- Bit by bit, a `CMD` word is its fields side by side. -/
theorem getLsbD_cmdWord (i : Nat) :
    (cmdWord op idx rx tx arg).getLsbD i =
      if i < 32 then arg.getLsbD i
      else if i < 40 then tx.getLsbD (i - 32)
      else if i < 48 then rx.getLsbD (i - 40)
      else if i < 56 then idx.getLsbD (i - 48)
      else if i < 60 then false
      else op.getLsbD (i - 60) := by
  have ha : 32 ≤ i → arg.getLsbD i = false := BitVec.getLsbD_of_ge arg i
  have ht : 40 ≤ i → tx.getLsbD (i - 32) = false := fun h => BitVec.getLsbD_of_ge tx _ (by omega)
  have hr : 48 ≤ i → rx.getLsbD (i - 40) = false := fun h => BitVec.getLsbD_of_ge rx _ (by omega)
  have hx : 56 ≤ i → idx.getLsbD (i - 48) = false := fun h => BitVec.getLsbD_of_ge idx _ (by omega)
  have ho : 64 ≤ i → op.getLsbD (i - 60) = false := fun h => BitVec.getLsbD_of_ge op _ (by omega)
  simp only [cmdWord, BitVec.getLsbD_or, BitVec.getLsbD_shiftLeft, BitVec.getLsbD_setWidth]
  by_cases h1 : i < 32
  · simp [h1, show i < 60 by omega, show i < 48 by omega, show i < 40 by omega, show i < 64 by omega]
  by_cases h2 : i < 40
  · simp [h1, h2, ha (by omega), show i < 60 by omega, show i < 48 by omega, show i < 64 by omega,
      show i - 32 < 64 by omega]
  by_cases h3 : i < 48
  · simp [h1, h2, h3, ha (by omega), ht (by omega), show i < 60 by omega, show i < 64 by omega,
      show i - 40 < 64 by omega]
  by_cases h4 : i < 56
  · simp [h1, h2, h3, h4, ha (by omega), ht (by omega), hr (by omega), show i < 60 by omega,
      show i < 64 by omega, show i - 48 < 64 by omega]
  by_cases h5 : i < 60
  · simp [h1, h2, h3, h4, h5, ha (by omega), ht (by omega), hr (by omega), hx (by omega)]
  by_cases h6 : i < 64
  · simp [h1, h2, h3, h4, h5, h6, ha (by omega), ht (by omega), hr (by omega), hx (by omega),
      show i - 60 < 64 by omega]
  · simp [h1, h2, h3, h4, h5, h6, ho (by omega)]

@[simp] theorem fieldOp_cmdWord : fieldOp (cmdWord op idx rx tx arg) = op := by
  unfold fieldOp
  ext i hi
  rw [BitVec.getElem_extractLsb', getLsbD_cmdWord]
  simp [show ¬ 60 + i < 32 by omega, show ¬ 60 + i < 40 by omega, show ¬ 60 + i < 48 by omega,
    show ¬ 60 + i < 56 by omega, hi]

@[simp] theorem fieldZero_cmdWord : fieldZero (cmdWord op idx rx tx arg) = 0#4 := by
  unfold fieldZero
  ext i hi
  rw [BitVec.getElem_extractLsb', getLsbD_cmdWord]
  simp [show ¬ 56 + i < 32 by omega, show ¬ 56 + i < 40 by omega, show ¬ 56 + i < 48 by omega,
    show 56 + i < 60 by omega]

@[simp] theorem fieldIdx_cmdWord : fieldIdx (cmdWord op idx rx tx arg) = idx := by
  unfold fieldIdx
  ext i hi
  rw [BitVec.getElem_extractLsb', getLsbD_cmdWord]
  simp [show ¬ 48 + i < 32 by omega, show ¬ 48 + i < 40 by omega, show 48 + i < 56 by omega, hi]

@[simp] theorem fieldRx_cmdWord : fieldRx (cmdWord op idx rx tx arg) = rx := by
  unfold fieldRx
  ext i hi
  rw [BitVec.getElem_extractLsb', getLsbD_cmdWord]
  simp [show ¬ 40 + i < 32 by omega, show 40 + i < 48 by omega, hi]

@[simp] theorem fieldTx_cmdWord : fieldTx (cmdWord op idx rx tx arg) = tx := by
  unfold fieldTx
  ext i hi
  rw [BitVec.getElem_extractLsb', getLsbD_cmdWord]
  simp [show 32 + i < 40 by omega, hi]

@[simp] theorem fieldArg_cmdWord : fieldArg (cmdWord op idx rx tx arg) = arg := by
  unfold fieldArg
  ext i hi
  rw [BitVec.getElem_extractLsb', getLsbD_cmdWord]
  simp [hi]

end fields

/-- A word is its fields, when the reserved field is clear. -/
theorem cmdWord_fields {w : Word} (h : fieldZero w = 0#4) :
    cmdWord (fieldOp w) (fieldIdx w) (fieldRx w) (fieldTx w) (fieldArg w) = w := by
  apply BitVec.eq_of_getLsbD_eq
  intro i hi
  rw [getLsbD_cmdWord]
  simp only [fieldArg, fieldTx, fieldRx, fieldIdx, fieldOp, BitVec.getLsbD_extractLsb']
  split
  · next h1 => simp [h1]
  split
  · next h1 h2 => simp [show i - 32 < 8 by omega, show 32 + (i - 32) = i by omega]
  split
  · next h1 h2 h3 => simp [show i - 40 < 8 by omega, show 40 + (i - 40) = i by omega]
  split
  · next h1 h2 h3 h4 => simp [show i - 48 < 8 by omega, show 48 + (i - 48) = i by omega]
  split
  · next h1 h2 h3 h4 h5 =>
    have hz := congrArg (fun v => v.getLsbD (i - 56)) h
    simpa [fieldZero, BitVec.getLsbD_extractLsb', show i - 56 < 4 by omega, show 56 + (i - 56) = i by omega]
      using hz.symm
  · simp [show i - 60 < 4 by omega, show 60 + (i - 60) = i by omega]

/-! ## The opcode map -/

theorem opOfCode_some {c : BitVec 4} {o : Op} (h : opOfCode c = some o) : opCode o = c := by
  unfold opOfCode at h
  simpa using List.find?_some h

@[simp] theorem opOfCode_opCode (o : Op) : opOfCode (opCode o) = some o := by cases o <;> decide

theorem opCode_injective {o p : Op} (h : opCode o = opCode p) : o = p := by
  have := opOfCode_opCode o
  rw [h, opOfCode_opCode] at this
  exact (Option.some.inj this).symm

/-- A header decodes to an operation when its code is that operation's and its reserved fields are clear (R97). -/
theorem decodeHeader_ok_iff (w : Word) (o : Op) :
    decodeHeader w = .ok o ↔ fieldOp w = opCode o ∧ fieldZero w = 0#4 ∧ operandFieldsClear o w = true := by
  unfold decodeHeader
  constructor
  · intro h
    split at h
    · cases h
    · next p hp =>
      split at h
      · cases h
      · next hz =>
        split at h
        · next hc =>
          cases h
          exact ⟨(opOfCode_some hp).symm, by simpa using hz, hc⟩
        · cases h
  · rintro ⟨ho, hz, hc⟩
    simp [ho, hz, hc]

/-! ## Payload and length -/

/-- The payload taken and the words left over (R92). -/
theorem takePayload_some {n : Nat} {ws rest : List Word} {text : List Byte}
    (h : takePayload n ws = some (text, rest)) :
    text.length = n ∧ ws.length = n + rest.length ∧ rest = ws.drop n := by
  induction n generalizing ws text with
  | zero => simp only [takePayload, Option.some.injEq, Prod.mk.injEq] at h; simp [← h.1, ← h.2]
  | succ n ih =>
    cases ws with
    | nil => simp [takePayload] at h
    | cons w ws =>
      simp only [takePayload] at h
      split at h
      · cases h
      · next t r hr =>
        simp only [Option.some.injEq, Prod.mk.injEq] at h
        obtain ⟨rfl, rfl⟩ := h
        obtain ⟨h1, h2, h3⟩ := ih hr
        exact ⟨by simp [h1], by simp [h2]; omega, by simpa using h3⟩

theorem payByte_setWidth (b : Byte) : payByte (b.setWidth 64) = b := by
  unfold payByte
  ext i hi
  simp [hi]; omega

/-- The payload words of a text decode to the text. -/
theorem takePayload_map (text : List Byte) (rest : List Word) :
    takePayload text.length (text.map (fun b => b.setWidth 64) ++ rest) = some (text, rest) := by
  induction text with
  | nil => rfl
  | cons b bs ih => simp [takePayload, ih, payByte_setWidth]

/-- The decoder takes as many words as the operation is long (R95). -/
theorem decode_op_rest {ws rest : List Word} {i : Instr} (h : decode ws = .op i rest) :
    ws.length = wordLength i + rest.length ∧ rest = ws.drop (wordLength i) := by
  cases ws with
  | nil => simp [decode] at h
  | cons w ws =>
    simp only [decode] at h
    split at h
    · cases h
    · next o _ =>
      cases o <;> simp only [decodeOperands] at h
      case puts =>
        split at h
        · cases h
        · next hp =>
          cases h
          obtain ⟨h1, h2, h3⟩ := takePayload_some hp
          refine ⟨by simp [wordLength, encodePayload, h1, h2]; omega, ?_⟩
          rw [h3, wordLength, encodePayload, List.length_map, h1, Nat.add_comm 1]
          rfl
      all_goals
        cases h
        simp [wordLength, encodePayload, Nat.add_comm]

theorem wordLength_pos (i : Instr) : 0 < wordLength i := by unfold wordLength; omega

/-- What the decoder reads is well formed. -/
theorem decode_op_wellFormed {ws rest : List Word} {i : Instr} (h : decode ws = .op i rest) :
    i.wellFormed = true := by
  cases ws with
  | nil => simp [decode] at h
  | cons w ws =>
    simp only [decode] at h
    split at h
    · cases h
    · next o _ =>
      cases o <;> simp only [decodeOperands] at h
      case puts =>
        split at h
        · cases h
        · next hp =>
          cases h
          have := (takePayload_some hp).1
          have := (fieldArg w).isLt
          simp [Instr.wellFormed]; omega
      all_goals
        cases h
        rfl

end Sys2Proof
end

