-- ==== Sys2Proof/Laws/Table.lean ====
section
/-! SUPPORT. The laws of sparse tables: a read after a write at the same key gives the value written, a write leaves
every other key alone, a write keeps the canonical form, and canonical tables with equal reads are equal. -/

namespace Sys2Proof.Machine

variable {α : Type}

@[simp] theorem tableRead_nil (d : α) (k : Nat) : tableRead d [] k = d := rfl

theorem tableRead_erase_self (d : α) (t : List (Nat × α)) (k : Nat) : tableRead d (tableErase t k) k = d := by
  induction t with
  | nil => rfl
  | cons e t ih =>
    by_cases h : e.1 = k
    · simpa [tableErase, h] using ih
    · simpa [tableErase, tableRead, h] using ih

theorem tableRead_erase_ne (d : α) (t : List (Nat × α)) {k k' : Nat} (hne : k' ≠ k) :
    tableRead d (tableErase t k) k' = tableRead d t k' := by
  induction t with
  | nil => rfl
  | cons e t ih =>
    by_cases h : e.1 = k
    · have : e.1 ≠ k' := by omega
      simpa [tableErase, tableRead, h, this, Ne.symm hne] using ih
    · by_cases h' : e.1 = k' <;> simp [tableErase, tableRead, h, h', ih]
      subst h'; simp [h, tableRead]

theorem mem_tableErase {t : List (Nat × α)} {k : Nat} {e : Nat × α} :
    e ∈ tableErase t k ↔ e ∈ t ∧ e.1 ≠ k := by
  induction t with
  | nil => simp [tableErase]
  | cons a t ih =>
    by_cases h : a.1 = k
    · simp only [tableErase, h, if_true, ih, List.mem_cons]
      constructor
      · rintro ⟨hm, hk⟩; exact ⟨.inr hm, hk⟩
      · rintro ⟨rfl | hm, hk⟩
        · exact absurd h hk
        · exact ⟨hm, hk⟩
    · simp only [tableErase, h, if_false, ih, List.mem_cons]
      constructor
      · rintro (rfl | ⟨hm, hk⟩)
        · exact ⟨.inl rfl, h⟩
        · exact ⟨.inr hm, hk⟩
      · rintro ⟨rfl | hm, hk⟩
        · exact .inl rfl
        · exact .inr ⟨hm, hk⟩

theorem mem_tableInsert {t : List (Nat × α)} {k : Nat} {v : α} {e : Nat × α} :
    e ∈ tableInsert t k v ↔ e = (k, v) ∨ e ∈ t := by
  induction t with
  | nil => simp [tableInsert]
  | cons a t ih =>
    by_cases h : k < a.1
    · simp [tableInsert, h]
    · simp only [tableInsert, h, if_false, List.mem_cons, ih]
      tauto

theorem tableRead_insert_self (d : α) (t : List (Nat × α)) (k : Nat) (v : α) (hk : ∀ e ∈ t, e.1 ≠ k) :
    tableRead d (tableInsert t k v) k = v := by
  induction t with
  | nil => simp [tableInsert, tableRead]
  | cons e t ih =>
    have he : e.1 ≠ k := hk e (by simp)
    by_cases h : k < e.1
    · simp [tableInsert, tableRead, h]
    · simpa [tableInsert, tableRead, h, he] using ih (fun x hx => hk x (by simp [hx]))

theorem tableRead_insert_ne (d : α) (t : List (Nat × α)) {k k' : Nat} (v : α) (hne : k' ≠ k) :
    tableRead d (tableInsert t k v) k' = tableRead d t k' := by
  induction t with
  | nil => simp [tableInsert, tableRead, Ne.symm hne]
  | cons e t ih =>
    by_cases h : k < e.1
    · simp [tableInsert, tableRead, h, Ne.symm hne]
    · simp [tableInsert, tableRead, h, ih]

variable [DecidableEq α]

@[simp] theorem tableRead_write_self (d : α) (t : List (Nat × α)) (k : Nat) (v : α) :
    tableRead d (tableWrite d t k v) k = v := by
  unfold tableWrite
  split
  · next h => rw [h, tableRead_erase_self]
  · exact tableRead_insert_self d _ k v (fun e he => (mem_tableErase.mp he).2)

theorem tableRead_write_ne (d : α) (t : List (Nat × α)) {k k' : Nat} (v : α) (hne : k' ≠ k) :
    tableRead d (tableWrite d t k v) k' = tableRead d t k' := by
  unfold tableWrite
  split
  · exact tableRead_erase_ne d t hne
  · rw [tableRead_insert_ne d _ v hne, tableRead_erase_ne d t hne]

theorem tableRead_write (d : α) (t : List (Nat × α)) (k k' : Nat) (v : α) :
    tableRead d (tableWrite d t k v) k' = if k' = k then v else tableRead d t k' := by
  split
  · next h => rw [h, tableRead_write_self]
  · next h => exact tableRead_write_ne d t v h

omit [DecidableEq α] in
theorem tableSorted_erase {t : List (Nat × α)} (k : Nat) (h : tableSorted t) : tableSorted (tableErase t k) := by
  induction t with
  | nil => simp [tableErase]
  | cons e t ih =>
    rw [tableSorted, List.pairwise_cons] at h
    unfold tableErase
    split
    · exact ih h.2
    · exact List.pairwise_cons.mpr ⟨fun x hx => h.1 x (mem_tableErase.mp hx).1, ih h.2⟩

omit [DecidableEq α] in
theorem tableSorted_insert {t : List (Nat × α)} {k : Nat} (v : α) (h : tableSorted t) (hk : ∀ e ∈ t, e.1 ≠ k) :
    tableSorted (tableInsert t k v) := by
  induction t with
  | nil => simp [tableInsert, tableSorted]
  | cons e t ih =>
    rw [tableSorted, List.pairwise_cons] at h
    unfold tableInsert
    split
    · next hlt =>
      refine List.pairwise_cons.mpr ⟨fun x hx => ?_, List.pairwise_cons.mpr h⟩
      rcases List.mem_cons.mp hx with rfl | hx
      · exact hlt
      · exact Nat.lt_trans hlt (h.1 x hx)
    · next hge =>
      have he : e.1 ≠ k := hk e (by simp)
      refine List.pairwise_cons.mpr ⟨fun x hx => ?_, ih h.2 (fun x hx => hk x (by simp [hx]))⟩
      rcases mem_tableInsert.mp hx with rfl | hx
      · show e.1 < k; omega
      · exact h.1 x hx

/-- A write below the bound keeps the canonical form. -/
theorem tableWf_write {d : α} {bound : Nat} {t : List (Nat × α)} {k : Nat} (v : α) (h : tableWf d bound t)
    (hk : k < bound) : tableWf d bound (tableWrite d t k v) := by
  unfold tableWrite
  split
  · exact ⟨tableSorted_erase k h.1, fun e he => h.2 e (mem_tableErase.mp he).1⟩
  · next hv =>
    refine ⟨tableSorted_insert v (tableSorted_erase k h.1) (fun e he => (mem_tableErase.mp he).2), fun e he => ?_⟩
    rcases mem_tableInsert.mp he with rfl | he
    · exact ⟨hv, hk⟩
    · exact h.2 e (mem_tableErase.mp he).1

omit [DecidableEq α] in
theorem tableRead_of_lt {d : α} {t : List (Nat × α)} {k : Nat} (h : ∀ e ∈ t, k < e.1) : tableRead d t k = d := by
  induction t with
  | nil => rfl
  | cons e t ih =>
    have he := h e (by simp)
    simpa [tableRead, show e.1 ≠ k by omega] using ih (fun x hx => h x (by simp [hx]))

omit [DecidableEq α] in
/-- Canonical tables are determined by what they read as, so equal memories are equal data. -/
theorem table_ext {d : α} {b : Nat} {t u : List (Nat × α)} (ht : tableWf d b t) (hu : tableWf d b u)
    (h : ∀ k, tableRead d t k = tableRead d u k) : t = u := by
  induction t generalizing u with
  | nil =>
    cases u with
    | nil => rfl
    | cons e u =>
      have := h e.1
      simp [tableRead] at this
      exact absurd this.symm (hu.2 e (by simp)).1
  | cons e t ih =>
    obtain ⟨hts, htv⟩ := ht
    rw [tableSorted, List.pairwise_cons] at hts
    cases u with
    | nil =>
      have := h e.1
      simp [tableRead] at this
      exact absurd this (htv e (by simp)).1
    | cons f u =>
      obtain ⟨hus, huv⟩ := hu
      rw [tableSorted, List.pairwise_cons] at hus
      have hkey : e.1 = f.1 := by
        rcases Nat.lt_trichotomy e.1 f.1 with hlt | heq | hgt
        · have h1 := h e.1
          rw [tableRead_of_lt (t := f :: u) (fun x hx => by
            rcases List.mem_cons.mp hx with rfl | hx
            · exact hlt
            · exact Nat.lt_trans hlt (hus.1 x hx))] at h1
          simp [tableRead] at h1
          exact absurd h1 (htv e (by simp)).1
        · exact heq
        · have h1 := h f.1
          rw [tableRead_of_lt (t := e :: t) (fun x hx => by
            rcases List.mem_cons.mp hx with rfl | hx
            · exact hgt
            · exact Nat.lt_trans hgt (hts.1 x hx))] at h1
          simp [tableRead] at h1
          exact absurd h1.symm (huv f (by simp)).1
      have hval : e.2 = f.2 := by
        have h1 := h e.1
        simpa [tableRead, hkey] using h1
      have hef : e = f := Prod.ext hkey hval
      subst hef
      congr 1
      refine ih ⟨hts.2, fun x hx => htv x (by simp [hx])⟩ ⟨hus.2, fun x hx => huv x (by simp [hx])⟩ (fun k => ?_)
      by_cases hk : e.1 = k
      · subst hk
        rw [tableRead_of_lt hts.1, tableRead_of_lt hus.1]
      · simpa [tableRead, hk] using h k

/-! ## Buffer storage -/

@[simp] theorem Memory.read_nil (pos : Nat) : Memory.read [] pos = unwrittenByte := rfl

@[simp] theorem Memory.read_write_self (m : Memory) (pos : Nat) (v : Byte) : (m.write pos v).read pos = v :=
  tableRead_write_self unwrittenByte m pos v

theorem Memory.read_write_ne (m : Memory) {pos pos' : Nat} (v : Byte) (h : pos' ≠ pos) :
    (m.write pos v).read pos' = m.read pos' :=
  tableRead_write_ne unwrittenByte m v h

theorem Memory.read_write (m : Memory) (pos pos' : Nat) (v : Byte) :
    (m.write pos v).read pos' = if pos' = pos then v else m.read pos' :=
  tableRead_write unwrittenByte m pos pos' v

/-- The one memory operation that writes keeps the canonical form. -/
theorem Memory.wf_write {cap : Nat} {m : Memory} {pos : Nat} (v : Byte) (h : m.wf cap) (hp : pos < cap) :
    (m.write pos v).wf cap :=
  tableWf_write v h hp

theorem Memory.wf_nil (cap : Nat) : Memory.wf cap [] := ⟨List.Pairwise.nil, by simp⟩

theorem Memory.ext_of_read {cap : Nat} {m n : Memory} (hm : m.wf cap) (hn : n.wf cap)
    (h : ∀ pos, m.read pos = n.read pos) : m = n :=
  table_ext hm hn h

end Sys2Proof.Machine
end

