-- ==== Sys2Proof/Laws/State.lean ====
section
/-! SUPPORT. What each named update of the state leaves alone, one lemma per field and update, and the laws of reading a
slot or a pin after an update. -/

namespace Sys2Proof.Machine

/-! ## Field lemmas -/

@[simp] theorem State.cfg_setSlot (s : State) (i : Nat) (x : Slot) : (s.setSlot i x).cfg = s.cfg := rfl
@[simp] theorem State.now_setSlot (s : State) (i : Nat) (x : Slot) : (s.setSlot i x).now = s.now := rfl
@[simp] theorem State.fresh_setSlot (s : State) (i : Nat) (x : Slot) : (s.setSlot i x).fresh = s.fresh := rfl
@[simp] theorem State.prev_setSlot (s : State) (i : Nat) (x : Slot) : (s.setSlot i x).prev = s.prev := rfl
@[simp] theorem State.level_setSlot (s : State) (i : Nat) (x : Slot) : (s.setSlot i x).level = s.level := rfl
@[simp] theorem State.pins_setSlot (s : State) (i : Nat) (x : Slot) : (s.setSlot i x).pins = s.pins := rfl
@[simp] theorem State.isr_setSlot (s : State) (i : Nat) (x : Slot) : (s.setSlot i x).isr = s.isr := rfl
@[simp] theorem State.tx_setSlot (s : State) (i : Nat) (x : Slot) : (s.setSlot i x).tx = s.tx := rfl
@[simp] theorem State.port_setSlot (s : State) (i : Nat) (x : Slot) : (s.setSlot i x).port = s.port := rfl
@[simp] theorem State.changes_setSlot (s : State) (i : Nat) (x : Slot) : (s.setSlot i x).changes = s.changes := rfl
@[simp] theorem State.wires_setSlot (s : State) (i : Nat) (x : Slot) : (s.setSlot i x).wires = s.wires := rfl
@[simp] theorem State.responses_setSlot (s : State) (i : Nat) (x : Slot) : (s.setSlot i x).responses = s.responses := rfl

@[simp] theorem State.cfg_setInst (s : State) (i : Nat) (v : Inst) : (s.setInst i v).cfg = s.cfg := rfl
@[simp] theorem State.now_setInst (s : State) (i : Nat) (v : Inst) : (s.setInst i v).now = s.now := rfl
@[simp] theorem State.fresh_setInst (s : State) (i : Nat) (v : Inst) : (s.setInst i v).fresh = s.fresh := rfl
@[simp] theorem State.prev_setInst (s : State) (i : Nat) (v : Inst) : (s.setInst i v).prev = s.prev := rfl
@[simp] theorem State.level_setInst (s : State) (i : Nat) (v : Inst) : (s.setInst i v).level = s.level := rfl
@[simp] theorem State.pins_setInst (s : State) (i : Nat) (v : Inst) : (s.setInst i v).pins = s.pins := rfl
@[simp] theorem State.isr_setInst (s : State) (i : Nat) (v : Inst) : (s.setInst i v).isr = s.isr := rfl
@[simp] theorem State.tx_setInst (s : State) (i : Nat) (v : Inst) : (s.setInst i v).tx = s.tx := rfl
@[simp] theorem State.port_setInst (s : State) (i : Nat) (v : Inst) : (s.setInst i v).port = s.port := rfl
@[simp] theorem State.changes_setInst (s : State) (i : Nat) (v : Inst) : (s.setInst i v).changes = s.changes := rfl
@[simp] theorem State.wires_setInst (s : State) (i : Nat) (v : Inst) : (s.setInst i v).wires = s.wires := rfl
@[simp] theorem State.responses_setInst (s : State) (i : Nat) (v : Inst) : (s.setInst i v).responses = s.responses := rfl

@[simp] theorem State.cfg_setBuf (s : State) (i : Nat) (v : Buffer) : (s.setBuf i v).cfg = s.cfg := rfl
@[simp] theorem State.now_setBuf (s : State) (i : Nat) (v : Buffer) : (s.setBuf i v).now = s.now := rfl
@[simp] theorem State.fresh_setBuf (s : State) (i : Nat) (v : Buffer) : (s.setBuf i v).fresh = s.fresh := rfl
@[simp] theorem State.prev_setBuf (s : State) (i : Nat) (v : Buffer) : (s.setBuf i v).prev = s.prev := rfl
@[simp] theorem State.level_setBuf (s : State) (i : Nat) (v : Buffer) : (s.setBuf i v).level = s.level := rfl
@[simp] theorem State.pins_setBuf (s : State) (i : Nat) (v : Buffer) : (s.setBuf i v).pins = s.pins := rfl
@[simp] theorem State.isr_setBuf (s : State) (i : Nat) (v : Buffer) : (s.setBuf i v).isr = s.isr := rfl
@[simp] theorem State.tx_setBuf (s : State) (i : Nat) (v : Buffer) : (s.setBuf i v).tx = s.tx := rfl
@[simp] theorem State.port_setBuf (s : State) (i : Nat) (v : Buffer) : (s.setBuf i v).port = s.port := rfl
@[simp] theorem State.changes_setBuf (s : State) (i : Nat) (v : Buffer) : (s.setBuf i v).changes = s.changes := rfl
@[simp] theorem State.wires_setBuf (s : State) (i : Nat) (v : Buffer) : (s.setBuf i v).wires = s.wires := rfl
@[simp] theorem State.responses_setBuf (s : State) (i : Nat) (v : Buffer) : (s.setBuf i v).responses = s.responses := rfl

@[simp] theorem State.cfg_setRx (s : State) (i : Nat) (v : RxControl) : (s.setRx i v).cfg = s.cfg := rfl
@[simp] theorem State.now_setRx (s : State) (i : Nat) (v : RxControl) : (s.setRx i v).now = s.now := rfl
@[simp] theorem State.fresh_setRx (s : State) (i : Nat) (v : RxControl) : (s.setRx i v).fresh = s.fresh := rfl
@[simp] theorem State.prev_setRx (s : State) (i : Nat) (v : RxControl) : (s.setRx i v).prev = s.prev := rfl
@[simp] theorem State.level_setRx (s : State) (i : Nat) (v : RxControl) : (s.setRx i v).level = s.level := rfl
@[simp] theorem State.pins_setRx (s : State) (i : Nat) (v : RxControl) : (s.setRx i v).pins = s.pins := rfl
@[simp] theorem State.isr_setRx (s : State) (i : Nat) (v : RxControl) : (s.setRx i v).isr = s.isr := rfl
@[simp] theorem State.tx_setRx (s : State) (i : Nat) (v : RxControl) : (s.setRx i v).tx = s.tx := rfl
@[simp] theorem State.port_setRx (s : State) (i : Nat) (v : RxControl) : (s.setRx i v).port = s.port := rfl
@[simp] theorem State.changes_setRx (s : State) (i : Nat) (v : RxControl) : (s.setRx i v).changes = s.changes := rfl
@[simp] theorem State.wires_setRx (s : State) (i : Nat) (v : RxControl) : (s.setRx i v).wires = s.wires := rfl
@[simp] theorem State.responses_setRx (s : State) (i : Nat) (v : RxControl) : (s.setRx i v).responses = s.responses := rfl

@[simp] theorem State.cfg_bufWrite (s : State) (i pos : Nat) (v : Byte) : (s.bufWrite i pos v).cfg = s.cfg := rfl
@[simp] theorem State.now_bufWrite (s : State) (i pos : Nat) (v : Byte) : (s.bufWrite i pos v).now = s.now := rfl
@[simp] theorem State.fresh_bufWrite (s : State) (i pos : Nat) (v : Byte) : (s.bufWrite i pos v).fresh = s.fresh := rfl
@[simp] theorem State.prev_bufWrite (s : State) (i pos : Nat) (v : Byte) : (s.bufWrite i pos v).prev = s.prev := rfl
@[simp] theorem State.level_bufWrite (s : State) (i pos : Nat) (v : Byte) : (s.bufWrite i pos v).level = s.level := rfl
@[simp] theorem State.pins_bufWrite (s : State) (i pos : Nat) (v : Byte) : (s.bufWrite i pos v).pins = s.pins := rfl
@[simp] theorem State.isr_bufWrite (s : State) (i pos : Nat) (v : Byte) : (s.bufWrite i pos v).isr = s.isr := rfl
@[simp] theorem State.tx_bufWrite (s : State) (i pos : Nat) (v : Byte) : (s.bufWrite i pos v).tx = s.tx := rfl
@[simp] theorem State.port_bufWrite (s : State) (i pos : Nat) (v : Byte) : (s.bufWrite i pos v).port = s.port := rfl
@[simp] theorem State.changes_bufWrite (s : State) (i pos : Nat) (v : Byte) : (s.bufWrite i pos v).changes = s.changes := rfl
@[simp] theorem State.wires_bufWrite (s : State) (i pos : Nat) (v : Byte) : (s.bufWrite i pos v).wires = s.wires := rfl
@[simp] theorem State.responses_bufWrite (s : State) (i pos : Nat) (v : Byte) : (s.bufWrite i pos v).responses = s.responses := rfl

@[simp] theorem State.cfg_attach (s : State) (i : Nat) : (s.attach i).cfg = s.cfg := rfl
@[simp] theorem State.now_attach (s : State) (i : Nat) : (s.attach i).now = s.now := rfl
@[simp] theorem State.fresh_attach (s : State) (i : Nat) : (s.attach i).fresh = s.fresh := rfl
@[simp] theorem State.prev_attach (s : State) (i : Nat) : (s.attach i).prev = s.prev := rfl
@[simp] theorem State.level_attach (s : State) (i : Nat) : (s.attach i).level = s.level := rfl
@[simp] theorem State.pins_attach (s : State) (i : Nat) : (s.attach i).pins = s.pins := rfl
@[simp] theorem State.isr_attach (s : State) (i : Nat) : (s.attach i).isr = s.isr := rfl
@[simp] theorem State.tx_attach (s : State) (i : Nat) : (s.attach i).tx = s.tx := rfl
@[simp] theorem State.port_attach (s : State) (i : Nat) : (s.attach i).port = s.port := rfl
@[simp] theorem State.changes_attach (s : State) (i : Nat) : (s.attach i).changes = s.changes := rfl
@[simp] theorem State.wires_attach (s : State) (i : Nat) : (s.attach i).wires = s.wires := rfl
@[simp] theorem State.responses_attach (s : State) (i : Nat) : (s.attach i).responses = s.responses := rfl

@[simp] theorem State.cfg_detach (s : State) (i : Nat) : (s.detach i).cfg = s.cfg := rfl
@[simp] theorem State.now_detach (s : State) (i : Nat) : (s.detach i).now = s.now := rfl
@[simp] theorem State.fresh_detach (s : State) (i : Nat) : (s.detach i).fresh = s.fresh := rfl
@[simp] theorem State.prev_detach (s : State) (i : Nat) : (s.detach i).prev = s.prev := rfl
@[simp] theorem State.level_detach (s : State) (i : Nat) : (s.detach i).level = s.level := rfl
@[simp] theorem State.pins_detach (s : State) (i : Nat) : (s.detach i).pins = s.pins := rfl
@[simp] theorem State.isr_detach (s : State) (i : Nat) : (s.detach i).isr = s.isr := rfl
@[simp] theorem State.tx_detach (s : State) (i : Nat) : (s.detach i).tx = s.tx := rfl
@[simp] theorem State.port_detach (s : State) (i : Nat) : (s.detach i).port = s.port := rfl
@[simp] theorem State.changes_detach (s : State) (i : Nat) : (s.detach i).changes = s.changes := rfl
@[simp] theorem State.wires_detach (s : State) (i : Nat) : (s.detach i).wires = s.wires := rfl
@[simp] theorem State.responses_detach (s : State) (i : Nat) : (s.detach i).responses = s.responses := rfl

@[simp] theorem State.cfg_setOverflow (s : State) (i : Nat) : (s.setOverflow i).cfg = s.cfg := rfl
@[simp] theorem State.now_setOverflow (s : State) (i : Nat) : (s.setOverflow i).now = s.now := rfl
@[simp] theorem State.fresh_setOverflow (s : State) (i : Nat) : (s.setOverflow i).fresh = s.fresh := rfl
@[simp] theorem State.prev_setOverflow (s : State) (i : Nat) : (s.setOverflow i).prev = s.prev := rfl
@[simp] theorem State.level_setOverflow (s : State) (i : Nat) : (s.setOverflow i).level = s.level := rfl
@[simp] theorem State.pins_setOverflow (s : State) (i : Nat) : (s.setOverflow i).pins = s.pins := rfl
@[simp] theorem State.isr_setOverflow (s : State) (i : Nat) : (s.setOverflow i).isr = s.isr := rfl
@[simp] theorem State.tx_setOverflow (s : State) (i : Nat) : (s.setOverflow i).tx = s.tx := rfl
@[simp] theorem State.port_setOverflow (s : State) (i : Nat) : (s.setOverflow i).port = s.port := rfl
@[simp] theorem State.changes_setOverflow (s : State) (i : Nat) : (s.setOverflow i).changes = s.changes := rfl
@[simp] theorem State.wires_setOverflow (s : State) (i : Nat) : (s.setOverflow i).wires = s.wires := rfl
@[simp] theorem State.responses_setOverflow (s : State) (i : Nat) : (s.setOverflow i).responses = s.responses := rfl

@[simp] theorem State.cfg_clearOverflow (s : State) (i : Nat) : (s.clearOverflow i).cfg = s.cfg := rfl
@[simp] theorem State.now_clearOverflow (s : State) (i : Nat) : (s.clearOverflow i).now = s.now := rfl
@[simp] theorem State.fresh_clearOverflow (s : State) (i : Nat) : (s.clearOverflow i).fresh = s.fresh := rfl
@[simp] theorem State.prev_clearOverflow (s : State) (i : Nat) : (s.clearOverflow i).prev = s.prev := rfl
@[simp] theorem State.level_clearOverflow (s : State) (i : Nat) : (s.clearOverflow i).level = s.level := rfl
@[simp] theorem State.pins_clearOverflow (s : State) (i : Nat) : (s.clearOverflow i).pins = s.pins := rfl
@[simp] theorem State.isr_clearOverflow (s : State) (i : Nat) : (s.clearOverflow i).isr = s.isr := rfl
@[simp] theorem State.tx_clearOverflow (s : State) (i : Nat) : (s.clearOverflow i).tx = s.tx := rfl
@[simp] theorem State.port_clearOverflow (s : State) (i : Nat) : (s.clearOverflow i).port = s.port := rfl
@[simp] theorem State.changes_clearOverflow (s : State) (i : Nat) : (s.clearOverflow i).changes = s.changes := rfl
@[simp] theorem State.wires_clearOverflow (s : State) (i : Nat) : (s.clearOverflow i).wires = s.wires := rfl
@[simp] theorem State.responses_clearOverflow (s : State) (i : Nat) : (s.clearOverflow i).responses = s.responses := rfl

@[simp] theorem State.cfg_popAdvance (s : State) (i : Nat) : (s.popAdvance i).cfg = s.cfg := rfl
@[simp] theorem State.now_popAdvance (s : State) (i : Nat) : (s.popAdvance i).now = s.now := rfl
@[simp] theorem State.fresh_popAdvance (s : State) (i : Nat) : (s.popAdvance i).fresh = s.fresh := rfl
@[simp] theorem State.prev_popAdvance (s : State) (i : Nat) : (s.popAdvance i).prev = s.prev := rfl
@[simp] theorem State.level_popAdvance (s : State) (i : Nat) : (s.popAdvance i).level = s.level := rfl
@[simp] theorem State.pins_popAdvance (s : State) (i : Nat) : (s.popAdvance i).pins = s.pins := rfl
@[simp] theorem State.isr_popAdvance (s : State) (i : Nat) : (s.popAdvance i).isr = s.isr := rfl
@[simp] theorem State.tx_popAdvance (s : State) (i : Nat) : (s.popAdvance i).tx = s.tx := rfl
@[simp] theorem State.port_popAdvance (s : State) (i : Nat) : (s.popAdvance i).port = s.port := rfl
@[simp] theorem State.changes_popAdvance (s : State) (i : Nat) : (s.popAdvance i).changes = s.changes := rfl
@[simp] theorem State.wires_popAdvance (s : State) (i : Nat) : (s.popAdvance i).wires = s.wires := rfl
@[simp] theorem State.responses_popAdvance (s : State) (i : Nat) : (s.popAdvance i).responses = s.responses := rfl

@[simp] theorem State.cfg_setPin (s : State) (p : Pin) (v : PinState) : (s.setPin p v).cfg = s.cfg := rfl
@[simp] theorem State.now_setPin (s : State) (p : Pin) (v : PinState) : (s.setPin p v).now = s.now := rfl
@[simp] theorem State.fresh_setPin (s : State) (p : Pin) (v : PinState) : (s.setPin p v).fresh = s.fresh := rfl
@[simp] theorem State.prev_setPin (s : State) (p : Pin) (v : PinState) : (s.setPin p v).prev = s.prev := rfl
@[simp] theorem State.level_setPin (s : State) (p : Pin) (v : PinState) : (s.setPin p v).level = s.level := rfl
@[simp] theorem State.slots_setPin (s : State) (p : Pin) (v : PinState) : (s.setPin p v).slots = s.slots := rfl
@[simp] theorem State.isr_setPin (s : State) (p : Pin) (v : PinState) : (s.setPin p v).isr = s.isr := rfl
@[simp] theorem State.tx_setPin (s : State) (p : Pin) (v : PinState) : (s.setPin p v).tx = s.tx := rfl
@[simp] theorem State.port_setPin (s : State) (p : Pin) (v : PinState) : (s.setPin p v).port = s.port := rfl
@[simp] theorem State.changes_setPin (s : State) (p : Pin) (v : PinState) : (s.setPin p v).changes = s.changes := rfl
@[simp] theorem State.wires_setPin (s : State) (p : Pin) (v : PinState) : (s.setPin p v).wires = s.wires := rfl
@[simp] theorem State.responses_setPin (s : State) (p : Pin) (v : PinState) : (s.setPin p v).responses = s.responses := rfl

@[simp] theorem State.cfg_gpioConfigure (s : State) (p : Pin) (m : PinDir) (u d : Bool) : (s.gpioConfigure p m u d).cfg = s.cfg := rfl
@[simp] theorem State.now_gpioConfigure (s : State) (p : Pin) (m : PinDir) (u d : Bool) : (s.gpioConfigure p m u d).now = s.now := rfl
@[simp] theorem State.fresh_gpioConfigure (s : State) (p : Pin) (m : PinDir) (u d : Bool) : (s.gpioConfigure p m u d).fresh = s.fresh := rfl
@[simp] theorem State.prev_gpioConfigure (s : State) (p : Pin) (m : PinDir) (u d : Bool) : (s.gpioConfigure p m u d).prev = s.prev := rfl
@[simp] theorem State.level_gpioConfigure (s : State) (p : Pin) (m : PinDir) (u d : Bool) : (s.gpioConfigure p m u d).level = s.level := rfl
@[simp] theorem State.slots_gpioConfigure (s : State) (p : Pin) (m : PinDir) (u d : Bool) : (s.gpioConfigure p m u d).slots = s.slots := rfl
@[simp] theorem State.isr_gpioConfigure (s : State) (p : Pin) (m : PinDir) (u d : Bool) : (s.gpioConfigure p m u d).isr = s.isr := rfl
@[simp] theorem State.tx_gpioConfigure (s : State) (p : Pin) (m : PinDir) (u d : Bool) : (s.gpioConfigure p m u d).tx = s.tx := rfl
@[simp] theorem State.port_gpioConfigure (s : State) (p : Pin) (m : PinDir) (u d : Bool) : (s.gpioConfigure p m u d).port = s.port := rfl
@[simp] theorem State.changes_gpioConfigure (s : State) (p : Pin) (m : PinDir) (u d : Bool) : (s.gpioConfigure p m u d).changes = s.changes := rfl
@[simp] theorem State.wires_gpioConfigure (s : State) (p : Pin) (m : PinDir) (u d : Bool) : (s.gpioConfigure p m u d).wires = s.wires := rfl
@[simp] theorem State.responses_gpioConfigure (s : State) (p : Pin) (m : PinDir) (u d : Bool) : (s.gpioConfigure p m u d).responses = s.responses := rfl

@[simp] theorem State.cfg_gpioSet (s : State) (p : Pin) (v : Level) : (s.gpioSet p v).cfg = s.cfg := rfl
@[simp] theorem State.now_gpioSet (s : State) (p : Pin) (v : Level) : (s.gpioSet p v).now = s.now := rfl
@[simp] theorem State.fresh_gpioSet (s : State) (p : Pin) (v : Level) : (s.gpioSet p v).fresh = s.fresh := rfl
@[simp] theorem State.prev_gpioSet (s : State) (p : Pin) (v : Level) : (s.gpioSet p v).prev = s.prev := rfl
@[simp] theorem State.level_gpioSet (s : State) (p : Pin) (v : Level) : (s.gpioSet p v).level = s.level := rfl
@[simp] theorem State.slots_gpioSet (s : State) (p : Pin) (v : Level) : (s.gpioSet p v).slots = s.slots := rfl
@[simp] theorem State.isr_gpioSet (s : State) (p : Pin) (v : Level) : (s.gpioSet p v).isr = s.isr := rfl
@[simp] theorem State.tx_gpioSet (s : State) (p : Pin) (v : Level) : (s.gpioSet p v).tx = s.tx := rfl
@[simp] theorem State.port_gpioSet (s : State) (p : Pin) (v : Level) : (s.gpioSet p v).port = s.port := rfl
@[simp] theorem State.changes_gpioSet (s : State) (p : Pin) (v : Level) : (s.gpioSet p v).changes = s.changes := rfl
@[simp] theorem State.wires_gpioSet (s : State) (p : Pin) (v : Level) : (s.gpioSet p v).wires = s.wires := rfl
@[simp] theorem State.responses_gpioSet (s : State) (p : Pin) (v : Level) : (s.gpioSet p v).responses = s.responses := rfl

@[simp] theorem State.cfg_respond (s : State) (v : RespWord) : (s.respond v).cfg = s.cfg := rfl
@[simp] theorem State.now_respond (s : State) (v : RespWord) : (s.respond v).now = s.now := rfl
@[simp] theorem State.fresh_respond (s : State) (v : RespWord) : (s.respond v).fresh = s.fresh := rfl
@[simp] theorem State.prev_respond (s : State) (v : RespWord) : (s.respond v).prev = s.prev := rfl
@[simp] theorem State.level_respond (s : State) (v : RespWord) : (s.respond v).level = s.level := rfl
@[simp] theorem State.pins_respond (s : State) (v : RespWord) : (s.respond v).pins = s.pins := rfl
@[simp] theorem State.slots_respond (s : State) (v : RespWord) : (s.respond v).slots = s.slots := rfl
@[simp] theorem State.isr_respond (s : State) (v : RespWord) : (s.respond v).isr = s.isr := rfl
@[simp] theorem State.tx_respond (s : State) (v : RespWord) : (s.respond v).tx = s.tx := rfl
@[simp] theorem State.port_respond (s : State) (v : RespWord) : (s.respond v).port = s.port := rfl
@[simp] theorem State.changes_respond (s : State) (v : RespWord) : (s.respond v).changes = s.changes := rfl
@[simp] theorem State.wires_respond (s : State) (v : RespWord) : (s.respond v).wires = s.wires := rfl

@[simp] theorem State.cfg_startRun (s : State) (i : Nat) : (s.startRun i).cfg = s.cfg := rfl
@[simp] theorem State.now_startRun (s : State) (i : Nat) : (s.startRun i).now = s.now := rfl
@[simp] theorem State.fresh_startRun (s : State) (i : Nat) : (s.startRun i).fresh = s.fresh := rfl
@[simp] theorem State.prev_startRun (s : State) (i : Nat) : (s.startRun i).prev = s.prev := rfl
@[simp] theorem State.level_startRun (s : State) (i : Nat) : (s.startRun i).level = s.level := rfl
@[simp] theorem State.pins_startRun (s : State) (i : Nat) : (s.startRun i).pins = s.pins := rfl
@[simp] theorem State.tx_startRun (s : State) (i : Nat) : (s.startRun i).tx = s.tx := rfl
@[simp] theorem State.port_startRun (s : State) (i : Nat) : (s.startRun i).port = s.port := rfl
@[simp] theorem State.changes_startRun (s : State) (i : Nat) : (s.startRun i).changes = s.changes := rfl
@[simp] theorem State.wires_startRun (s : State) (i : Nat) : (s.startRun i).wires = s.wires := rfl
@[simp] theorem State.responses_startRun (s : State) (i : Nat) : (s.startRun i).responses = s.responses := rfl

@[simp] theorem State.cfg_endRun (s : State) : (s.endRun).cfg = s.cfg := rfl
@[simp] theorem State.now_endRun (s : State) : (s.endRun).now = s.now := rfl
@[simp] theorem State.fresh_endRun (s : State) : (s.endRun).fresh = s.fresh := rfl
@[simp] theorem State.prev_endRun (s : State) : (s.endRun).prev = s.prev := rfl
@[simp] theorem State.level_endRun (s : State) : (s.endRun).level = s.level := rfl
@[simp] theorem State.pins_endRun (s : State) : (s.endRun).pins = s.pins := rfl
@[simp] theorem State.tx_endRun (s : State) : (s.endRun).tx = s.tx := rfl
@[simp] theorem State.port_endRun (s : State) : (s.endRun).port = s.port := rfl
@[simp] theorem State.changes_endRun (s : State) : (s.endRun).changes = s.changes := rfl
@[simp] theorem State.wires_endRun (s : State) : (s.endRun).wires = s.wires := rfl
@[simp] theorem State.responses_endRun (s : State) : (s.endRun).responses = s.responses := rfl

@[simp] theorem State.responses_respond (s : State) (v : RespWord) :
    (s.respond v).responses = s.responses ++ [{ tick := s.now, word := v }] := rfl
@[simp] theorem State.isr_startRun (s : State) (i : Nat) :
    (s.startRun i).isr = { busy := true, inst := i, ts := s.now, k := 0, shift := 0#8 } := rfl
@[simp] theorem State.isr_endRun (s : State) : s.endRun.isr = { s.isr with busy := false } := rfl
@[simp] theorem State.slots_startRun (s : State) (i : Nat) : (s.startRun i).slots = (s.detach i).slots := rfl
@[simp] theorem State.slots_endRun (s : State) : s.endRun.slots = (s.attach s.isr.inst).slots := rfl

/-! ## Slots -/

@[simp] theorem State.slots_length_setSlot (s : State) (i : Nat) (x : Slot) :
    (s.setSlot i x).slots.length = s.slots.length := by simp [State.setSlot]
@[simp] theorem State.slots_length_setInst (s : State) (i : Nat) (v : Inst) :
    (s.setInst i v).slots.length = s.slots.length := by simp [State.setInst]
@[simp] theorem State.slots_length_setBuf (s : State) (i : Nat) (v : Buffer) :
    (s.setBuf i v).slots.length = s.slots.length := by simp [State.setBuf]
@[simp] theorem State.slots_length_setRx (s : State) (i : Nat) (v : RxControl) :
    (s.setRx i v).slots.length = s.slots.length := by simp [State.setRx]

theorem State.slot_setSlot (s : State) (i j : Nat) (x : Slot) :
    (s.setSlot i x).slot j = if j = i ∧ i < s.slots.length then x else s.slot j := by
  unfold State.setSlot State.slot
  by_cases hj : j = i
  · subst hj
    by_cases hl : j < s.slots.length
    · simp [List.getD, hl]
    · simp [List.getD, hl]
  · simp [List.getD, List.getElem?_set_ne (Ne.symm hj), hj]

@[simp] theorem State.slot_setSlot_self (s : State) (i : Nat) (x : Slot) (h : i < s.slots.length) :
    (s.setSlot i x).slot i = x := by simp [State.slot_setSlot, h]

theorem State.slot_setSlot_ne (s : State) {i j : Nat} (x : Slot) (h : j ≠ i) :
    (s.setSlot i x).slot j = s.slot j := by simp [State.slot_setSlot, h]

/-- A slot written with what it holds is the slot as it was. -/
@[simp] theorem State.setSlot_slot (s : State) (i : Nat) : s.setSlot i (s.slot i) = s := by
  unfold State.setSlot State.slot
  by_cases h : i < s.slots.length
  · simp [List.getD, h]
  · rw [List.set_eq_of_length_le (by omega)]

theorem State.setSlot_setSlot (s : State) (i : Nat) (x y : Slot) :
    (s.setSlot i x).setSlot i y = s.setSlot i y := by simp [State.setSlot]

/-! ## The three parts of a slot -/

theorem State.inst_setInst (s : State) (i j : Nat) (v : Inst) :
    (s.setInst i v).inst j = if j = i ∧ i < s.slots.length then v else s.inst j := by
  unfold State.setInst State.inst; rw [State.slot_setSlot]; split <;> simp_all
@[simp] theorem State.inst_setInst_self (s : State) (i : Nat) (v : Inst) (h : i < s.slots.length) :
    (s.setInst i v).inst i = v := by simp [State.inst_setInst, h]
theorem State.inst_setInst_ne (s : State) {i j : Nat} (v : Inst) (h : j ≠ i) :
    (s.setInst i v).inst j = s.inst j := by simp [State.inst_setInst, h]
@[simp] theorem State.buf_setInst (s : State) (i j : Nat) (v : Inst) : (s.setInst i v).buf j = s.buf j := by
  unfold State.setInst State.buf; rw [State.slot_setSlot]; split <;> simp_all
@[simp] theorem State.rx_setInst (s : State) (i j : Nat) (v : Inst) : (s.setInst i v).rx j = s.rx j := by
  unfold State.setInst State.rx; rw [State.slot_setSlot]; split <;> simp_all

theorem State.buf_setBuf (s : State) (i j : Nat) (v : Buffer) :
    (s.setBuf i v).buf j = if j = i ∧ i < s.slots.length then v else s.buf j := by
  unfold State.setBuf State.buf; rw [State.slot_setSlot]; split <;> simp_all
@[simp] theorem State.buf_setBuf_self (s : State) (i : Nat) (v : Buffer) (h : i < s.slots.length) :
    (s.setBuf i v).buf i = v := by simp [State.buf_setBuf, h]
theorem State.buf_setBuf_ne (s : State) {i j : Nat} (v : Buffer) (h : j ≠ i) :
    (s.setBuf i v).buf j = s.buf j := by simp [State.buf_setBuf, h]
@[simp] theorem State.inst_setBuf (s : State) (i j : Nat) (v : Buffer) : (s.setBuf i v).inst j = s.inst j := by
  unfold State.setBuf State.inst; rw [State.slot_setSlot]; split <;> simp_all
@[simp] theorem State.rx_setBuf (s : State) (i j : Nat) (v : Buffer) : (s.setBuf i v).rx j = s.rx j := by
  unfold State.setBuf State.rx; rw [State.slot_setSlot]; split <;> simp_all

theorem State.rx_setRx (s : State) (i j : Nat) (v : RxControl) :
    (s.setRx i v).rx j = if j = i ∧ i < s.slots.length then v else s.rx j := by
  unfold State.setRx State.rx; rw [State.slot_setSlot]; split <;> simp_all
@[simp] theorem State.rx_setRx_self (s : State) (i : Nat) (v : RxControl) (h : i < s.slots.length) :
    (s.setRx i v).rx i = v := by simp [State.rx_setRx, h]
theorem State.rx_setRx_ne (s : State) {i j : Nat} (v : RxControl) (h : j ≠ i) :
    (s.setRx i v).rx j = s.rx j := by simp [State.rx_setRx, h]
@[simp] theorem State.inst_setRx (s : State) (i j : Nat) (v : RxControl) : (s.setRx i v).inst j = s.inst j := by
  unfold State.setRx State.inst; rw [State.slot_setSlot]; split <;> simp_all
@[simp] theorem State.buf_setRx (s : State) (i j : Nat) (v : RxControl) : (s.setRx i v).buf j = s.buf j := by
  unfold State.setRx State.buf; rw [State.slot_setSlot]; split <;> simp_all

/-- A slot is its three parts. -/
theorem State.slot_eq (s : State) (i : Nat) : s.slot i = { inst := s.inst i, buf := s.buf i, rx := s.rx i } := rfl

/-! ## Slots and the updates that do not write them -/

theorem State.slot_congr {s t : State} (h : t.slots = s.slots) (i : Nat) : t.slot i = s.slot i := by
  unfold State.slot; rw [h]
theorem State.inst_congr {s t : State} (h : t.slots = s.slots) (i : Nat) : t.inst i = s.inst i := by
  unfold State.inst; rw [State.slot_congr h]
theorem State.buf_congr {s t : State} (h : t.slots = s.slots) (i : Nat) : t.buf i = s.buf i := by
  unfold State.buf; rw [State.slot_congr h]
theorem State.rx_congr {s t : State} (h : t.slots = s.slots) (i : Nat) : t.rx i = s.rx i := by
  unfold State.rx; rw [State.slot_congr h]

@[simp] theorem State.slot_setPin (s : State) (p : Pin) (v : PinState) (i : Nat) : (s.setPin p v).slot i = s.slot i := rfl
@[simp] theorem State.inst_setPin (s : State) (p : Pin) (v : PinState) (i : Nat) : (s.setPin p v).inst i = s.inst i := rfl
@[simp] theorem State.buf_setPin (s : State) (p : Pin) (v : PinState) (i : Nat) : (s.setPin p v).buf i = s.buf i := rfl
@[simp] theorem State.rx_setPin (s : State) (p : Pin) (v : PinState) (i : Nat) : (s.setPin p v).rx i = s.rx i := rfl
@[simp] theorem State.slot_gpioConfigure (s : State) (p : Pin) (m : PinDir) (u d : Bool) (i : Nat) : (s.gpioConfigure p m u d).slot i = s.slot i := rfl
@[simp] theorem State.inst_gpioConfigure (s : State) (p : Pin) (m : PinDir) (u d : Bool) (i : Nat) : (s.gpioConfigure p m u d).inst i = s.inst i := rfl
@[simp] theorem State.buf_gpioConfigure (s : State) (p : Pin) (m : PinDir) (u d : Bool) (i : Nat) : (s.gpioConfigure p m u d).buf i = s.buf i := rfl
@[simp] theorem State.rx_gpioConfigure (s : State) (p : Pin) (m : PinDir) (u d : Bool) (i : Nat) : (s.gpioConfigure p m u d).rx i = s.rx i := rfl
@[simp] theorem State.slot_gpioSet (s : State) (p : Pin) (v : Level) (i : Nat) : (s.gpioSet p v).slot i = s.slot i := rfl
@[simp] theorem State.inst_gpioSet (s : State) (p : Pin) (v : Level) (i : Nat) : (s.gpioSet p v).inst i = s.inst i := rfl
@[simp] theorem State.buf_gpioSet (s : State) (p : Pin) (v : Level) (i : Nat) : (s.gpioSet p v).buf i = s.buf i := rfl
@[simp] theorem State.rx_gpioSet (s : State) (p : Pin) (v : Level) (i : Nat) : (s.gpioSet p v).rx i = s.rx i := rfl
@[simp] theorem State.slot_respond (s : State) (v : RespWord) (i : Nat) : (s.respond v).slot i = s.slot i := rfl
@[simp] theorem State.inst_respond (s : State) (v : RespWord) (i : Nat) : (s.respond v).inst i = s.inst i := rfl
@[simp] theorem State.buf_respond (s : State) (v : RespWord) (i : Nat) : (s.respond v).buf i = s.buf i := rfl
@[simp] theorem State.rx_respond (s : State) (v : RespWord) (i : Nat) : (s.respond v).rx i = s.rx i := rfl
@[simp] theorem State.slot_startRun (s : State) (i j : Nat) : (s.startRun i).slot j = (s.detach i).slot j := rfl
@[simp] theorem State.slot_endRun (s : State) (j : Nat) : s.endRun.slot j = (s.attach s.isr.inst).slot j := rfl
@[simp] theorem State.inst_startRun (s : State) (i j : Nat) : (s.startRun i).inst j = (s.detach i).inst j := rfl
@[simp] theorem State.inst_endRun (s : State) (j : Nat) : s.endRun.inst j = (s.attach s.isr.inst).inst j := rfl
@[simp] theorem State.buf_startRun (s : State) (i j : Nat) : (s.startRun i).buf j = (s.detach i).buf j := rfl
@[simp] theorem State.buf_endRun (s : State) (j : Nat) : s.endRun.buf j = (s.attach s.isr.inst).buf j := rfl
@[simp] theorem State.rx_startRun (s : State) (i j : Nat) : (s.startRun i).rx j = (s.detach i).rx j := rfl
@[simp] theorem State.rx_endRun (s : State) (j : Nat) : s.endRun.rx j = (s.attach s.isr.inst).rx j := rfl

/-! ## Attach, detach, flag, head and storage writes -/

@[simp] theorem State.inst_attach (s : State) (i j : Nat) : (s.attach i).inst j = s.inst j := by simp [State.attach]
@[simp] theorem State.buf_attach (s : State) (i j : Nat) : (s.attach i).buf j = s.buf j := by simp [State.attach]
@[simp] theorem State.inst_detach (s : State) (i j : Nat) : (s.detach i).inst j = s.inst j := by simp [State.detach]
@[simp] theorem State.buf_detach (s : State) (i j : Nat) : (s.detach i).buf j = s.buf j := by simp [State.detach]
theorem State.rx_attach (s : State) (i j : Nat) : (s.attach i).rx j =
    if j = i ∧ i < s.slots.length then { attached := true, pend := false } else s.rx j := s.rx_setRx i j _
theorem State.rx_detach (s : State) (i j : Nat) : (s.detach i).rx j =
    if j = i ∧ i < s.slots.length then { attached := false, pend := false } else s.rx j := s.rx_setRx i j _
@[simp] theorem State.slots_length_attach (s : State) (i : Nat) : (s.attach i).slots.length = s.slots.length := by
  simp [State.attach]
@[simp] theorem State.slots_length_detach (s : State) (i : Nat) : (s.detach i).slots.length = s.slots.length := by
  simp [State.detach]

@[simp] theorem State.inst_setOverflow (s : State) (i j : Nat) : (s.setOverflow i).inst j = s.inst j := by
  simp [State.setOverflow]
@[simp] theorem State.rx_setOverflow (s : State) (i j : Nat) : (s.setOverflow i).rx j = s.rx j := by
  simp [State.setOverflow]
@[simp] theorem State.inst_clearOverflow (s : State) (i j : Nat) : (s.clearOverflow i).inst j = s.inst j := by
  simp [State.clearOverflow]
@[simp] theorem State.rx_clearOverflow (s : State) (i j : Nat) : (s.clearOverflow i).rx j = s.rx j := by
  simp [State.clearOverflow]
@[simp] theorem State.inst_popAdvance (s : State) (i j : Nat) : (s.popAdvance i).inst j = s.inst j := by
  simp [State.popAdvance]
@[simp] theorem State.rx_popAdvance (s : State) (i j : Nat) : (s.popAdvance i).rx j = s.rx j := by
  simp [State.popAdvance]
@[simp] theorem State.inst_bufWrite (s : State) (i j pos : Nat) (v : Byte) :
    (s.bufWrite i pos v).inst j = s.inst j := by simp [State.bufWrite]
@[simp] theorem State.rx_bufWrite (s : State) (i j pos : Nat) (v : Byte) : (s.bufWrite i pos v).rx j = s.rx j := by
  simp [State.bufWrite]
@[simp] theorem State.slots_length_setOverflow (s : State) (i : Nat) :
    (s.setOverflow i).slots.length = s.slots.length := by simp [State.setOverflow]
@[simp] theorem State.slots_length_clearOverflow (s : State) (i : Nat) :
    (s.clearOverflow i).slots.length = s.slots.length := by simp [State.clearOverflow]
@[simp] theorem State.slots_length_popAdvance (s : State) (i : Nat) :
    (s.popAdvance i).slots.length = s.slots.length := by simp [State.popAdvance]
@[simp] theorem State.slots_length_bufWrite (s : State) (i pos : Nat) (v : Byte) :
    (s.bufWrite i pos v).slots.length = s.slots.length := by simp [State.bufWrite]

/-! ## Pins -/

theorem State.pin_setPin (s : State) (p q : Pin) (v : PinState) :
    (s.setPin p v).pin q = if q = p then v else s.pin q := by
  unfold State.setPin State.pin
  rw [tableRead_write]
  by_cases h : q = p
  · simp [h]
  · have : q.toNat ≠ p.toNat := fun hn => h (BitVec.eq_of_toNat_eq hn)
    simp [h, this]
@[simp] theorem State.pin_setPin_self (s : State) (p : Pin) (v : PinState) : (s.setPin p v).pin p = v := by
  simp [State.pin_setPin]
theorem State.pin_gpioSet (s : State) (p q : Pin) (v : Level) :
    (s.gpioSet p v).pin q = if q = p then { s.pin p with out := v } else s.pin q := s.pin_setPin p q _
theorem State.pin_gpioConfigure (s : State) (p q : Pin) (m : PinDir) (u d : Bool) :
    (s.gpioConfigure p m u d).pin q =
      if q = p then { s.pin p with dir := m, pullUp := u, pullDown := d } else s.pin q := s.pin_setPin p q _
@[simp] theorem State.pin_respond (s : State) (v : RespWord) (p : Pin) : (s.respond v).pin p = s.pin p := rfl
@[simp] theorem State.pin_setInst (s : State) (i : Nat) (v : Inst) (p : Pin) : (s.setInst i v).pin p = s.pin p := rfl
@[simp] theorem State.pin_setBuf (s : State) (i : Nat) (v : Buffer) (p : Pin) : (s.setBuf i v).pin p = s.pin p := rfl
@[simp] theorem State.pin_setRx (s : State) (i : Nat) (v : RxControl) (p : Pin) : (s.setRx i v).pin p = s.pin p := rfl
theorem State.pin_congr {s t : State} (h : t.pins = s.pins) (p : Pin) : t.pin p = s.pin p := by
  unfold State.pin; rw [h]

/-! ## The reset event -/

@[simp] theorem State.slot_restart (s : State) (i : Nat) : s.restart.slot i = Slot.reset := by
  simp [State.slot, State.restart, List.getD]
@[simp] theorem State.pin_restart (s : State) (p : Pin) : s.restart.pin p = PinState.unconfigured := rfl
@[simp] theorem State.out_restart (s : State) (p : Pin) : s.restart.out p = none := rfl

/-! ## The active predicate -/

theorem State.isActive_congr {s t : State} (hc : t.cfg = s.cfg) (i : Nat)
    (h : (t.inst i).baudRate = (s.inst i).baudRate) : t.isActive i = s.isActive i := by
  unfold State.isActive; rw [hc, h]
theorem State.isActive_iff (s : State) (i : Nat) :
    s.isActive i = true ↔ i < s.cfg.nInst ∧ (s.inst i).baudRate ≠ 0#32 := by
  simp [State.isActive]
theorem State.gate_iff (s : State) (idx : Index) :
    s.gate idx = true ↔ idx.toNat < s.cfg.nInst ∧ (s.inst idx.toNat).baudRate ≠ 0#32 := s.isActive_iff _

end Sys2Proof.Machine
end

