-- ==== Sys2Proof/Laws/Ring.lean ====
section
/-! SUPPORT. What append and pop do to a buffer, said once (spec/20_memory.md R62 to R69). -/

namespace Sys2Proof.Machine

theorem nextPos_lt {cap x : Nat} (h : 0 < cap) : nextPos cap x < cap := Nat.mod_lt _ h

theorem Buffer.occupancy_lt {cap : Nat} (b : Buffer) (h : 0 < cap) : b.occupancy cap < cap := Nat.mod_lt _ h

/-- `(tail - head + cap) mod cap` without the modulus. -/
theorem Buffer.occupancy_eq {cap : Nat} {b : Buffer} (hh : b.head < cap) (ht : b.tail < cap) :
    b.occupancy cap = if b.head ≤ b.tail then b.tail - b.head else b.tail + cap - b.head := by
  unfold Buffer.occupancy
  split
  · rw [show b.tail + cap - b.head = (b.tail - b.head) + cap by omega, Nat.add_mod_right,
      Nat.mod_eq_of_lt (by omega)]
  · exact Nat.mod_eq_of_lt (by omega)

theorem nextPos_eq {cap x : Nat} (h : x < cap) : nextPos cap x = if x + 1 = cap then 0 else x + 1 := by
  unfold nextPos
  split
  · next h' => rw [h', Nat.mod_self]
  · exact Nat.mod_eq_of_lt (by omega)

/-! ## Append (R66) -/

/-- An append writes only the buffer of its instance. -/
@[simp] theorem State.cfg_append (s : State) (i : Nat) (b : Byte) : (s.append i b).cfg = s.cfg := by
  unfold State.append; split <;> simp
@[simp] theorem State.now_append (s : State) (i : Nat) (b : Byte) : (s.append i b).now = s.now := by
  unfold State.append; split <;> simp
@[simp] theorem State.fresh_append (s : State) (i : Nat) (b : Byte) : (s.append i b).fresh = s.fresh := by
  unfold State.append; split <;> simp
@[simp] theorem State.prev_append (s : State) (i : Nat) (b : Byte) : (s.append i b).prev = s.prev := by
  unfold State.append; split <;> simp
@[simp] theorem State.level_append (s : State) (i : Nat) (b : Byte) : (s.append i b).level = s.level := by
  unfold State.append; split <;> simp
@[simp] theorem State.pins_append (s : State) (i : Nat) (b : Byte) : (s.append i b).pins = s.pins := by
  unfold State.append; split <;> simp
@[simp] theorem State.isr_append (s : State) (i : Nat) (b : Byte) : (s.append i b).isr = s.isr := by
  unfold State.append; split <;> simp
@[simp] theorem State.tx_append (s : State) (i : Nat) (b : Byte) : (s.append i b).tx = s.tx := by
  unfold State.append; split <;> simp
@[simp] theorem State.port_append (s : State) (i : Nat) (b : Byte) : (s.append i b).port = s.port := by
  unfold State.append; split <;> simp
@[simp] theorem State.changes_append (s : State) (i : Nat) (b : Byte) : (s.append i b).changes = s.changes := by
  unfold State.append; split <;> simp
@[simp] theorem State.wires_append (s : State) (i : Nat) (b : Byte) : (s.append i b).wires = s.wires := by
  unfold State.append; split <;> simp
@[simp] theorem State.responses_append (s : State) (i : Nat) (b : Byte) :
    (s.append i b).responses = s.responses := by
  unfold State.append; split <;> simp
@[simp] theorem State.slots_length_append (s : State) (i : Nat) (b : Byte) :
    (s.append i b).slots.length = s.slots.length := by
  unfold State.append; split <;> simp
@[simp] theorem State.inst_append (s : State) (i j : Nat) (b : Byte) : (s.append i b).inst j = s.inst j := by
  unfold State.append; split <;> simp
@[simp] theorem State.rx_append (s : State) (i j : Nat) (b : Byte) : (s.append i b).rx j = s.rx j := by
  unfold State.append; split <;> simp

theorem State.buf_append (s : State) (i j : Nat) (v : Byte) :
    (s.append i v).buf j =
      if j = i ∧ i < s.slots.length then (s.buf i).appended s.cfg.bufCap v else s.buf j := by
  unfold State.append Buffer.appended
  by_cases hf : (s.buf i).isFull s.cfg.bufCap = true
  · simp only [hf, if_true, State.setOverflow, State.buf_setBuf]
  · simp only [hf, State.bufWrite]
    by_cases hj : j = i <;> by_cases hl : i < s.slots.length <;> simp [State.buf_setBuf, hj, hl]

theorem Buffer.head_appended (cap : Nat) (b : Buffer) (v : Byte) : (b.appended cap v).head = b.head := by
  unfold Buffer.appended; split <;> rfl

/-- An append keeps both indices in range and the storage canonical. -/
theorem Buffer.wf_appended {cap : Nat} {b : Buffer} (v : Byte) (h : b.wf cap) : (b.appended cap v).wf cap := by
  obtain ⟨hh, ht, hs⟩ := h
  unfold Buffer.appended
  split
  · exact ⟨hh, ht, hs⟩
  · exact ⟨hh, nextPos_lt (by omega), Memory.wf_write v hs ht⟩

/-! ## Pop (R67) -/

theorem State.buf_popAdvance (s : State) (i j : Nat) :
    (s.popAdvance i).buf j =
      if j = i ∧ i < s.slots.length then { s.buf i with head := nextPos s.cfg.bufCap (s.buf i).head }
      else s.buf j := s.buf_setBuf i j _

/-- The head advancing keeps the buffer sound. -/
theorem Buffer.wf_popped {cap : Nat} {b : Buffer} (h : b.wf cap) :
    Buffer.wf cap { b with head := nextPos cap b.head } :=
  ⟨nextPos_lt (by have := h.1; omega), h.2.1, h.2.2⟩

end Sys2Proof.Machine
end

