-- ==== Sys2Proof/Laws/Transmit.lean ====
section
/-! SUPPORT. What the transmit sequencer can do in a tick, said once: it writes `tx`, one pin's level and the response
port, nothing else (spec/43_transmit_engine.md R222, R227; spec/60_exceptions.md R297). -/

namespace Sys2Proof.Machine

/-- What the transmit sequencer leaves alone. -/
structure TxFrame (s t : State) : Prop where
  cfg : t.cfg = s.cfg
  now : t.now = s.now
  fresh : t.fresh = s.fresh
  prev : t.prev = s.prev
  level : t.level = s.level
  slots : t.slots = s.slots
  isr : t.isr = s.isr
  port : t.port = s.port
  changes : t.changes = s.changes
  wires : t.wires = s.wires

theorem TxFrame.refl (s : State) : TxFrame s s := ⟨rfl, rfl, rfl, rfl, rfl, rfl, rfl, rfl, rfl, rfl⟩

theorem TxFrame.trans {s t u : State} (h : TxFrame s t) (k : TxFrame t u) : TxFrame s u where
  cfg := k.cfg.trans h.cfg
  now := k.now.trans h.now
  fresh := k.fresh.trans h.fresh
  prev := k.prev.trans h.prev
  level := k.level.trans h.level
  slots := k.slots.trans h.slots
  isr := k.isr.trans h.isr
  port := k.port.trans h.port
  changes := k.changes.trans h.changes
  wires := k.wires.trans h.wires

theorem TxFrame.inst {s t : State} (h : TxFrame s t) (i : Nat) : t.inst i = s.inst i := State.inst_congr h.slots i
theorem TxFrame.buf {s t : State} (h : TxFrame s t) (i : Nat) : t.buf i = s.buf i := State.buf_congr h.slots i
theorem TxFrame.rx {s t : State} (h : TxFrame s t) (i : Nat) : t.rx i = s.rx i := State.rx_congr h.slots i
theorem TxFrame.isActive {s t : State} (h : TxFrame s t) (i : Nat) : t.isActive i = s.isActive i :=
  State.isActive_congr h.cfg i (by rw [h.inst])
theorem TxFrame.bitPeriod {s t : State} (h : TxFrame s t) (i : Nat) : t.bitPeriod i = s.bitPeriod i := by
  unfold State.bitPeriod; rw [h.inst]

/-! ## Single actions -/

theorem State.beginPut_frame (s : State) (i : Nat) (b : Byte) (rest : List Byte) : TxFrame s (s.beginPut i b rest) :=
  ⟨rfl, rfl, rfl, rfl, rfl, rfl, rfl, rfl, rfl, rfl⟩

@[simp] theorem State.tx_beginPut (s : State) (i : Nat) (b : Byte) (rest : List Byte) :
    (s.beginPut i b rest).tx = { busy := true, inst := i, byte := b, t0 := s.now, j := 1, rest := rest } := rfl
@[simp] theorem State.now_beginPut (s : State) (i : Nat) (b : Byte) (rest : List Byte) :
    (s.beginPut i b rest).now = s.now := rfl
@[simp] theorem State.responses_beginPut (s : State) (i : Nat) (b : Byte) (rest : List Byte) :
    (s.beginPut i b rest).responses = s.responses := rfl
@[simp] theorem State.pins_beginPut (s : State) (i : Nat) (b : Byte) (rest : List Byte) :
    (s.beginPut i b rest).pins = (s.gpioSet (s.inst i).txPin false).pins := rfl

theorem State.txWrite_frame (s : State) : TxFrame s s.txWrite :=
  ⟨rfl, rfl, rfl, rfl, rfl, rfl, rfl, rfl, rfl, rfl⟩

@[simp] theorem State.tx_txWrite (s : State) : s.txWrite.tx = { s.tx with j := s.tx.j + 1 } := rfl
@[simp] theorem State.now_txWrite (s : State) : s.txWrite.now = s.now := rfl
@[simp] theorem State.responses_txWrite (s : State) : s.txWrite.responses = s.responses := rfl
@[simp] theorem State.pins_txWrite (s : State) :
    s.txWrite.pins = (s.gpioSet (s.inst s.tx.inst).txPin (frameLevel s.tx.byte s.tx.j)).pins := rfl

theorem State.txFinish_frame (s : State) (v : RespWord) : TxFrame s (s.txFinish v) :=
  ⟨rfl, rfl, rfl, rfl, rfl, rfl, rfl, rfl, rfl, rfl⟩

@[simp] theorem State.tx_txFinish (s : State) (v : RespWord) : (s.txFinish v).tx = { s.tx with busy := false } := rfl
@[simp] theorem State.pins_txFinish (s : State) (v : RespWord) : (s.txFinish v).pins = s.pins := rfl
@[simp] theorem State.responses_txFinish (s : State) (v : RespWord) :
    (s.txFinish v).responses = s.responses ++ [{ tick := s.now, word := v }] := rfl

/-! ## The pin writes of a tick -/

/-- A property that one due pin write keeps is kept by all of them. -/
theorem State.txWrites_induct {P : State → Prop} (hs : ∀ s, P s → s.writeDue = true → P s.txWrite)
    (n : Nat) (s : State) (h : P s) : P (State.txWrites n s) := by
  induction n generalizing s with
  | zero => exact h
  | succ n ih =>
    unfold State.txWrites
    split
    · next hd => exact ih _ (hs s h hd)
    · exact h

theorem State.txWrites_frame (n : Nat) (s : State) : TxFrame s (State.txWrites n s) :=
  State.txWrites_induct (P := fun t => TxFrame s t) (fun t h _ => h.trans t.txWrite_frame) n s (TxFrame.refl s)

/-- Pin writes move only the frame index of `tx`, and issue no response. -/
theorem State.txWrites_tx (n : Nat) (s : State) :
    (State.txWrites n s).tx = { s.tx with j := (State.txWrites n s).tx.j } ∧
      (State.txWrites n s).responses = s.responses :=
  State.txWrites_induct (P := fun t => t.tx = { s.tx with j := t.tx.j } ∧ t.responses = s.responses)
    (fun t h _ => ⟨by rw [State.tx_txWrite, h.1], h.2⟩) n s ⟨rfl, rfl⟩

theorem State.txPeriod_txWrite (s : State) : s.txWrite.txPeriod = s.txPeriod := rfl

/-- With fuel for the frame left, no pin write is due afterwards. -/
theorem State.txWrites_done (n : Nat) (s : State) (h : 10 ≤ s.tx.j + n) :
    (State.txWrites n s).writeDue = false := by
  induction n generalizing s with
  | zero =>
    have : ¬ s.tx.j ≤ 9 := by omega
    simp [State.txWrites, State.writeDue, this]
  | succ n ih =>
    unfold State.txWrites
    split
    · exact ih _ (by simp; omega)
    · next hd => simpa using hd

theorem State.txWrites_of_not_due (n : Nat) (s : State) (h : s.writeDue = false) : State.txWrites n s = s := by
  cases n with
  | zero => rfl
  | succ n => simp [State.txWrites, h]

/-! ## The tick of the transmit sequencer -/

/-- One byte's part of a tick: the due pin writes, then, when the PUT returns, the end of the operation or the next
PUT (R292). -/
theorem State.txAdvance_nil (s : State) :
    s.txAdvance [] =
      if (State.txWrites 10 s).putReturns then (State.txWrites 10 s).txFinish (respBool true)
      else State.txWrites 10 s := by
  simp only [State.txAdvance]

theorem State.txAdvance_cons (s : State) (b : Byte) (bs : List Byte) :
    s.txAdvance (b :: bs) =
      if (State.txWrites 10 s).putReturns then
        if (State.txWrites 10 s).isActive (State.txWrites 10 s).tx.inst then
          ((State.txWrites 10 s).beginPut (State.txWrites 10 s).tx.inst b bs).txAdvance bs
        else (State.txWrites 10 s).txFinish (respBool false)
      else State.txWrites 10 s := by
  simp only [State.txAdvance]

/-- A property that pin writes, the beginning of the next PUT and the end of the operation keep is kept by the tick of
the transmit sequencer. -/
theorem State.txAdvance_induct {P : State → Prop} (hw : ∀ s, P s → P (State.txWrites 10 s))
    (hb : ∀ s b bs, P s → s.putReturns = true → s.isActive s.tx.inst = true → P (s.beginPut s.tx.inst b bs))
    (hf : ∀ s v, P s → s.putReturns = true → P (s.txFinish v))
    (rest : List Byte) (s : State) (h : P s) : P (s.txAdvance rest) := by
  induction rest generalizing s with
  | nil =>
    rw [State.txAdvance_nil]
    split
    · next hr => exact hf _ _ (hw s h) hr
    · exact hw s h
  | cons b bs ih =>
    rw [State.txAdvance_cons]
    split
    · next hr =>
      split
      · next ha => exact ih _ (hb _ b bs (hw s h) hr ha)
      · exact hf _ _ (hw s h) hr
    · exact hw s h

theorem State.txAdvance_frame (rest : List Byte) (s : State) : TxFrame s (s.txAdvance rest) :=
  State.txAdvance_induct (P := fun t => TxFrame s t) (fun t h => h.trans (State.txWrites_frame 10 t))
    (fun t b bs h _ _ => h.trans (t.beginPut_frame _ b bs)) (fun t v h _ => h.trans (t.txFinish_frame v)) rest s
    (TxFrame.refl s)

/-- From a PUT in progress, a tick of the transmit sequencer either leaves it in progress with no response issued, or
completes the operation with one response (R90, R93). -/
theorem State.txAdvance_responses (rest : List Byte) (s : State) (h : s.tx.busy = true) :
    ((s.txAdvance rest).tx.busy = true ∧ (s.txAdvance rest).responses = s.responses) ∨
    ((s.txAdvance rest).tx.busy = false ∧
      ∃ v, (s.txAdvance rest).responses = s.responses ++ [{ tick := s.now, word := v }]) := by
  induction rest generalizing s with
  | nil =>
    have hw := State.txWrites_tx 10 s
    have hn := (State.txWrites_frame 10 s).now
    rw [State.txAdvance_nil]
    split
    · exact .inr ⟨rfl, _, by rw [State.responses_txFinish, hw.2, hn]⟩
    · exact .inl ⟨by rw [hw.1]; exact h, hw.2⟩
  | cons b bs ih =>
    have hw := State.txWrites_tx 10 s
    have hn := (State.txWrites_frame 10 s).now
    rw [State.txAdvance_cons]
    split
    · split
      · have hih := ih ((State.txWrites 10 s).beginPut (State.txWrites 10 s).tx.inst b bs) rfl
        rw [State.responses_beginPut, State.now_beginPut, hw.2, hn] at hih
        exact hih
      · exact .inr ⟨rfl, _, by rw [State.responses_txFinish, hw.2, hn]⟩
    · exact .inl ⟨by rw [hw.1]; exact h, hw.2⟩

theorem State.transmitStep_frame (s : State) : TxFrame s s.transmitStep := by
  unfold State.transmitStep
  split
  · exact State.txAdvance_frame _ s
  · exact TxFrame.refl s

end Sys2Proof.Machine
end

