-- ==== Sys2Proof/Laws/Exec.lean ====
section
/-! SUPPORT. What the meaning of a host operation can do, said once: the case analysis of each meaning, and what every
one of them leaves alone (spec/60_exceptions.md R297). -/

namespace Sys2Proof.Machine

theorem ExecFrame.refl (s : State) : ExecFrame s s := ⟨rfl, rfl, rfl, rfl, rfl, rfl, rfl, rfl, rfl, rfl⟩

theorem TxFrame.execFrame {s t : State} (h : TxFrame s t) : ExecFrame s t :=
  ⟨h.cfg, h.now, h.fresh, h.prev, h.level, h.isr, h.port, h.changes, h.wires, by rw [h.slots]⟩

/-! ## The parts of OPEN and CLOSE -/

theorem State.closePrior_frame (s : State) (i : Nat) : ExecFrame s (s.closePrior i) := by
  unfold State.closePrior
  split
  · exact ⟨rfl, rfl, rfl, rfl, rfl, rfl, rfl, rfl, rfl, by simp⟩
  · exact ExecFrame.refl s

theorem State.openSuccess_frame (s : State) (i : Nat) (baud : Baud) (rx tx : Pin) :
    ExecFrame s (s.openSuccess i baud rx tx) := by
  have h := s.closePrior_frame i
  constructor <;>
    simp [State.openSuccess, State.activate, State.configurePins, State.configure, h.cfg, h.now, h.fresh, h.prev,
      h.level, h.isr, h.port, h.changes, h.wires, h.slots_length]

theorem State.closeSuccess_frame (s : State) (i : Nat) : ExecFrame s (s.closeSuccess i) :=
  ⟨rfl, rfl, rfl, rfl, rfl, rfl, rfl, rfl, rfl, by simp [State.closeSuccess]⟩

@[simp] theorem State.pins_closePrior (s : State) (i : Nat) : (s.closePrior i).pins = s.pins := by
  unfold State.closePrior; split <;> simp
@[simp] theorem State.tx_closePrior (s : State) (i : Nat) : (s.closePrior i).tx = s.tx := by
  unfold State.closePrior; split <;> simp
@[simp] theorem State.responses_closePrior (s : State) (i : Nat) : (s.closePrior i).responses = s.responses := by
  unfold State.closePrior; split <;> simp
@[simp] theorem State.slots_length_closePrior (s : State) (i : Nat) :
    (s.closePrior i).slots.length = s.slots.length := (s.closePrior_frame i).slots_length
@[simp] theorem State.tx_openSuccess (s : State) (i : Nat) (baud : Baud) (rx tx : Pin) :
    (s.openSuccess i baud rx tx).tx = s.tx := by
  simp [State.openSuccess, State.activate, State.configurePins, State.configure]
@[simp] theorem State.responses_openSuccess (s : State) (i : Nat) (baud : Baud) (rx tx : Pin) :
    (s.openSuccess i baud rx tx).responses = s.responses := by
  simp [State.openSuccess, State.activate, State.configurePins, State.configure]

theorem State.slot_closePrior_ne (s : State) {i j : Nat} (h : j ≠ i) : (s.closePrior i).slot j = s.slot j := by
  unfold State.closePrior
  split
  · simp [State.setInst, State.detach, State.setRx, State.slot_setSlot_ne _ _ h]
  · rfl

/-- The slot OPEN leaves behind (R158). -/
theorem State.slot_openSuccess_self (s : State) (i : Nat) (baud : Baud) (rx tx : Pin) (h : i < s.slots.length) :
    (s.openSuccess i baud rx tx).slot i =
      { inst := { rxPin := rx, txPin := tx, baudRate := baud, bitPeriod := bitPeriodReg baud }
        buf := { storage := (s.buf i).storage, head := 0, tail := 0, overflowFlag := false }
        rx := { attached := true, pend := false } } := by
  have hb : ((s.closePrior i).buf i).storage = (s.buf i).storage := by
    unfold State.closePrior; split <;> simp
  rw [State.slot_eq]
  simp [State.openSuccess, State.activate, State.configurePins, State.configure, State.rx_attach, h, hb]

theorem State.slot_openSuccess_ne (s : State) {i j : Nat} (baud : Baud) (rx tx : Pin) (h : j ≠ i) :
    (s.openSuccess i baud rx tx).slot j = s.slot j := by
  rw [← s.slot_closePrior_ne h]
  simp [State.openSuccess, State.activate, State.configurePins, State.configure, State.setInst, State.attach,
    State.setRx, State.setBuf, State.slot_setSlot_ne _ _ h]

/-- The pins OPEN leaves behind (R158). -/
theorem State.pin_openSuccess (s : State) (i : Nat) (baud : Baud) (rx tx q : Pin) :
    (s.openSuccess i baud rx tx).pin q =
      if q = tx then { dir := .output, pullUp := true, pullDown := false, out := true }
      else if q = rx then { s.pin rx with dir := .input, pullUp := true, pullDown := false }
      else s.pin q := by
  have hp : (s.openSuccess i baud rx tx).pins = (s.configurePins rx tx).pins := by
    simp only [State.openSuccess, State.activate, State.configurePins, State.configure, State.gpioSet,
      State.gpioConfigure, State.setPin, State.pin, State.pins_setInst, State.pins_attach, State.pins_setBuf,
      State.pins_closePrior]
  rw [State.pin_congr hp]
  simp only [State.configurePins, State.pin_gpioSet, State.pin_gpioConfigure]
  by_cases hq : q = tx
  · simp [hq, idleLevel]
  · simp [hq]

/-- The slot CLOSE leaves behind (R162). -/
theorem State.slot_closeSuccess_self (s : State) (i : Nat) (h : i < s.slots.length) :
    (s.closeSuccess i).slot i =
      { inst := { s.inst i with baudRate := 0#32 }, buf := s.buf i, rx := { attached := false, pend := false } } := by
  rw [State.slot_eq]
  simp [State.closeSuccess, State.rx_detach, h]

theorem State.slot_closeSuccess_ne (s : State) {i j : Nat} (h : j ≠ i) : (s.closeSuccess i).slot j = s.slot j := by
  simp [State.closeSuccess, State.setInst, State.detach, State.setRx, State.slot_setSlot_ne _ _ h]

/-! ## The failures of OPEN -/

/-- The conflict check of OPEN in the words of R157. -/
theorem State.pinConflict_iff (s : State) (i : Nat) (rx tx : Pin) :
    s.pinConflict i rx tx = true ↔
      ∃ j, j < s.cfg.nInst ∧ j ≠ i ∧ s.isActive j = true ∧ s.sharesPin j rx tx = true := by
  simp [State.pinConflict, and_assoc]

theorem State.sharesPin_iff (s : State) (j : Nat) (rx tx : Pin) :
    s.sharesPin j rx tx = true ↔
      rx = (s.inst j).rxPin ∨ rx = (s.inst j).txPin ∨ tx = (s.inst j).rxPin ∨ tx = (s.inst j).txPin := by
  simp [State.sharesPin, or_assoc]

theorem State.openFails_iff (s : State) (idx : Index) (baud : Baud) (rx tx : Pin) :
    s.openFails idx baud rx tx = true ↔
      s.cfg.nInst ≤ idx.toNat ∨ baud = 0#32 ∨ rx = tx ∨ s.pinConflict idx.toNat rx tx = true := by
  simp [State.openFails, State.indexInRange, or_assoc]

/-! ## Inversion: what each meaning answers -/

theorem execOpen_cases {idx : Index} {baud : Baud} {rx tx : Pin} {s t : State}
    (h : execOpen idx baud rx tx s = .next t) :
    (s.openFails idx baud rx tx = true ∧ t = s.respond 0#32) ∨
    (s.openFails idx baud rx tx = false ∧ s.receivingFor idx = false ∧
      t = (s.openSuccess idx.toNat baud rx tx).respond 1#32) := by
  unfold execOpen at h
  split at h
  · next hf => cases h; exact .inl ⟨hf, rfl⟩
  · next hf =>
    split at h
    · cases h
    · next hr => cases h; exact .inr ⟨by simpa using hf, by simpa using hr, rfl⟩

theorem execClose_cases {idx : Index} {s t : State} (h : execClose idx s = .next t) :
    (s.indexInRange idx = false ∧ t = s.respond 0#32) ∨
    (s.indexInRange idx = true ∧ s.receivingFor idx = false ∧ t = (s.closeSuccess idx.toNat).respond 1#32) := by
  unfold execClose at h
  split at h
  · next hf => cases h; exact .inl ⟨by simpa using hf, rfl⟩
  · next hf =>
    split at h
    · cases h
    · next hr => cases h; exact .inr ⟨by simpa using hf, by simpa using hr, rfl⟩

theorem execPut_cases {idx : Index} {b : Byte} {s t : State} (h : execPut idx b s = .next t) :
    (s.gate idx = false ∧ t = s.respond 0#32) ∨
    (s.gate idx = true ∧ t = (s.beginPut idx.toNat b []).txAdvance []) := by
  unfold execPut at h
  split at h
  · next hg => cases h; exact .inr ⟨hg, rfl⟩
  · next hg => cases h; exact .inl ⟨by simpa using hg, rfl⟩

theorem execPuts_cases {idx : Index} {text : List Byte} {s t : State} (h : execPuts idx text s = .next t) :
    (s.gate idx = false ∧ t = s.respond 0#32) ∨
    (s.gate idx = true ∧ text = [] ∧ t = s.respond 1#32) ∨
    (s.gate idx = true ∧ ∃ b bs, text = b :: bs ∧ t = (s.beginPut idx.toNat b bs).txAdvance bs) := by
  unfold execPuts at h
  split at h
  · next hg =>
    cases text with
    | nil => cases h; exact .inr (.inl ⟨hg, rfl, rfl⟩)
    | cons b bs => cases h; exact .inr (.inr ⟨hg, b, bs, rfl, rfl⟩)
  · next hg => cases h; exact .inl ⟨by simpa using hg, rfl⟩

theorem execRead_cases {idx : Index} {s t : State} (h : execRead idx s = .next t) :
    ((s.gate idx = false ∨ (s.buf idx.toNat).isEmpty = true) ∧ t = s.respond 0#32) ∨
    (s.gate idx = true ∧ (s.buf idx.toNat).isEmpty = false ∧
      t = (s.popAdvance idx.toNat).respond (respByte (s.popByte idx.toNat))) := by
  unfold execRead at h
  split at h
  · next hg => cases h; exact .inl ⟨.inl (by simpa using hg), rfl⟩
  · next hg =>
    split at h
    · next he => cases h; exact .inl ⟨.inr he, rfl⟩
    · next he => cases h; exact .inr ⟨by simpa using hg, by simpa using he, rfl⟩

theorem execOvfclr_cases {idx : Index} {s t : State} (h : execOvfclr idx s = .next t) :
    (s.gate idx = false ∧ t = s.respond 0#32) ∨
    (s.gate idx = true ∧ t = (s.clearOverflow idx.toNat).respond 1#32) := by
  unfold execOvfclr at h
  split at h
  · next hg => cases h; exact .inr ⟨hg, rfl⟩
  · next hg => cases h; exact .inl ⟨by simpa using hg, rfl⟩

/-- The operations that only answer: ISACTIVE, AVAIL and OVF. -/
theorem execAvail_cases {idx : Index} {s t : State} (h : execAvail idx s = .next t) : ∃ v, t = s.respond v := by
  unfold execAvail at h
  split at h <;> cases h <;> exact ⟨_, rfl⟩
theorem execOvf_cases {idx : Index} {s t : State} (h : execOvf idx s = .next t) : ∃ v, t = s.respond v := by
  unfold execOvf at h
  split at h <;> cases h <;> exact ⟨_, rfl⟩

/-- What a host operation does, in one statement: it only answers, or it is one of the six writes. -/
theorem exec_cases {i : Instr} {s t : State} (h : exec i s = .next t) :
    (∃ v, t = s.respond v) ∨
    (∃ idx baud rx tx, i = .openInst idx baud rx tx ∧ s.openFails idx baud rx tx = false ∧
      s.receivingFor idx = false ∧ t = (s.openSuccess idx.toNat baud rx tx).respond 1#32) ∨
    (∃ idx, i = .closeInst idx ∧ s.indexInRange idx = true ∧ s.receivingFor idx = false ∧
      t = (s.closeSuccess idx.toNat).respond 1#32) ∨
    (∃ idx b bs, (i = .put idx b ∧ bs = [] ∨ i = .puts idx (b :: bs)) ∧ s.gate idx = true ∧
      t = (s.beginPut idx.toNat b bs).txAdvance bs) ∨
    (∃ idx, i = .read idx ∧ s.gate idx = true ∧ (s.buf idx.toNat).isEmpty = false ∧
      t = (s.popAdvance idx.toNat).respond (respByte (s.popByte idx.toNat))) ∨
    (∃ idx, i = .ovfclr idx ∧ s.gate idx = true ∧ t = (s.clearOverflow idx.toNat).respond 1#32) := by
  cases i with
  | openInst idx baud rx tx =>
    rcases execOpen_cases h with ⟨-, rfl⟩ | ⟨hf, hr, rfl⟩
    · exact .inl ⟨_, rfl⟩
    · exact .inr (.inl ⟨idx, baud, rx, tx, rfl, hf, hr, rfl⟩)
  | closeInst idx =>
    rcases execClose_cases h with ⟨-, rfl⟩ | ⟨hf, hr, rfl⟩
    · exact .inl ⟨_, rfl⟩
    · exact .inr (.inr (.inl ⟨idx, rfl, hf, hr, rfl⟩))
  | isActive idx => cases h; exact .inl ⟨_, rfl⟩
  | put idx b =>
    rcases execPut_cases h with ⟨-, rfl⟩ | ⟨hg, rfl⟩
    · exact .inl ⟨_, rfl⟩
    · exact .inr (.inr (.inr (.inl ⟨idx, b, [], .inl ⟨rfl, rfl⟩, hg, rfl⟩)))
  | puts idx text =>
    rcases execPuts_cases h with ⟨-, rfl⟩ | ⟨-, -, rfl⟩ | ⟨hg, b, bs, rfl, rfl⟩
    · exact .inl ⟨_, rfl⟩
    · exact .inl ⟨_, rfl⟩
    · exact .inr (.inr (.inr (.inl ⟨idx, b, bs, .inr rfl, hg, rfl⟩)))
  | avail idx => exact .inl (execAvail_cases h)
  | read idx =>
    rcases execRead_cases h with ⟨-, rfl⟩ | ⟨hg, he, rfl⟩
    · exact .inl ⟨_, rfl⟩
    · exact .inr (.inr (.inr (.inr (.inl ⟨idx, rfl, hg, he, rfl⟩))))
  | ovf idx => exact .inl (execOvf_cases h)
  | ovfclr idx =>
    rcases execOvfclr_cases h with ⟨-, rfl⟩ | ⟨hg, rfl⟩
    · exact .inl ⟨_, rfl⟩
    · exact .inr (.inr (.inr (.inr (.inr ⟨idx, rfl, hg, rfl⟩))))

theorem exec_frame {i : Instr} {s t : State} (h : exec i s = .next t) : ExecFrame s t := by
  rcases exec_cases h with ⟨v, rfl⟩ | ⟨idx, baud, rx, tx, -, -, -, rfl⟩ | ⟨idx, -, -, -, rfl⟩ |
    ⟨idx, b, bs, -, -, rfl⟩ | ⟨idx, -, -, -, rfl⟩ | ⟨idx, -, -, rfl⟩
  · exact ⟨rfl, rfl, rfl, rfl, rfl, rfl, rfl, rfl, rfl, rfl⟩
  · have k := s.openSuccess_frame idx.toNat baud rx tx
    exact ⟨k.cfg, k.now, k.fresh, k.prev, k.level, k.isr, k.port, k.changes, k.wires, k.slots_length⟩
  · have k := s.closeSuccess_frame idx.toNat
    exact ⟨k.cfg, k.now, k.fresh, k.prev, k.level, k.isr, k.port, k.changes, k.wires, k.slots_length⟩
  · exact ((s.beginPut_frame idx.toNat b bs).trans (State.txAdvance_frame bs _)).execFrame
  all_goals constructor <;> simp

/-- A host operation stops only by the race of R166. -/
theorem exec_stops {i : Instr} {s : State} :
    (∃ t, exec i s = .next t) ∨
    (exec i s = .fault .registryRace ∧ ∃ idx, s.receivingFor idx = true ∧
      (i = .closeInst idx ∧ s.indexInRange idx = true ∨
        ∃ baud rx tx, i = .openInst idx baud rx tx ∧ s.openFails idx baud rx tx = false)) := by
  cases i with
  | openInst idx baud rx tx =>
    simp only [exec, execOpen]
    by_cases hf : s.openFails idx baud rx tx = true
    · exact .inl ⟨s.respond 0#32, by simp [hf, respBool]⟩
    · by_cases hr : s.receivingFor idx = true
      · exact .inr ⟨by simp [hf, hr], idx, hr, .inr ⟨baud, rx, tx, rfl, by simpa using hf⟩⟩
      · exact .inl ⟨(s.openSuccess idx.toNat baud rx tx).respond 1#32, by simp [hf, hr, respBool]⟩
  | closeInst idx =>
    simp only [exec, execClose]
    by_cases hf : s.indexInRange idx = true
    · by_cases hr : s.receivingFor idx = true
      · exact .inr ⟨by simp [hf, hr], idx, hr, .inl ⟨rfl, hf⟩⟩
      · exact .inl ⟨(s.closeSuccess idx.toNat).respond 1#32, by simp [hf, hr, respBool]⟩
    · exact .inl ⟨s.respond 0#32, by simp [hf, respBool]⟩
  | isActive idx => exact .inl ⟨_, rfl⟩
  | put idx b => simp only [exec, execPut]; split <;> exact .inl ⟨_, rfl⟩
  | puts idx text =>
    simp only [exec, execPuts]
    split
    · cases text <;> exact .inl ⟨_, rfl⟩
    · exact .inl ⟨_, rfl⟩
  | avail idx => simp only [exec, execAvail]; split <;> exact .inl ⟨_, rfl⟩
  | read idx => simp only [exec, execRead]; split <;> [skip; split] <;> exact .inl ⟨_, rfl⟩
  | ovf idx => simp only [exec, execOvf]; split <;> exact .inl ⟨_, rfl⟩
  | ovfclr idx => simp only [exec, execOvfclr]; split <;> exact .inl ⟨_, rfl⟩

end Sys2Proof.Machine
end

