-- ==== Sys2Proof/Laws/PerInstr.lean ====
section
/-! SUPPORT. Statements about every instruction as syntax, one lemma per constructor. -/

namespace Sys2Proof.Laws.HeaderDecodes

/-- The first word of an instruction decodes to the operation it is (spec/30_encoding.md R96, R97). -/
def Statement (i : Instr) : Prop := decodeHeader (encodeHeader i) = .ok (opOf i)

theorem openInst (idx : Index) (baud : Baud) (rx tx : Pin) : Statement (.openInst idx baud rx tx) :=
  (decodeHeader_ok_iff _ _).mpr ⟨by simp [encodeHeader, opOf], by simp [encodeHeader], rfl⟩

theorem closeInst (idx : Index) : Statement (.closeInst idx) :=
  (decodeHeader_ok_iff _ _).mpr
    ⟨by simp [encodeHeader, opOf], by simp [encodeHeader], by simp [encodeHeader, opOf, operandFieldsClear]⟩

theorem isActive (idx : Index) : Statement (.isActive idx) :=
  (decodeHeader_ok_iff _ _).mpr
    ⟨by simp [encodeHeader, opOf], by simp [encodeHeader], by simp [encodeHeader, opOf, operandFieldsClear]⟩

theorem put (idx : Index) (byte : Byte) : Statement (.put idx byte) :=
  (decodeHeader_ok_iff _ _).mpr
    ⟨by simp [encodeHeader, opOf], by simp [encodeHeader], by
      have h : BitVec.extractLsb' 8 24 (BitVec.setWidth 32 byte) = 0#24 := by
        ext k hk
        simp
      simp [encodeHeader, opOf, operandFieldsClear, h]⟩

theorem puts (idx : Index) (text : List Byte) : Statement (.puts idx text) :=
  (decodeHeader_ok_iff _ _).mpr
    ⟨by simp [encodeHeader, opOf], by simp [encodeHeader], by simp [encodeHeader, opOf, operandFieldsClear]⟩

theorem avail (idx : Index) : Statement (.avail idx) :=
  (decodeHeader_ok_iff _ _).mpr
    ⟨by simp [encodeHeader, opOf], by simp [encodeHeader], by simp [encodeHeader, opOf, operandFieldsClear]⟩

theorem read (idx : Index) : Statement (.read idx) :=
  (decodeHeader_ok_iff _ _).mpr
    ⟨by simp [encodeHeader, opOf], by simp [encodeHeader], by simp [encodeHeader, opOf, operandFieldsClear]⟩

theorem ovf (idx : Index) : Statement (.ovf idx) :=
  (decodeHeader_ok_iff _ _).mpr
    ⟨by simp [encodeHeader, opOf], by simp [encodeHeader], by simp [encodeHeader, opOf, operandFieldsClear]⟩

theorem ovfclr (idx : Index) : Statement (.ovfclr idx) :=
  (decodeHeader_ok_iff _ _).mpr
    ⟨by simp [encodeHeader, opOf], by simp [encodeHeader], by simp [encodeHeader, opOf, operandFieldsClear]⟩

end Sys2Proof.Laws.HeaderDecodes
end

