-- ==== Sys2Proof/Laws/Receive.lean ====
section
/-! SUPPORT. What the interrupt context can do in a tick, said once: a relation between the states before and after that
every action of edge detection and of the receive sequencer meets, and the case analysis of each action. -/

namespace Sys2Proof.Machine

/-- What edge detection and the receive sequencer leave alone. -/
structure RxFrame (s t : State) : Prop where
  cfg : t.cfg = s.cfg
  now : t.now = s.now
  fresh : t.fresh = s.fresh
  prev : t.prev = s.prev
  level : t.level = s.level
  pins : t.pins = s.pins
  tx : t.tx = s.tx
  port : t.port = s.port
  changes : t.changes = s.changes
  wires : t.wires = s.wires
  responses : t.responses = s.responses
  slots_length : t.slots.length = s.slots.length
  inst : ∀ i, t.inst i = s.inst i
  head : ∀ i, (t.buf i).head = (s.buf i).head

theorem RxFrame.refl (s : State) : RxFrame s s :=
  ⟨rfl, rfl, rfl, rfl, rfl, rfl, rfl, rfl, rfl, rfl, rfl, rfl, fun _ => rfl, fun _ => rfl⟩

theorem RxFrame.trans {s t u : State} (h : RxFrame s t) (k : RxFrame t u) : RxFrame s u where
  cfg := k.cfg.trans h.cfg
  now := k.now.trans h.now
  fresh := k.fresh.trans h.fresh
  prev := k.prev.trans h.prev
  level := k.level.trans h.level
  pins := k.pins.trans h.pins
  tx := k.tx.trans h.tx
  port := k.port.trans h.port
  changes := k.changes.trans h.changes
  wires := k.wires.trans h.wires
  responses := k.responses.trans h.responses
  slots_length := k.slots_length.trans h.slots_length
  inst := fun i => (k.inst i).trans (h.inst i)
  head := fun i => (k.head i).trans (h.head i)

theorem RxFrame.isActive {s t : State} (h : RxFrame s t) (i : Nat) : t.isActive i = s.isActive i :=
  State.isActive_congr h.cfg i (by rw [h.inst])

theorem RxFrame.bitPeriod {s t : State} (h : RxFrame s t) (i : Nat) : t.bitPeriod i = s.bitPeriod i := by
  unfold State.bitPeriod; rw [h.inst]

theorem RxFrame.pin {s t : State} (h : RxFrame s t) (p : Pin) : t.pin p = s.pin p := State.pin_congr h.pins p

/-! ## Edge detection -/

theorem State.slot_detectEdges (s : State) (i : Nat) : s.detectEdges.slot i = s.latchEdge (s.slot i) := by
  unfold State.detectEdges State.slot
  by_cases h : i < s.slots.length
  · simp [List.getD, h]
  · simp [List.getD, h, State.latchEdge, Slot.reset]

theorem State.inst_detectEdges (s : State) (i : Nat) : s.detectEdges.inst i = s.inst i := by
  unfold State.inst; rw [State.slot_detectEdges]; unfold State.latchEdge; split <;> rfl

theorem State.buf_detectEdges (s : State) (i : Nat) : s.detectEdges.buf i = s.buf i := by
  unfold State.buf; rw [State.slot_detectEdges]; unfold State.latchEdge; split <;> rfl

/-- The pending bit after edge detection (R286). -/
theorem State.rx_detectEdges (s : State) (i : Nat) :
    s.detectEdges.rx i =
      if (s.rx i).attached && s.fallingEdge (s.inst i).rxPin && (!s.isr.busy || s.cfg.pendLatch) then
        { s.rx i with pend := true } else s.rx i := by
  unfold State.rx State.inst; rw [State.slot_detectEdges]; unfold State.latchEdge; split <;> rfl

@[simp] theorem State.isr_detectEdges (s : State) : s.detectEdges.isr = s.isr := rfl

theorem State.detectEdges_frame (s : State) : RxFrame s s.detectEdges where
  cfg := rfl
  now := rfl
  fresh := rfl
  prev := rfl
  level := rfl
  pins := rfl
  tx := rfl
  port := rfl
  changes := rfl
  wires := rfl
  responses := rfl
  slots_length := by simp [State.detectEdges]
  inst := s.inst_detectEdges
  head := fun i => by rw [s.buf_detectEdges]

/-! ## Samples -/

@[simp] theorem State.slots_recordSample (s : State) : s.recordSample.slots = s.slots := rfl

theorem State.recordSample_frame (s : State) : RxFrame s s.recordSample :=
  ⟨rfl, rfl, rfl, rfl, rfl, rfl, rfl, rfl, rfl, rfl, rfl, rfl, fun _ => rfl, fun _ => rfl⟩

theorem State.append_frame (s : State) (i : Nat) (b : Byte) : RxFrame s (s.append i b) where
  cfg := by simp
  now := by simp
  fresh := by simp
  prev := by simp
  level := by simp
  pins := by simp
  tx := by simp
  port := by simp
  changes := by simp
  wires := by simp
  responses := by simp
  slots_length := by simp
  inst := fun j => by simp
  head := fun j => by
    rw [State.buf_append]
    split
    · next h => rw [Buffer.head_appended, h.1]
    · rfl

/-- A sample records a bit, and after the eighth appends the byte (R186, R189). -/
theorem State.takeSample_cases (s : State) :
    (s.isr.k + 1 = 8 ∧ s.takeSample = s.recordSample.append s.isr.inst s.recordSample.isr.shift) ∨
    (s.isr.k + 1 ≠ 8 ∧ s.takeSample = s.recordSample) := by
  unfold State.takeSample
  by_cases h : s.isr.k + 1 = 8
  · exact .inl ⟨h, by simp [State.recordSample, h]⟩
  · exact .inr ⟨h, by simp [State.recordSample, h]⟩

theorem State.takeSample_frame (s : State) : RxFrame s s.takeSample := by
  rcases s.takeSample_cases with ⟨-, h⟩ | ⟨-, h⟩ <;> rw [h]
  · exact s.recordSample_frame.trans (State.append_frame _ _ _)
  · exact s.recordSample_frame

@[simp] theorem State.isr_takeSample (s : State) : s.takeSample.isr = s.recordSample.isr := by
  rcases s.takeSample_cases with ⟨-, h⟩ | ⟨-, h⟩ <;> rw [h]
  simp

@[simp] theorem State.rx_takeSample (s : State) (i : Nat) : s.takeSample.rx i = s.rx i := by
  rcases s.takeSample_cases with ⟨-, h⟩ | ⟨-, h⟩ <;> rw [h]
  · simp; rfl
  · rfl

theorem State.runPeriod_takeSample (s : State) : s.takeSample.runPeriod = s.runPeriod := by
  unfold State.runPeriod
  rw [s.takeSample_frame.bitPeriod]
  simp [State.recordSample]

theorem State.takeSamples_frame (n : Nat) (s : State) : RxFrame s (State.takeSamples n s) := by
  induction n generalizing s with
  | zero => exact RxFrame.refl s
  | succ n ih =>
    unfold State.takeSamples
    split
    · exact s.takeSample_frame.trans (ih _)
    · exact RxFrame.refl s

/-- A property that one due sample keeps is kept by all of them. -/
theorem State.takeSamples_induct {P : State → Prop} (hs : ∀ s, P s → s.sampleDue = true → P s.takeSample)
    (n : Nat) (s : State) (h : P s) : P (State.takeSamples n s) := by
  induction n generalizing s with
  | zero => exact h
  | succ n ih =>
    unfold State.takeSamples
    split
    · next hd => exact ih _ (hs s h hd)
    · exact h

/-- With fuel for the samples left, none is due afterwards. -/
theorem State.takeSamples_done (n : Nat) (s : State) (h : 8 ≤ s.isr.k + n) :
    (State.takeSamples n s).sampleDue = false := by
  induction n generalizing s with
  | zero =>
    have : ¬ s.isr.k < 8 := by omega
    simp [State.takeSamples, State.sampleDue, this]
  | succ n ih =>
    unfold State.takeSamples
    split
    · refine ih _ ?_
      simp [State.recordSample]; omega
    · next hd => simpa using hd

theorem State.takeSamples_of_not_due (n : Nat) (s : State) (h : s.sampleDue = false) :
    State.takeSamples n s = s := by
  cases n with
  | zero => rfl
  | succ n => simp [State.takeSamples, h]

/-- More fuel than samples left changes nothing. -/
theorem State.takeSamples_fuel (m n : Nat) (s : State) (hm : 8 ≤ s.isr.k + m) (hn : 8 ≤ s.isr.k + n) :
    State.takeSamples m s = State.takeSamples n s := by
  induction m generalizing s n with
  | zero =>
    have h : s.sampleDue = false := by simp [State.sampleDue]; omega
    rw [State.takeSamples_of_not_due _ _ h, State.takeSamples_of_not_due _ _ h]
  | succ m ih =>
    by_cases hs : s.sampleDue = true
    · have hk : s.isr.k < 8 := by simp [State.sampleDue] at hs; omega
      cases n with
      | zero => omega
      | succ n =>
        simp only [State.takeSamples, hs, if_true]
        have hk1 : s.takeSample.isr.k = s.isr.k + 1 := by
          rcases s.takeSample_cases with ⟨-, h⟩ | ⟨-, h⟩ <;> rw [h] <;> simp [State.recordSample]
        exact ih n _ (by omega) (by omega)
    · have h : s.sampleDue = false := by simpa using hs
      rw [State.takeSamples_of_not_due _ _ h, State.takeSamples_of_not_due _ _ h]

/-! ## The run -/

theorem State.endRun_frame (s : State) : RxFrame s s.endRun where
  cfg := rfl
  now := rfl
  fresh := rfl
  prev := rfl
  level := rfl
  pins := rfl
  tx := rfl
  port := rfl
  changes := rfl
  wires := rfl
  responses := rfl
  slots_length := by simp
  inst := fun i => by simp
  head := fun i => by simp

theorem State.startRun_frame (s : State) (i : Nat) : RxFrame s (s.startRun i) where
  cfg := rfl
  now := rfl
  fresh := rfl
  prev := rfl
  level := rfl
  pins := rfl
  tx := rfl
  port := rfl
  changes := rfl
  wires := rfl
  responses := rfl
  slots_length := by simp
  inst := fun j => by simp
  head := fun j => by simp

theorem State.advanceRun_frame (s : State) : RxFrame s s.advanceRun := by
  unfold State.advanceRun
  dsimp only
  split
  · exact (State.takeSamples_frame 8 s).trans (State.endRun_frame _)
  · exact State.takeSamples_frame 8 s

/-- Nothing of an idle interrupt context is due. -/
theorem State.advanceRun_of_idle (s : State) (h : s.isr.busy = false) : s.advanceRun = s := by
  have hd : s.sampleDue = false := by simp [State.sampleDue, h]
  simp [State.advanceRun, State.takeSamples_of_not_due 8 s hd, State.endDue, h]

/-- A run in progress changes no interrupt bits but those of its own instance, whose pending bit it then clears. -/
theorem State.rx_advanceRun (s : State) (j : Nat) :
    s.advanceRun.rx j = s.rx j ∨ (s.advanceRun.rx j).pend = false := by
  have h : (State.takeSamples 8 s).rx j = s.rx j := by
    refine State.takeSamples_induct (P := fun t => t.rx j = s.rx j) ?_ 8 s rfl
    intro t ht _
    rcases t.takeSample_cases with ⟨-, e⟩ | ⟨-, e⟩ <;> rw [e]
    · rw [State.rx_append]; exact ht
    · exact ht
  unfold State.advanceRun
  dsimp only
  split
  · change ((State.takeSamples 8 s).attach _).rx j = _ ∨ (((State.takeSamples 8 s).attach _).rx j).pend = false
    unfold State.attach
    rw [State.rx_setRx]
    split
    · exact .inr rfl
    · exact .inl h
  · exact .inl h

theorem State.slot_clearPending (s : State) (i : Nat) :
    s.clearPending.slot i = { s.slot i with rx := { s.rx i with pend := false } } := by
  unfold State.clearPending State.rx State.slot
  by_cases h : i < s.slots.length
  · simp [List.getD, h]
  · simp [List.getD, h, Slot.reset]

@[simp] theorem State.inst_clearPending (s : State) (i : Nat) : s.clearPending.inst i = s.inst i := by
  unfold State.inst; rw [State.slot_clearPending]
@[simp] theorem State.buf_clearPending (s : State) (i : Nat) : s.clearPending.buf i = s.buf i := by
  unfold State.buf; rw [State.slot_clearPending]
@[simp] theorem State.rx_clearPending (s : State) (i : Nat) :
    s.clearPending.rx i = { s.rx i with pend := false } := by
  rw [State.rx, State.slot_clearPending]
@[simp] theorem State.isr_clearPending (s : State) : s.clearPending.isr = s.isr := rfl

theorem State.clearPending_frame (s : State) : RxFrame s s.clearPending where
  cfg := rfl
  now := rfl
  fresh := rfl
  prev := rfl
  level := rfl
  pins := rfl
  tx := rfl
  port := rfl
  changes := rfl
  wires := rfl
  responses := rfl
  slots_length := by simp [State.clearPending]
  inst := s.inst_clearPending
  head := fun i => by rw [s.buf_clearPending]

theorem State.serve_frame (s : State) (i : Nat) : RxFrame s (s.serve i) := by
  unfold State.serve
  split
  · exact s.startRun_frame i
  · exact (s.startRun_frame i).trans (State.clearPending_frame _)

@[simp] theorem State.isr_serve (s : State) (i : Nat) :
    (s.serve i).isr = { busy := true, inst := i, ts := s.now, k := 0, shift := 0#8 } := by
  unfold State.serve; split <;> rfl

@[simp] theorem State.buf_serve (s : State) (i j : Nat) : (s.serve i).buf j = s.buf j := by
  unfold State.serve; split <;> simp

/-- The interrupt bits after a run has started for instance `i` (R184, R287). -/
theorem State.rx_serve (s : State) (i j : Nat) :
    (s.serve i).rx j =
      if j = i ∧ i < s.slots.length then { attached := false, pend := false }
      else { s.rx j with pend := (s.rx j).pend && s.cfg.pendLatch } := by
  unfold State.serve
  by_cases hl : s.cfg.pendLatch = true
  · simp only [hl, if_true, State.rx_startRun, State.rx_detach]
    split <;> simp
  · simp only [Bool.not_eq_true] at hl
    simp only [hl, Bool.false_eq_true, if_false, State.rx_clearPending, State.rx_startRun, State.rx_detach]
    split <;> simp

/-- The instance served is pending, attached and in the table, and no lower one is both (R288). -/
theorem State.nextPending_some {s : State} {i : Nat} (h : s.nextPending = some i) :
    i < s.cfg.nInst ∧ (s.rx i).pend = true ∧ (s.rx i).attached = true ∧
      ∀ j, j < i → ¬ ((s.rx j).pend = true ∧ (s.rx j).attached = true) := by
  unfold State.nextPending at h
  rw [List.find?_range_eq_some] at h
  simp only [Bool.and_eq_true, List.mem_range] at h
  obtain ⟨⟨hp, ha⟩, hi, hlow⟩ := h
  exact ⟨hi, hp, ha, fun j hj hc => by simpa [hc] using hlow j hj⟩

theorem State.nextPending_none {s : State} (h : s.nextPending = none) (i : Nat) (hi : i < s.cfg.nInst) :
    ¬ ((s.rx i).pend = true ∧ (s.rx i).attached = true) := by
  unfold State.nextPending at h
  rw [List.find?_eq_none] at h
  simpa using h i (List.mem_range.mpr hi)

/-- The instances that wait for a run. -/
abbrev State.waiting (s : State) : Finset Nat :=
  (Finset.range s.cfg.nInst).filter (fun i => (s.rx i).pend = true ∧ (s.rx i).attached = true)

/-- Each start of a run leaves fewer instances waiting (R184, R288). -/
theorem State.waiting_serve_lt (s : State) (i : Nat) (hi : s.nextPending = some i) :
    (s.serve i).advanceRun.waiting.card < s.waiting.card := by
  obtain ⟨h1, h2, h3, -⟩ := State.nextPending_some hi
  have hl : i < s.slots.length := by
    by_contra hc
    rw [show s.rx i = Slot.reset.rx from by unfold State.rx State.slot; simp [List.getD, hc]] at h2
    cases h2
  have hc : (s.serve i).advanceRun.cfg = s.cfg := ((s.serve_frame i).trans (State.advanceRun_frame _)).cfg
  refine Finset.card_lt_card ((Finset.ssubset_iff_of_subset ?_).mpr ⟨i, by simp [h1, h2, h3], ?_⟩)
  · intro j hj
    simp only [Finset.mem_filter, Finset.mem_range, hc] at hj ⊢
    refine ⟨hj.1, ?_⟩
    rcases (s.serve i).rx_advanceRun j with h | h
    · rw [h, State.rx_serve] at hj
      split at hj
      · exact absurd hj.2.1 (by simp)
      · simp at hj; exact ⟨hj.2.1.1, hj.2.2⟩
    · exact absurd (h ▸ hj.2.1) (by simp)
  · simp only [Finset.mem_filter, not_and]
    intro _ hp
    rcases (s.serve i).rx_advanceRun i with h | h
    · rw [h, State.rx_serve, if_pos ⟨rfl, hl⟩] at hp; cases hp
    · rw [h] at hp; cases hp

/-- More starts than instances waiting change nothing, so the `N_INST` starts of a tick are all of them (R288). -/
theorem State.startRuns_fuel (m n : Nat) (s : State) (hm : s.waiting.card ≤ m) (hn : s.waiting.card ≤ n) :
    State.startRuns m s = State.startRuns n s := by
  have stop : ∀ (s : State) (n : Nat), s.waiting.card = 0 → State.startRuns n s = s := by
    intro s n h0
    cases n with
    | zero => rfl
    | succ n =>
      simp only [State.startRuns]
      split
      · rfl
      · split
        · rfl
        · next i hi => have := s.waiting_serve_lt i hi; omega
  induction m generalizing s n with
  | zero => rw [stop s 0 (by omega), stop s n (by omega)]
  | succ m ih =>
    cases n with
    | zero => rw [stop s _ (by omega), stop s _ (by omega)]
    | succ n =>
      simp only [State.startRuns]
      split
      · rfl
      · split
        · rfl
        · next i hi =>
          have := s.waiting_serve_lt i hi
          exact ih n _ (by omega) (by omega)

/-- A property that starting a run and performing what is due keep is kept by all the starts of a tick. -/
theorem State.startRuns_induct {P : State → Prop}
    (hs : ∀ s i, P s → s.isr.busy = false → s.nextPending = some i → P (s.serve i).advanceRun)
    (n : Nat) (s : State) (h : P s) : P (State.startRuns n s) := by
  induction n generalizing s with
  | zero => exact h
  | succ n ih =>
    unfold State.startRuns
    split
    · exact h
    · next hb =>
      split
      · exact h
      · next i hi => exact ih _ (hs s i h (by simpa using hb) hi)

theorem State.startRuns_frame (n : Nat) (s : State) : RxFrame s (State.startRuns n s) :=
  State.startRuns_induct (P := fun t => RxFrame s t)
    (fun t i h _ _ => (h.trans (t.serve_frame i)).trans (State.advanceRun_frame _)) n s (RxFrame.refl s)

/-- The interrupt context in a tick (R297). -/
theorem State.interruptStep_frame (s : State) : RxFrame s s.interruptStep :=
  s.advanceRun_frame.trans (State.startRuns_frame _ _)

end Sys2Proof.Machine
end

