-- ==== Sys2Proof/Laws/Tick.lean ====
section
/-! SUPPORT. What a tick does, said once: the parts of a tick, and an induction over the operations it accepts. -/

namespace Sys2Proof.Machine

/-! ## Inputs -/

@[simp] theorem State.cfg_sampleInputs (s : State) : s.sampleInputs.cfg = s.cfg := rfl
@[simp] theorem State.now_sampleInputs (s : State) : s.sampleInputs.now = s.now + 1 := rfl
@[simp] theorem State.fresh_sampleInputs (s : State) : s.sampleInputs.fresh = false := rfl
@[simp] theorem State.prev_sampleInputs (s : State) :
    s.sampleInputs.prev = if s.fresh then s.nextLevel else s.level := rfl
@[simp] theorem State.level_sampleInputs (s : State) : s.sampleInputs.level = s.nextLevel := rfl
@[simp] theorem State.pins_sampleInputs (s : State) : s.sampleInputs.pins = s.pins := rfl
@[simp] theorem State.slots_sampleInputs (s : State) : s.sampleInputs.slots = s.slots := rfl
@[simp] theorem State.isr_sampleInputs (s : State) : s.sampleInputs.isr = s.isr := rfl
@[simp] theorem State.tx_sampleInputs (s : State) : s.sampleInputs.tx = s.tx := rfl
@[simp] theorem State.port_sampleInputs (s : State) : s.sampleInputs.port = s.port := rfl
@[simp] theorem State.wires_sampleInputs (s : State) : s.sampleInputs.wires = s.wires := rfl
@[simp] theorem State.responses_sampleInputs (s : State) : s.sampleInputs.responses = s.responses := rfl
@[simp] theorem State.inst_sampleInputs (s : State) (i : Nat) : s.sampleInputs.inst i = s.inst i := rfl
@[simp] theorem State.buf_sampleInputs (s : State) (i : Nat) : s.sampleInputs.buf i = s.buf i := rfl
@[simp] theorem State.rx_sampleInputs (s : State) (i : Nat) : s.sampleInputs.rx i = s.rx i := rfl

/-- The environment's tables stay canonical. -/
theorem State.nextLevel_wf (s : State) (h : tableWf idleLevel 256 s.level) : tableWf idleLevel 256 s.nextLevel := by
  have hset : ∀ (t : List (Nat × Level)) (p : Pin) (v : Level), tableWf idleLevel 256 t →
      tableWf idleLevel 256 (setLevel t p v) := fun t p v ht => tableWf_write v ht p.isLt
  have hc : ∀ (cs : List InputChange) (t : List (Nat × Level)), tableWf idleLevel 256 t →
      tableWf idleLevel 256 (cs.foldl (fun t c => setLevel t c.pin c.level) t) := by
    intro cs
    induction cs with
    | nil => exact fun t ht => ht
    | cons c cs ih => exact fun t ht => ih _ (hset t c.pin c.level ht)
  have hw : ∀ (ws : List Wire) (t : List (Nat × Level)), tableWf idleLevel 256 t →
      tableWf idleLevel 256 (ws.foldl (fun t w => setLevel t w.sink (s.wireLevel w)) t) := by
    intro ws
    induction ws with
    | nil => exact fun t ht => ht
    | cons w ws ih => exact fun t ht => ih _ (hset t w.sink _ ht)
  exact hw _ _ (hc _ _ h)

/-! ## Steps 1 to 3 -/

/-- What the interrupt part of a tick leaves alone, seen from the state after the inputs are sampled. -/
theorem State.interruptPart_frame (s : State) : RxFrame s.sampleInputs s.interruptPart :=
  (s.sampleInputs.detectEdges_frame).trans (State.interruptStep_frame _)

@[simp] theorem State.cfg_interruptPart (s : State) : s.interruptPart.cfg = s.cfg := s.interruptPart_frame.cfg
@[simp] theorem State.now_interruptPart (s : State) : s.interruptPart.now = s.now + 1 := s.interruptPart_frame.now
@[simp] theorem State.pins_interruptPart (s : State) : s.interruptPart.pins = s.pins := s.interruptPart_frame.pins
@[simp] theorem State.tx_interruptPart (s : State) : s.interruptPart.tx = s.tx := s.interruptPart_frame.tx
@[simp] theorem State.port_interruptPart (s : State) : s.interruptPart.port = s.port := s.interruptPart_frame.port
@[simp] theorem State.level_interruptPart (s : State) : s.interruptPart.level = s.nextLevel :=
  s.interruptPart_frame.level
@[simp] theorem State.responses_interruptPart (s : State) : s.interruptPart.responses = s.responses :=
  s.interruptPart_frame.responses
@[simp] theorem State.inst_interruptPart (s : State) (i : Nat) : s.interruptPart.inst i = s.inst i :=
  s.interruptPart_frame.inst i
@[simp] theorem State.slots_length_interruptPart (s : State) : s.interruptPart.slots.length = s.slots.length :=
  s.interruptPart_frame.slots_length

/-! ## The command port -/

@[simp] theorem State.cfg_takeWords (s : State) (n : Nat) : (s.takeWords n).cfg = s.cfg := rfl
@[simp] theorem State.now_takeWords (s : State) (n : Nat) : (s.takeWords n).now = s.now := rfl
@[simp] theorem State.fresh_takeWords (s : State) (n : Nat) : (s.takeWords n).fresh = s.fresh := rfl
@[simp] theorem State.prev_takeWords (s : State) (n : Nat) : (s.takeWords n).prev = s.prev := rfl
@[simp] theorem State.level_takeWords (s : State) (n : Nat) : (s.takeWords n).level = s.level := rfl
@[simp] theorem State.pins_takeWords (s : State) (n : Nat) : (s.takeWords n).pins = s.pins := rfl
@[simp] theorem State.slots_takeWords (s : State) (n : Nat) : (s.takeWords n).slots = s.slots := rfl
@[simp] theorem State.isr_takeWords (s : State) (n : Nat) : (s.takeWords n).isr = s.isr := rfl
@[simp] theorem State.tx_takeWords (s : State) (n : Nat) : (s.takeWords n).tx = s.tx := rfl
@[simp] theorem State.port_takeWords (s : State) (n : Nat) : (s.takeWords n).port = s.port.drop n := rfl
@[simp] theorem State.changes_takeWords (s : State) (n : Nat) : (s.takeWords n).changes = s.changes := rfl
@[simp] theorem State.wires_takeWords (s : State) (n : Nat) : (s.takeWords n).wires = s.wires := rfl
@[simp] theorem State.responses_takeWords (s : State) (n : Nat) : (s.takeWords n).responses = s.responses := rfl
@[simp] theorem State.slot_takeWords (s : State) (n i : Nat) : (s.takeWords n).slot i = s.slot i := rfl

@[simp] theorem andThen_next (s : State) (f : State → Host.Outcome State Fault Refusal) : andThen (.next s) f = f s :=
  rfl

theorem andThen_eq_next {o : Host.Outcome State Fault Refusal} {f : State → Host.Outcome State Fault Refusal}
    {t : State} (h : andThen o f = .next t) : ∃ u, o = .next u ∧ f u = .next t := by
  cases o with
  | next u => exact ⟨u, rfl, h⟩
  | fault r => cases h
  | refused r => cases h

/-- An operation on offer is no longer than the port. -/
theorem State.wordLength_le_port {s : State} {i : Instr} {rest : List Word} (h : decode s.offered = .op i rest) :
    wordLength i ≤ s.port.length := by
  have h1 := (decode_op_rest h).1
  have h2 : s.offered.length ≤ s.port.length := by
    simpa [State.offered] using (List.takeWhile_prefix (fun o => decide (o.tick ≤ s.now)) (l := s.port)).length_le
  omega

/-- A property that every accepted operation and every rejected word keep, from states in which the normal context is
idle, is kept by all the acceptances of a tick. -/
theorem acceptLoop_induct {P : State → Prop}
    (hr : ∀ s, P s → s.tx.busy = false → P s.rejectWord)
    (ho : ∀ s i t rest, P s → s.tx.busy = false → decode s.offered = .op i rest →
      exec i (s.takeWords (wordLength i)) = .next t → P t)
    (n : Nat) (s t : State) (h : P s) (hn : acceptLoop exec n s = .next t) : P t := by
  induction n generalizing s with
  | zero => cases hn; exact h
  | succ n ih =>
    unfold acceptLoop at hn
    split at hn
    · cases hn; exact h
    · next hb =>
      have hb : s.tx.busy = false := by simpa using hb
      split at hn
      · cases hn; exact h
      · exact ih _ (hr s h hb) hn
      · next i rest hd =>
        obtain ⟨u, hu, hn⟩ := andThen_eq_next hn
        exact ih u (ho s i u rest h hb hd hu) hn

/-- More fuel than words on the port changes nothing. -/
theorem acceptLoop_fuel (n : Nat) (s : State) (h : s.port.length ≤ n) :
    acceptLoop exec n s = acceptAll exec s := by
  have key : ∀ (m n : Nat) (s : State), s.port.length ≤ m → s.port.length ≤ n →
      acceptLoop exec m s = acceptLoop exec n s := by
    intro m
    induction m with
    | zero =>
      intro n s hm hn
      have hp : s.port = [] := List.length_eq_zero_iff.mp (by omega)
      cases n with
      | zero => rfl
      | succ n => simp [acceptLoop, State.offered, hp, decode]
    | succ m ih =>
      intro n s hm hn
      cases n with
      | zero =>
        have hp : s.port = [] := List.length_eq_zero_iff.mp (by omega)
        simp [acceptLoop, State.offered, hp, decode]
      | succ n =>
        unfold acceptLoop
        split
        · rfl
        · split
          · rfl
          · next hd =>
            have hne : s.port ≠ [] := by
              rintro hp; simp [State.offered, hp, decode] at hd
            have : 0 < s.port.length := List.length_pos_iff.mpr hne
            exact ih n _ (by simp [State.rejectWord, State.respond]; omega)
              (by simp [State.rejectWord, State.respond]; omega)
          · next i rest hd =>
            have hl := State.wordLength_le_port hd
            have hp := wordLength_pos i
            cases he : exec i (s.takeWords (wordLength i)) with
            | next u =>
              have hport := (exec_frame he).port
              exact ih n u (by rw [hport]; simp; omega) (by rw [hport]; simp; omega)
            | fault r => rfl
            | refused r => rfl
  exact key n s.port.length s h (Nat.le_refl _)

/-- What all the acceptances of a tick leave alone, apart from the port. -/
theorem acceptLoop_frame {n : Nat} {s t : State} (h : acceptLoop exec n s = .next t) :
    t.cfg = s.cfg ∧ t.now = s.now ∧ t.fresh = s.fresh ∧ t.prev = s.prev ∧ t.level = s.level ∧ t.isr = s.isr ∧
      t.changes = s.changes ∧ t.wires = s.wires ∧ t.slots.length = s.slots.length := by
  refine acceptLoop_induct (P := fun t => t.cfg = s.cfg ∧ t.now = s.now ∧ t.fresh = s.fresh ∧ t.prev = s.prev ∧
      t.level = s.level ∧ t.isr = s.isr ∧ t.changes = s.changes ∧ t.wires = s.wires ∧
      t.slots.length = s.slots.length) ?_ ?_ n s t ⟨rfl, rfl, rfl, rfl, rfl, rfl, rfl, rfl, rfl⟩ h
  · exact fun u hu _ => hu
  · intro u i v rest ⟨h1, h2, h3, h4, h5, h6, h7, h8, h9⟩ _ _ hv
    have k := exec_frame hv
    exact ⟨k.cfg.trans h1, k.now.trans h2, k.fresh.trans h3, k.prev.trans h4, k.level.trans h5, k.isr.trans h6,
      k.changes.trans h7, k.wires.trans h8, k.slots_length.trans h9⟩

/-! ## Runs -/

/-- A run of one more tick, its last tick apart. -/
theorem ticks_last (n : Nat) (s : State) : ticks (n + 1) s = andThen (ticks n s) step := by
  induction n generalizing s with
  | zero => simp only [ticks, andThen_next]; cases step s <;> rfl
  | succ n ih =>
    rw [ticks]
    conv_rhs => rw [ticks]
    cases h : step s with
    | next u => exact ih u
    | fault r => rfl
    | refused r => rfl

/-- The runs of the claims are those of the host's interface. -/
theorem ticks_eq_run (n : Nat) (s : State) : ticks n s = Host.Core.run Sys2Proof.core n s := by
  have key : ∀ (n : Nat) (s : State),
      ticks n s = (Host.Core.mk State Fault Refusal step State.reset).run n s := by
    intro n
    induction n with
    | zero => intro s; rfl
    | succ n ih =>
      intro s
      rw [ticks, Host.Core.run.eq_def]
      dsimp only
      cases step s with
      | next u => exact ih u
      | fault r => rfl
      | refused r => rfl
  exact key n s

/-! ## The step -/

/-- A step that goes on either held the normal context or accepted what was on offer (R15). -/
theorem step_cases {s t : State} (h : step s = .next t) :
    (s.interruptPart.held = true ∧ t = s.interruptPart) ∨
    (s.interruptPart.held = false ∧ acceptAll exec s.beforeAccept = .next t) := by
  unfold step tickWith at h
  split at h
  · next hh => cases h; exact .inl ⟨hh, rfl⟩
  · next hh => exact .inr ⟨by simpa using hh, h⟩

theorem State.beforeAccept_of_not_held {s : State} (h : s.interruptPart.held = false) :
    s.beforeAccept = s.interruptPart.transmitStep := by simp [State.beforeAccept, h]

theorem step_of_not_held {s : State} (h : s.interruptPart.held = false) :
    step s = acceptAll exec s.beforeAccept := by simp [step, tickWith, h]

/-- A property that the interrupt part, the transmit step, every accepted operation and every rejected word keep is
kept by a step. -/
theorem step_induct {P : State → Prop} {s t : State} (hi : P s.interruptPart)
    (ht : ∀ u, P u → P u.transmitStep)
    (hr : ∀ u, P u → u.tx.busy = false → P u.rejectWord)
    (ho : ∀ u i v rest, P u → u.tx.busy = false → decode u.offered = .op i rest →
      exec i (u.takeWords (wordLength i)) = .next v → P v)
    (h : step s = .next t) : P t := by
  rcases step_cases h with ⟨-, rfl⟩ | ⟨hh, ha⟩
  · exact hi
  · rw [State.beforeAccept_of_not_held hh] at ha
    exact acceptLoop_induct hr ho _ _ _ (ht _ hi) ha

end Sys2Proof.Machine
end

