-- ==== Sys2Proof/Laws/Timing.lean ====
section
/-! SUPPORT. Bounds of the Timing Calculator (spec/40_timing_calculator.md R131 to R135). -/

namespace Sys2Proof.Machine

/-- A bit period fits its 32-bit register, so the register holds it exactly (R24, R131). -/
theorem bitPeriodOf_lt (baud : Baud) : bitPeriodOf baud < 2 ^ 32 := by
  unfold bitPeriodOf
  rcases Nat.eq_zero_or_pos baud.toNat with h | h
  · simp [h]
  · have : (2000000 + baud.toNat) / (2 * baud.toNat) ≤ 1000001 := Nat.div_le_of_le_mul (by omega)
    omega

@[simp] theorem toNat_bitPeriodReg (baud : Baud) : (bitPeriodReg baud).toNat = bitPeriodOf baud := by
  rw [bitPeriodReg, BitVec.toNat_ofNat, Nat.mod_eq_of_lt (bitPeriodOf_lt baud)]

/-- The centering delay where R8 holds (R133). -/
theorem centeringDelay_of_fits {c : Config} {bp : Nat} (h : c.marginFits bp = true) :
    (centeringDelay c bp : Int) = ((bp / 2 : Nat) : Int) + c.startupMargin := by
  have h' : 0 ≤ ((bp / 2 : Nat) : Int) + c.startupMargin := by simpa [Config.marginFits] using h
  simp only [centeringDelay, h, if_true]
  exact Int.toNat_of_nonneg h'

/-- Samples are in order. -/
theorem sampleOffset_mono (c : Config) (bp : Nat) {j k : Nat} (h : j ≤ k) :
    sampleOffset c bp j ≤ sampleOffset c bp k := by
  unfold sampleOffset intraBitDelay
  exact Nat.add_le_add_left (Nat.mul_le_mul_right _ (by omega)) _

/-- The run ends one stop-bit delay after its last sample. -/
theorem windowLength_eq (c : Config) (bp : Nat) : windowLength c bp = sampleOffset c bp 7 + stopBitDelay bp := rfl

end Sys2Proof.Machine
end

