-- ==== Sys2Proof/Tests/Slice0.lean ====
section
/-! SUPPORT. The model's own tests.  Part 1 checks decoding and one step against numbers the spec writes out
(spec/95_test_vectors.md, cited at each test); part 2 shows, for every statement with hypotheses, concrete states and
operands that meet them. -/

namespace Sys2Proof.Tests

open Sys2Proof.Machine

-- Keeps the number of concurrent kernel checks, and with it the memory of a compilation, small.
set_option Elab.async false

/-! ## Part 1.  Well-formedness -/

theorem test_puts_count_must_fit_its_field (bs : List Byte) (h : bs.length = 2 ^ 32) :
    (Instr.puts 0#8 bs).wellFormed = false := by simp [Instr.wellFormed, h]

theorem test_puts_two_bytes_is_well_formed : (Instr.puts 2#8 [0x48#8, 0x69#8]).wellFormed = true := by decide +kernel

theorem test_config_constraints :
    Config.ref.wf = true ∧ { Config.ref with nInst := 0 }.wf = false ∧ { Config.ref with nInst := 257 }.wf = false ∧
      { Config.ref with bufCap := 1 }.wf = false ∧ { Config.ref with bufCap := 12 }.wf = false ∧
      { Config.ref with settleBits := 0 }.wf = false := by decide +kernel

/-! ## Part 1.  Decoding, the words of V60, V61, V62 and of programs P1 to P5 -/

theorem test_decode_open :
    decode [0x10030C0D0001C200#64] = .op (.openInst 3#8 115200#32 12#8 13#8) [] ∧
    decode [0x10FFFFFEFFFFFFFF#64] = .op (.openInst 255#8 4294967295#32 255#8 254#8) [] := by decide +kernel
theorem test_decode_close : decode [0x2003000000000000#64] = .op (.closeInst 3#8) [] := by decide +kernel
theorem test_decode_isactive : decode [0x30C8000000000000#64] = .op (.isActive 200#8) [] := by decide +kernel
theorem test_decode_put : decode [0x40010000000000FF#64] = .op (.put 1#8 0xFF#8) [] := by decide +kernel
theorem test_decode_puts :
    decode [0x5002000000000002#64, 0xFFFFFFFFFFFFFF48#64, 0x69#64, 0x6000000000000000#64] =
      .op (.puts 2#8 [0x48#8, 0x69#8]) [0x6000000000000000#64] ∧
    decode [0x5000000000000000#64] = .op (.puts 0#8 []) [] ∧
    decode [0x5002000000000002#64, 0x48#64] = .incomplete := by decide +kernel
theorem test_decode_avail : decode [0x6000000000000000#64] = .op (.avail 0#8) [] := by decide +kernel
theorem test_decode_read : decode [0x7001000000000000#64] = .op (.read 1#8) [] := by decide +kernel
theorem test_decode_ovf : decode [0x8000000000000000#64] = .op (.ovf 0#8) [] := by decide +kernel
theorem test_decode_ovfclr : decode [0x90C8000000000000#64] = .op (.ovfclr 200#8) [] := by decide +kernel

theorem test_decode_illegal :
    decode [0x0000000000000000#64] = .illegal .reservedOp [] ∧
    decode [0xA000000000000000#64] = .illegal .reservedOp [] ∧
    decode [0xF000000000000000#64] = .illegal .reservedOp [] ∧
    decode [0x1100050400002580#64] = .illegal .zeroField [] ∧
    decode [0x2003000000000001#64] = .illegal .operandField [] ∧
    decode [0x6000050000000000#64] = .illegal .operandField [] ∧
    decode [0x4000000000000141#64] = .illegal .operandField [] ∧
    decode [0x5000000400000002#64, 0x6000000000000000#64] =
      .illegal .operandField [0x6000000000000000#64] := by decide +kernel

theorem test_table_word :
    decodeTableWord 64 0x100207060000012C = some (.openInst 2#8 300#32 7#8 6#8) ∧
    decodeTableWord 64 0x5001000000000002 = some (.puts 1#8 [0#8, 0#8]) ∧
    decodeTableWord 64 0x2003000000000001 = none := by decide +kernel

/-- No two rows of the opcode map match one word. -/
theorem test_rows_do_not_overlap :
    allOps.Pairwise (fun o p => opMask o &&& opMask p &&& opMatch o ≠ opMask o &&& opMask p &&& opMatch p) := by decide +kernel

/-! ## Part 1.  The bit periods of V1 to V4 -/

theorem test_bit_periods :
    [(1, 1000000), (3, 333333), (9600, 104), (115200, 9), (250000, 4), (1000000, 1), (110, 9091), (2400, 417),
      (57600, 17), (74880, 13), (921600, 1), (80000, 13), (16000, 63), (400000, 3), (2000000, 1), (1333333, 1),
      (1999999, 1), (2000001, 0), (4294967295, 0)].all
      (fun e : Nat × Nat => decide (bitPeriodOf (BitVec.ofNat 32 e.1) = e.2)) = true := by decide +kernel

/-! ## Part 1.  One step of each operation -/

/-- `REF` with instance 0 open at 9600 baud on pins 5 and 4 and instance 1 at 19200 on pins 7 and 6 (P4 row 5). -/
def two : State := ((State.resetOf Config.ref).openSuccess 0 9600#32 5#8 4#8).openSuccess 1 19200#32 7#8 6#8

/-- `SMALL` with instance 0 open and its buffer given. -/
def withBuffer (storage : Memory) (head tail : Nat) (flag : Bool) : State :=
  ((State.resetOf Config.small).openSuccess 0 9600#32 5#8 4#8).setBuf 0
    { storage := storage, head := head, tail := tail, overflowFlag := flag }

/-- The word of the last response after an operation. -/
def answer? (i : Instr) (s : State) : Option RespWord :=
  (nextState? (exec i s)).bind (fun t => t.responses.getLast?.map (·.word))

/-- The example of R158, as one tick from reset with the word of P1. -/
theorem test_open_from_reset :
    ((nextState? (step (State.reset.withFetchWord 64 0x1000050400002580))).map (fun t =>
      (t.inst 0, t.buf 0, t.rx 0))) =
    some ({ rxPin := 5#8, txPin := 4#8, baudRate := 9600#32, bitPeriod := 104#32 },
      { storage := [], head := 0, tail := 0, overflowFlag := false }, { attached := true, pend := false }) := by
  decide +kernel
theorem test_open_from_reset_pins :
    ((nextState? (step (State.reset.withFetchWord 64 0x1000050400002580))).map (fun t =>
      (t.pin 5#8, t.pin 4#8, t.responses.map (·.word)))) =
    some ({ dir := .input, pullUp := true, pullDown := false, out := false },
      { dir := .output, pullUp := true, pullDown := false, out := true }, [1#32]) := by decide +kernel

/-- V51 and V54. -/
theorem test_open_conflicts :
    answer? (.openInst 1#8 9600#32 4#8 7#8) two = some 0#32 ∧ answer? (.openInst 4#8 9600#32 8#8 9#8) two = some 0#32 ∧
    answer? (.openInst 2#8 0#32 8#8 9#8) two = some 0#32 ∧ answer? (.openInst 2#8 9600#32 8#8 8#8) two = some 0#32 ∧
    answer? (.openInst 0#8 115200#32 7#8 9#8) two = some 0#32 ∧
    answer? (.openInst 0#8 115200#32 5#8 4#8) two = some 1#32 := by decide +kernel

/-- V52. -/
theorem test_close :
    answer? (.closeInst 1#8) two = some 1#32 ∧ answer? (.closeInst 3#8) two = some 1#32 ∧
    answer? (.closeInst 4#8) two = some 0#32 ∧
    (nextState? (exec (.closeInst 1#8) two)).map (fun t => ((t.inst 1).baudRate, t.rx 1, (t.pin 6#8).dir)) =
      some (0#32, { attached := false, pend := false }, .output) := by decide +kernel

/-- P4 rows 2, 11 and 20. -/
theorem test_isactive :
    answer? (.isActive 0#8) two = some 1#32 ∧ answer? (.isActive 2#8) two = some 0#32 ∧
    answer? (.isActive 200#8) two = some 0#32 := by decide +kernel

/-- The first write of R233, and V53's failing PUT. -/
theorem test_put :
    (nextState? (exec (.put 0#8 0x41#8) { two with now := 5000 })).map (fun t => (t.pin 4#8, t.tx, t.responses)) =
      some ({ dir := .output, pullUp := true, pullDown := false, out := false },
        { busy := true, inst := 0, byte := 0x41#8, t0 := 5000, j := 1, rest := [] }, []) ∧
    answer? (.put 2#8 0x41#8) two = some 0#32 := by decide +kernel

/-- The transmit actions of R233 in tick 6288, after the receive run: the stop level and the return. -/
theorem test_put_catches_up :
    (fun t : State => ((t.pin 4#8).out, t.tx.busy, t.responses))
      (State.transmitStep
        { two with
          now := 6288
          tx := { busy := true, inst := 0, byte := 0x41#8, t0 := 5000, j := 3, rest := [] } }) =
      (true, false, [{ tick := 6288, word := 1#32 }]) := by decide +kernel

/-- R235 (a) and (b), and the first frame of P2. -/
theorem test_puts :
    answer? (.puts 0#8 []) two = some 1#32 ∧ answer? (.puts 2#8 []) two = some 0#32 ∧
    (nextState? (exec (.puts 0#8 [0x48#8, 0x69#8]) { two with now := 1000 })).map (fun t => (t.tx, t.responses)) =
      some ({ busy := true, inst := 0, byte := 0x48#8, t0 := 1000, j := 1, rest := [0x69#8] }, []) := by decide +kernel

/-- The second frame of P2 begins in the tick in which the first PUT returns (R234). -/
theorem test_puts_next_frame :
    (State.transmitStep
      { two with
        now := 2248
        tx := { busy := true, inst := 0, byte := 0x48#8, t0 := 1000, j := 10, rest := [0x69#8] } }).tx =
      { busy := true, inst := 0, byte := 0x69#8, t0 := 2248, j := 1, rest := [] } := by decide +kernel

/-- The example of R250. -/
theorem test_avail : answer? (.avail 0#8) (withBuffer [] 6 1 false) = some 3#32 := by decide +kernel

/-- The example of R252. -/
theorem test_read :
    (nextState? (exec (.read 0#8) (withBuffer [(0, 0x21#8), (7, 0x20#8)] 7 1 true))).map (fun t =>
      (t.buf 0, t.responses.map (·.word))) =
      some ({ storage := [(0, 0x21#8), (7, 0x20#8)], head := 0, tail := 1, overflowFlag := true }, [0x20#32]) ∧
    answer? (.read 0#8) (withBuffer [(0, 0x21#8)] 1 1 false) = some 0#32 := by decide +kernel

/-- The example of R256, and V23. -/
theorem test_ovf :
    answer? (.ovf 0#8) (withBuffer [] 0 7 true) = some 1#32 ∧ answer? (.ovf 200#8) two = some 0#32 := by decide +kernel
theorem test_ovfclr :
    (nextState? (exec (.ovfclr 0#8) (withBuffer [] 0 7 true))).map (fun t => (t.buf 0, t.responses.map (·.word))) =
      some ({ storage := [], head := 0, tail := 7, overflowFlag := false }, [1#32]) ∧
    answer? (.ovfclr 1#8) (withBuffer [] 0 7 true) = some 0#32 := by decide +kernel

/-- The example of R66, and the drop of V21. -/
theorem test_append :
    ((withBuffer [] 6 7 false).append 0 0x20#8).buf 0 =
      { storage := [(7, 0x20#8)], head := 6, tail := 0, overflowFlag := false } ∧
    ((withBuffer [(0, 0x10#8)] 0 7 false).append 0 0x17#8).buf 0 =
      { storage := [(0, 0x10#8)], head := 0, tail := 7, overflowFlag := true } := by decide +kernel

/-! ## Part 1.  One tick of the receive sequencer -/

/-- V19a: falls on two pins in one tick, then the lower index runs and the other waits or is dropped. -/
theorem test_two_edges :
    (fun t : State => (t.isr, t.rx 0, t.rx 1))
      (State.interruptPart
        { two with
          fresh := false
          now := 999
          changes := [{ tick := 1000, pin := 5#8, level := false }, { tick := 1000, pin := 7#8, level := false }] }) =
      ({ busy := true, inst := 0, ts := 1000, k := 0, shift := 0#8 }, { attached := false, pend := false },
        { attached := true, pend := true }) := by decide +kernel

/-- The state of V10 in the tick before its eighth sample, the line in data bit 7 at 0, `cd = 52`, `bp = 104`. -/
def beforeLastSample : State :=
  { (two.setRx 0 { attached := false, pend := false }) with
    fresh := false
    now := 1883
    level := [(5, false)]
    isr := { busy := true, inst := 0, ts := 1000, k := 7, shift := 0x55#8 } }

theorem test_last_sample_appends :
    (fun t : State => (t.buf 0, t.isr)) beforeLastSample.interruptPart =
      ({ storage := [(0, 0x55#8)], head := 0, tail := 1, overflowFlag := false },
        { busy := true, inst := 0, ts := 1000, k := 8, shift := 0x55#8 }) := by decide +kernel

/-- V10: the run ends in tick 1988 and re-arms. -/
theorem test_run_ends :
    (fun t : State => (t.rx 0, t.isr.busy))
      (State.interruptPart
        { beforeLastSample with
          now := 1987
          isr := { busy := true, inst := 0, ts := 1000, k := 8, shift := 0x55#8 } }) =
      ({ attached := true, pend := false }, false) := by decide +kernel

/-- V42: a wire shows the level its source was driven to in the tick before. -/
theorem test_wire_delay :
    levelOf
      (State.nextLevel
        { two.gpioSet 4#8 false with wires := [{ source := 4#8, sink := 7#8 }, { source := 9#8, sink := 8#8 }] }) 7#8 =
        false ∧
    levelOf (State.nextLevel { two with wires := [{ source := 9#8, sink := 8#8 }] }) 8#8 = true := by decide +kernel

/-- R332: a reset in the middle of a start bit leaves the transmit pin unconfigured and undriven. -/
theorem test_restart_releases_the_pins :
    (two.beginPut 0 0x41#8 []).out 4#8 = some false ∧ (two.beginPut 0 0x41#8 []).restart.out 4#8 = none ∧
      ((two.beginPut 0 0x41#8 []).restart.pin 4#8).dir = .unconfigured := by decide +kernel

/-- U7: with the margin 0 a run with a bit period of 0 takes the low level of its edge and appends 0x00 in its tick. -/
theorem test_zero_period_run :
    (fun t : State => (t.isr.busy, t.buf 0, t.rx 0))
      (State.interruptPart
        { (State.resetOf Config.small).openSuccess 0 2000001#32 5#8 4#8 with
          fresh := false
          changes := [{ tick := 1, pin := 5#8, level := false }] }) =
      (false, { storage := [], head := 0, tail := 1, overflowFlag := false }, { attached := true, pend := false }) := by
  decide +kernel

/-! ## Part 2.  States for the hypotheses of the statements -/

/-- Two instances, four cells a buffer, no `SINGLE_CORE`. -/
def wcfg : Config where
  nInst := 2
  bufCap := 4
  startupMargin := 0
  settleBits := 1
  singleCore := false
  pendLatch := true

/-- Nothing open. -/
def idle : State := State.resetOf wcfg
/-- Instance 0 open at 1 000 000 baud, a bit period of 1, on pins 5 and 4. -/
def opened : State := idle.openSuccess 0 1000000#32 5#8 4#8
/-- Both instances open. -/
def both : State := opened.openSuccess 1 1000000#32 7#8 6#8
/-- Both pending. -/
def pending : State := (both.setRx 0 { attached := true, pend := true }).setRx 1 { attached := true, pend := true }
/-- The run for instance 0 has just started. -/
def running : State := both.startRun 0
/-- A PUT on instance 0 has just begun. -/
def sending : State := both.beginPut 0 0xA5#8 []
/-- Instance 0 open at a rate whose bit period is 0. -/
def fast : State := idle.openSuccess 0 2000001#32 5#8 4#8
/-- Both instances open at a rate whose bit period is 0, with the given margin. -/
def fastWith (margin : Int) : State :=
  ((State.resetOf { wcfg with startupMargin := margin }).openSuccess 0 2000001#32 5#8 4#8).openSuccess 1 4294967295#32
    7#8 6#8
/-- Instance 0 open, its buffer with one byte, wrapped, and the flag set. -/
def oneByte : State :=
  opened.setBuf 0 { storage := [(3, 0x77#8)], head := 3, tail := 0, overflowFlag := true }
/-- Instance 0 open, its buffer full. -/
def full : State :=
  opened.setBuf 0
    { storage := [(0, 0x11#8), (2, 0x22#8), (3, 0x33#8)], head := 2, tail := 1, overflowFlag := false }
/-- `oneByte` with another byte in a cell outside the occupied range. -/
def oneByteStale : State :=
  opened.setBuf 0 { storage := [(1, 0x99#8), (3, 0x77#8)], head := 3, tail := 0, overflowFlag := true }
/-- `sending` with the transmit pin of instance 0 wired to the receive pin of instance 1. -/
def looped : State := { sending with fresh := false, wires := [{ source := 4#8, sink := 7#8 }] }
/-- `idle` with words on offer from its first tick on. -/
def offering (ws : List Word) : State := idle.withPort ws
/-- `running` of a block with `SINGLE_CORE`. -/
def held : State := { running with cfg := { wcfg with singleCore := true } }

theorem witness_sound_opened : SoundState opened := by constructor <;> decide +kernel
theorem witness_sound_running : SoundState running := by constructor <;> decide +kernel
theorem witness_sound_sending : SoundState sending := by constructor <;> decide +kernel
theorem witness_sound_oneByte : SoundState oneByte := by constructor <;> decide +kernel
theorem witness_sound_oneByteStale : SoundState oneByteStale := by constructor <;> decide +kernel
theorem witness_sound_full : SoundState full := by constructor <;> decide +kernel
theorem witness_sound_looped : SoundState looped := by constructor <;> decide +kernel

/-! ## Part 2.  Witnesses, in the order of the statements -/

theorem witness_DecodeAfterEncodeGivesInstruction :
    (Instr.puts 255#8 []).wellFormed = true ∧ (Instr.openInst 255#8 4294967295#32 255#8 0#8).wellFormed = true := by
  decide +kernel
theorem witness_DecodedWordIsItsEncoding :
    decode (0x5002000000000001#64 :: [0xFF48#64, 0x0#64]) = .op (.puts 2#8 [0x48#8]) [0x0#64] := by decide +kernel
theorem witness_IllegalWordAnswersZero :
    let s := (offering [0#64, 0x6000000000000000#64]).beforeAccept
    s.tx.busy = false ∧ s.offered = 0#64 :: [0x6000000000000000#64] ∧ ∀ o : Op, 0#64 &&& opMask o ≠ opMatch o :=
  ⟨by decide +kernel, by decide +kernel, fun o => by cases o <;> decide +kernel⟩
theorem witness_StepRunsTheDecodedInstruction :
    let s := offering [0x1001070600002580#64]
    s.interruptPart.held = false ∧ s.beforeAccept.tx.busy = false ∧
      decode s.beforeAccept.offered = .op (.openInst 1#8 9600#32 7#8 6#8) [] ∧
      s.beforeAccept.port.length = wordLength (.openInst 1#8 9600#32 7#8 6#8) := by decide +kernel
theorem witness_PlacedWordRunsInTheNextTick :
    decodeTableWord 64 0x5001000000000001 = some (.puts 1#8 [0#8]) := by decide +kernel
theorem witness_OperationIssuesOneResponse :
    both.tx.busy = false ∧ nextState? (exec (.avail 1#8) both) = some (both.respond 0#32) ∧
      nextState? (exec (.put 0#8 0xA5#8) both) = some sending := by decide +kernel
theorem witness_IsActiveReadsTheRate :
    opened.slots.length = opened.cfg.nInst ∧ opened.openFails 1#8 1000000#32 7#8 6#8 = false ∧
      nextState? (exec (.openInst 1#8 1000000#32 7#8 6#8) opened) = some (both.respond 1#32) ∧
      nextState? (exec (.closeInst 2#8) opened) = some (opened.respond 0#32) ∧
      (nextState? (exec (.closeInst 0#8) opened)).isSome = true := by decide +kernel
theorem witness_OpenFailureWritesNothing :
    opened.cfg.nInst ≤ (2#8 : Index).toNat ∧
    (0 < opened.cfg.nInst ∧ 0 ≠ (1#8 : Index).toNat ∧ (opened.inst 0).baudRate ≠ 0#32 ∧
      (5#8 : Pin) = (opened.inst 0).rxPin ∧ (4#8 : Pin) = (opened.inst 0).txPin) := by decide +kernel
theorem witness_OpenSuccessConfiguresTheInstance :
    opened.slots.length = opened.cfg.nInst ∧ (1#8 : Index).toNat < opened.cfg.nInst ∧
    (∀ j, j < opened.cfg.nInst → j ≠ (1#8 : Index).toNat → (opened.inst j).baudRate ≠ 0#32 →
      (7#8 : Pin) ≠ (opened.inst j).rxPin ∧ (7#8 : Pin) ≠ (opened.inst j).txPin ∧
        (6#8 : Pin) ≠ (opened.inst j).rxPin ∧ (6#8 : Pin) ≠ (opened.inst j).txPin) ∧
    opened.receivingFor 1#8 = false := by decide +kernel
theorem witness_ReopenIsCloseThenOpen :
    both.slots.length = both.cfg.nInst ∧ both.gate 1#8 = true ∧ both.openFails 1#8 1#32 6#8 7#8 = false ∧
      both.receivingFor 1#8 = false := by decide +kernel
theorem witness_CloseDeactivatesTheInstance :
    both.cfg.nInst ≤ (2#8 : Index).toNat ∧ both.slots.length = both.cfg.nInst ∧
      (1#8 : Index).toNat < both.cfg.nInst ∧ both.receivingFor 1#8 = false := by decide +kernel
theorem witness_CloseTwiceChangesNothingMore :
    SoundState opened ∧ (1#8 : Index).toNat < opened.cfg.nInst ∧ opened.isActive (1#8 : Index).toNat = false ∧
      opened.slots.length = opened.cfg.nInst ∧ opened.receivingFor 0#8 = false :=
  ⟨witness_sound_opened, by decide +kernel⟩
theorem witness_RegistryRaceHasNoNextState :
    running.isr.busy = true ∧ running.isr.inst = (0#8 : Index).toNat ∧ (0#8 : Index).toNat < running.cfg.nInst ∧
      running.openFails 0#8 9600#32 5#8 4#8 = false := by decide +kernel
theorem witness_GatedOperationsFailWhenInactive :
    opened.cfg.nInst ≤ (2#8 : Index).toNat ∧ (opened.inst (1#8 : Index).toNat).baudRate = 0#32 := by decide +kernel
theorem witness_EmptyFullAndOccupancyAgree :
    (full.buf 0).head < 4 ∧ (full.buf 0).tail < 4 ∧ (full.buf 0).isFull 4 = true ∧ (opened.buf 0).isEmpty = true ∧
      (Buffer.mk [] 1 0 false).isFull 2 = true := by decide +kernel
theorem witness_IndexArithmeticIsModular :
    wcfg.wf = true ∧ (oneByte.buf 0).head < wcfg.bufCap ∧ (oneByte.buf 0).tail < wcfg.bufCap ∧
      nextPos wcfg.bufCap (oneByte.buf 0).head = 0 := by decide +kernel
theorem witness_AppendStoresAtTailOrDrops :
    0 < full.slots.length ∧ ((full.buf 0).tail + 1) % full.cfg.bufCap = (full.buf 0).head ∧
      0 < oneByte.slots.length ∧ ((oneByte.buf 0).tail + 1) % oneByte.cfg.bufCap ≠ (oneByte.buf 0).head := by decide +kernel
theorem witness_BufferIsABoundedQueue :
    SoundState full ∧ SoundState oneByte ∧ SoundState opened ∧ full.isActive 0 = true ∧ oneByte.isActive 0 = true ∧
      (full.buf 0).contents 4 = [0x22#8, 0x33#8, 0x11#8] ∧ (oneByte.buf 0).contents 4 = [0x77#8] ∧
      (opened.buf 0).contents 4 = [] :=
  ⟨witness_sound_full, witness_sound_oneByte, witness_sound_opened, by decide +kernel⟩
theorem witness_buffer_access :
    oneByte.slots.length = oneByte.cfg.nInst ∧ oneByte.gate 0#8 = true ∧ oneByte.gate 1#8 = false ∧
      (oneByte.buf 0).head ≠ (oneByte.buf 0).tail ∧ (opened.buf 0).head = (opened.buf 0).tail ∧
      full.gate 0#8 = true ∧ (full.buf 0).isFull full.cfg.bufCap = true ∧
      (full.buf 0).occupancy full.cfg.bufCap = 3 ∧ (full.buf 0).occupancy full.cfg.bufCap < 2 ^ 32 ∧
      ((full.buf 0).contents full.cfg.bufCap).length < 2 ^ 32 := by decide +kernel
theorem witness_OverflowFlagIsSticky :
    (nextState? (exec (.ovfclr 0#8) oneByte)).isSome = true ∧ (nextState? (exec (.read 0#8) oneByte)).isSome = true ∧
      (oneByte.buf 0).overflowFlag = true ∧
      (nextState? (exec (.read 0#8) oneByte)).map (fun t => (t.buf 0).overflowFlag) = some true := by decide +kernel
theorem witness_operations_with_a_next_state :
    [Instr.openInst 1#8 1000000#32 7#8 6#8, Instr.closeInst 0#8, Instr.isActive 0#8, Instr.put 0#8 1#8,
      Instr.puts 0#8 [1#8, 2#8], Instr.avail 0#8, Instr.read 0#8, Instr.ovf 0#8, Instr.ovfclr 0#8].all
      (fun i => (nextState? (exec i oneByte)).isSome) = true := by decide +kernel
theorem witness_StaleStorageIsUnobservable :
    SoundState oneByte ∧ SoundState oneByteStale ∧ sameButStale oneByte oneByteStale ∧ oneByte ≠ oneByteStale ∧
      (nextState? (step oneByte)).isSome = true :=
  ⟨witness_sound_oneByte, witness_sound_oneByteStale, ⟨by decide +kernel, by decide +kernel⟩, by decide +kernel⟩
theorem witness_StaleStorageIsUnobservable_fault :
    let s := running.withPort [0x2000000000000000#64]
    SoundState s ∧ sameButStale s s ∧ step s = .fault .registryRace :=
  ⟨by constructor <;> decide +kernel, ⟨rfl, fun _ _ => rfl⟩, by rfl⟩
theorem witness_BitPeriodRoundsToNearest :
    (666667#32 : Baud) ≠ 0#32 ∧ bitPeriodOf 666666#32 = 2 ∧ bitPeriodOf 666667#32 = 1 ∧ bitPeriodOf 2000000#32 = 1 ∧
      bitPeriodOf 2000001#32 = 0 := by decide +kernel
theorem witness_FallingEdgeSetsPending :
    let s : State := { both with fresh := false, changes := [{ tick := 1, pin := 7#8, level := false }] }
    (s.rx 1).attached = true ∧ s.fresh = false ∧ levelOf s.level (s.inst 1).rxPin = true ∧
      levelOf s.nextLevel (s.inst 1).rxPin = false ∧ (s.isr.busy = false ∨ s.cfg.pendLatch = true) := by decide +kernel
theorem witness_RunStartsForTheLowestPendingIndex :
    pending.slots.length = pending.cfg.nInst ∧ pending.isr.busy = false ∧ (pending.rx 0).pend = true ∧
      (pending.rx 0).attached = true ∧ 0 < windowLength pending.cfg (pending.bitPeriod 0) ∧
      (∀ i, i < both.cfg.nInst → ¬ ((both.rx i).pend = true ∧ (both.rx i).attached = true)) := by decide +kernel
theorem witness_SampleTakenAtItsTick :
    let due : State := { running with now := 1 }
    let last : State := { running with now := 8, isr := { running.isr with k := 7 } }
    running.isr.busy = true ∧ running.isr.k < 8 ∧ 0 < running.runPeriod ∧
      running.cfg.marginFits running.runPeriod = true ∧
      ((running.now : Int) < running.isr.ts + ((running.runPeriod / 2 : Nat) : Int) + running.cfg.startupMargin +
        (running.isr.k + 1) * running.runPeriod) ∧
      ((due.now : Int) = due.isr.ts + ((due.runPeriod / 2 : Nat) : Int) + due.cfg.startupMargin +
        (due.isr.k + 1) * due.runPeriod) ∧
      ((last.now : Int) = last.isr.ts + ((last.runPeriod / 2 : Nat) : Int) + last.cfg.startupMargin +
        (last.isr.k + 1) * last.runPeriod) := by decide +kernel
theorem witness_RunEndsAndReArms :
    let s : State := { running with now := 8, isr := { running.isr with k := 8 } }
    s.isr.busy = true ∧ s.isr.k = 8 ∧ s.isr.inst < s.slots.length ∧
      s.now < s.isr.ts + centeringDelay s.cfg s.runPeriod + 9 * s.runPeriod ∧
      s.isr.ts + centeringDelay s.cfg s.runPeriod + 9 * s.runPeriod ≤ s.now + 1 := by decide +kernel
theorem witness_ZeroPeriodRunTakesOneTick :
    let early := (fastWith 5).startRun 0
    let due : State := { early with now := 5 }
    (∀ s ∈ [early, due], s.isr.busy = true ∧ s.isr.k < 8 ∧ s.isr.inst < s.slots.length ∧ s.runPeriod = 0) ∧
      0 ≤ early.cfg.startupMargin ∧ early.now < early.isr.ts + centeringDelay early.cfg 0 ∧
      due.isr.ts + centeringDelay due.cfg 0 ≤ due.now := by decide +kernel
theorem witness_ZeroWindowRunsFollowInOneTick :
    let s := ((fastWith 0).setRx 0 { attached := true, pend := true }).setRx 1 { attached := true, pend := true }
    s.slots.length = s.cfg.nInst ∧ s.isr.busy = false ∧ 0 < s.cfg.nInst ∧ (s.rx 0).pend = true ∧
      (s.rx 0).attached = true ∧ windowLength s.cfg (s.bitPeriod 0) = 0 ∧ s.interruptStep.isr.inst = 1 := by
  decide +kernel
theorem witness_LineIsNotWatchedInTheWindow :
    SoundState running ∧ running.isr.busy = true ∧
      running.now + 1 < running.isr.ts + windowLength running.cfg running.runPeriod ∧
      (nextState? (step running)).isSome = true :=
  ⟨witness_sound_running, by decide +kernel⟩
theorem witness_RunAppendsTheSampledByte :
    SoundState running ∧ running.isr.busy = true ∧ running.isr.ts = running.now ∧ running.isr.k = 0 ∧
      0 < running.runPeriod ∧
      (nextState? (ticks (sampleOffset running.cfg running.runPeriod 7 - 1) running)).isSome = true :=
  ⟨witness_sound_running, by decide +kernel⟩
theorem witness_InterruptPartOnlyProduces : SoundState oneByte ∧ 1 < oneByte.cfg.nInst :=
  ⟨witness_sound_oneByte, by decide +kernel⟩
theorem witness_PutDrivesTheStartBit_and_PutsBeginsWithItsFirstByte :
    opened.gate 0#8 = true ∧ 0 < opened.bitPeriod (0#8 : Index).toNat := by decide +kernel
theorem witness_ZeroPeriodSendsInOneTick :
    fast.gate 0#8 = true ∧ fast.bitPeriod (0#8 : Index).toNat = 0 := by decide +kernel
theorem witness_TransmitPinFollowsElapsedTime :
    let s : State := { sending with now := 5 }
    s.tx.busy = true ∧ 0 < s.txPeriod ∧ 1 ≤ s.tx.j ∧ s.tx.j ≤ 10 ∧ s.tx.t0 + s.txPeriod * (s.tx.j - 1) ≤ s.now ∧
      (s.pin (s.inst s.tx.inst).txPin).out = frameLevel s.tx.byte (s.tx.j - 1) ∧
      s.now < s.tx.t0 + s.txPeriod * (9 + s.cfg.settleBits) := by decide +kernel
theorem witness_PutReturnsAndNextByteBegins :
    let late : State := { sending with now := 10 }
    let more : State := { late with tx := { late.tx with rest := [1#8] } }
    let gone : State := more.setInst 0 { more.inst 0 with baudRate := 0#32 }
    (∀ s ∈ [late, more, gone], s.tx.busy = true ∧ 0 < s.txPeriod ∧ 1 ≤ s.tx.j ∧ s.tx.j ≤ 10 ∧ 1 ≤ s.cfg.settleBits ∧
      (s.tx.j = 10 → (s.pin (s.inst s.tx.inst).txPin).out = true) ∧
      s.tx.t0 + s.txPeriod * (9 + s.cfg.settleBits) ≤ s.now) ∧
    late.tx.rest = [] ∧ more.tx.rest = [1#8] ∧ more.isActive more.tx.inst = true ∧
      gone.isActive gone.tx.inst = false := by decide +kernel
theorem witness_RunHoldsTheNormalContext :
    held.cfg.singleCore = true ∧ held.interruptPart.isr.busy = true := by decide +kernel
theorem witness_BusyTransmitterAcceptsNothing :
    (sending.withPort [0x3000000000000000#64]).beforeAccept.tx.busy = true := by decide +kernel
theorem witness_UndisturbedFrameOnTheWire :
    SoundState sending ∧ sending.cfg.singleCore = false ∧ sending.tx.busy = true ∧ sending.tx.t0 = sending.now ∧
      sending.tx.j = 1 ∧ sending.tx.rest = [] ∧ 0 < sending.txPeriod ∧
      (nextState? (ticks (sending.txPeriod * (9 + sending.cfg.settleBits)) sending)).isSome = true :=
  ⟨witness_sound_sending, by decide +kernel⟩
theorem witness_LoopBackDeliversTheByteSent :
    SoundState looped ∧
    (looped.cfg.singleCore = false ∧ looped.tx.busy = true ∧ looped.tx.t0 = looped.now ∧ looped.tx.j = 1 ∧
      0 < looped.txPeriod ∧ 1 < looped.cfg.nInst ∧ looped.isActive 1 = true ∧ looped.bitPeriod 1 = looped.txPeriod ∧
      centeringDelay looped.cfg looped.txPeriod < looped.txPeriod) ∧
    (looped.isr.busy = false ∧ (∀ i, i < looped.cfg.nInst → (looped.rx i).pend = false) ∧ looped.fresh = false ∧
      looped.changes = [] ∧ looped.port = [] ∧
      looped.wires = [{ source := (looped.inst looped.tx.inst).txPin, sink := (looped.inst 1).rxPin }] ∧
      levelOf looped.level (looped.inst 1).rxPin = true ∧
      (looped.buf 1).occupancy looped.cfg.bufCap < looped.cfg.bufCap - 1) :=
  ⟨witness_sound_looped, by decide +kernel⟩
theorem witness_RestartResetsTheBlock : SoundState running ∧ running.restart ≠ running :=
  ⟨witness_sound_running, by decide +kernel⟩
theorem witness_ResetStateIsSound : Config.ref.wf = true ∧ Config.small.wf = true := by decide +kernel
theorem witness_StepKeepsSoundStates :
    (SoundState running ∧ (nextState? (step running)).isSome = true) ∧
      (SoundState sending ∧ (nextState? (step sending)).isSome = true) :=
  ⟨⟨witness_sound_running, by decide +kernel⟩, ⟨witness_sound_sending, by decide +kernel⟩⟩
theorem witness_OnlyTheRegistryRaceStops :
    held.cfg.singleCore = true ∧
      step (running.withPort [0x2000000000000000#64]) = .fault .registryRace := ⟨by decide +kernel, by rfl⟩
theorem witness_TickAdvancesTimeAndInputs :
    let before : List InputChange := [{ tick := 1, pin := 9#8, level := true }]
    let c : InputChange := { tick := 1, pin := 9#8, level := false }
    let after : List InputChange := [{ tick := 1, pin := 8#8, level := false }, { tick := 2, pin := 9#8, level := true }]
    let s : State := { looped with changes := before ++ c :: after }
    (nextState? (step s)).isSome = true ∧ (s.wires.map (·.sink)).Nodup ∧
      ((∀ w ∈ s.wires, w.sink ≠ 10#8) ∧ ∀ d ∈ s.changes, d.tick ≤ s.now + 1 → d.pin ≠ 10#8) ∧
      c.tick ≤ s.now + 1 ∧ (∀ d ∈ after, d.tick ≤ s.now + 1 → d.pin ≠ c.pin) ∧ (∀ w ∈ s.wires, w.sink ≠ c.pin) := by
  decide +kernel
theorem witness_writers :
    (nextState? (exec (.openInst 1#8 1000000#32 7#8 6#8) opened)).map (fun t =>
      (decide (t.inst 1 ≠ opened.inst 1), decide (t.pin 7#8 ≠ opened.pin 7#8))) = some (true, true) ∧
    (nextState? (exec (.read 0#8) oneByte)).map (fun t => decide ((t.buf 0).head ≠ (oneByte.buf 0).head)) = some true ∧
    (nextState? (exec (.openInst 0#8 1#32 5#8 4#8) full)).map (fun t =>
      decide ((t.buf 0).tail ≠ (full.buf 0).tail)) = some true ∧
    (nextState? (exec (.put 0#8 0#8) opened)).map (fun t => decide (t.pin 4#8 ≠ opened.pin 4#8)) = some true := by decide +kernel

end Sys2Proof.Tests
end

section
/-! SUPPORT. What the first step of a tick gives and the later ones keep: the levels the environment supplies, and the
fields that nothing after the sampling of the inputs writes (spec/00_scope.md R14, R15; spec/10_state.md R37, R39, R41). -/

namespace Sys2Proof.Machine

/-! ## Levels written in order -/

theorem levelOf_setLevel (t : List (Nat × Level)) (p q : Pin) (v : Level) :
    levelOf (setLevel t p v) q = if q = p then v else levelOf t q := by
  simp only [levelOf, setLevel, tableRead_write, BitVec.toNat_inj]

section writes

variable {α : Type} (pin : α → Pin) (val : α → Level)

theorem levelOf_foldl_setLevel_of_ne {l : List α} {p : Pin} (h : ∀ a ∈ l, pin a ≠ p) (t : List (Nat × Level)) :
    levelOf (l.foldl (fun t a => setLevel t (pin a) (val a)) t) p = levelOf t p := by
  induction l generalizing t with
  | nil => rfl
  | cons a l ih =>
    obtain ⟨ha, hl⟩ := List.forall_mem_cons.mp h
    rw [List.foldl_cons, ih hl, levelOf_setLevel, if_neg (Ne.symm ha)]

/-- Of several writes to one pin the last counts. -/
theorem levelOf_foldl_setLevel_last (before : List α) (a : α) {after : List α} (h : ∀ b ∈ after, pin b ≠ pin a)
    (t : List (Nat × Level)) :
    levelOf ((before ++ a :: after).foldl (fun t b => setLevel t (pin b) (val b)) t) (pin a) = val a := by
  rw [List.foldl_append, List.foldl_cons, levelOf_foldl_setLevel_of_ne pin val h, levelOf_setLevel, if_pos rfl]

end writes

/-! ## The levels of the next tick (R41) -/

/-- With one wire at most to each sink, a wire gives its sink the level its source was driven to. -/
theorem State.levelOf_nextLevel_sink {s : State} (hn : (s.wires.map (·.sink)).Nodup) {w : Wire} (hw : w ∈ s.wires) :
    levelOf s.nextLevel w.sink = s.wireLevel w := by
  obtain ⟨before, after, he⟩ := List.append_of_mem hw
  have hlast : ∀ v ∈ after, v.sink ≠ w.sink := by
    rw [he, List.map_append, List.map_cons] at hn
    have hnot := (List.nodup_cons.mp hn.of_append_right).1
    exact fun v hv hs => hnot (hs ▸ List.mem_map_of_mem hv)
  rw [State.nextLevel, he]
  exact levelOf_foldl_setLevel_last Wire.sink s.wireLevel before w hlast _

/-- A pin that no wire and no due change reaches keeps its level. -/
theorem State.levelOf_nextLevel_of_untouched {s : State} {p : Pin} (hw : ∀ w ∈ s.wires, w.sink ≠ p)
    (hc : ∀ c ∈ s.changes, c.tick ≤ s.now + 1 → c.pin ≠ p) : levelOf s.nextLevel p = levelOf s.level p := by
  have hdue : ∀ c ∈ s.changes.filter (fun c => decide (c.tick ≤ s.now + 1)), c.pin ≠ p := by
    simpa [List.mem_filter] using hc
  rw [State.nextLevel, levelOf_foldl_setLevel_of_ne Wire.sink s.wireLevel hw,
    levelOf_foldl_setLevel_of_ne InputChange.pin InputChange.level hdue]

/-- The last due change of a pin that is no sink gives its level. -/
theorem State.levelOf_nextLevel_change {s : State} {before after : List InputChange} {c : InputChange}
    (he : s.changes = before ++ c :: after) (hd : c.tick ≤ s.now + 1)
    (hlast : ∀ d ∈ after, d.tick ≤ s.now + 1 → d.pin ≠ c.pin) (hw : ∀ w ∈ s.wires, w.sink ≠ c.pin) :
    levelOf s.nextLevel c.pin = c.level := by
  have hafter : ∀ d ∈ after.filter (fun d => decide (d.tick ≤ s.now + 1)), d.pin ≠ c.pin := by
    simpa [List.mem_filter] using hlast
  rw [State.nextLevel, levelOf_foldl_setLevel_of_ne Wire.sink s.wireLevel hw, he, List.filter_append,
    List.filter_cons_of_pos (by simpa using hd)]
  exact levelOf_foldl_setLevel_last InputChange.pin InputChange.level _ c hafter _

theorem State.changes_sampleInputs (s : State) :
    s.sampleInputs.changes = s.changes.filter (fun c => decide (s.now + 1 < c.tick)) :=
  List.filter_congr (fun c _ => by simp [← decide_not])

/-! ## What the rest of a tick keeps of the inputs -/

/-- `t` has the parameters, the time and the inputs of `s`: what no step of a tick after the first writes. -/
structure InputFrame (s t : State) : Prop where
  cfg : t.cfg = s.cfg
  now : t.now = s.now
  fresh : t.fresh = s.fresh
  prev : t.prev = s.prev
  level : t.level = s.level
  changes : t.changes = s.changes
  wires : t.wires = s.wires

theorem InputFrame.trans {s t u : State} (h : InputFrame s t) (k : InputFrame t u) : InputFrame s u where
  cfg := k.cfg.trans h.cfg
  now := k.now.trans h.now
  fresh := k.fresh.trans h.fresh
  prev := k.prev.trans h.prev
  level := k.level.trans h.level
  changes := k.changes.trans h.changes
  wires := k.wires.trans h.wires

theorem RxFrame.inputFrame {s t : State} (h : RxFrame s t) : InputFrame s t :=
  ⟨h.cfg, h.now, h.fresh, h.prev, h.level, h.changes, h.wires⟩

theorem TxFrame.inputFrame {s t : State} (h : TxFrame s t) : InputFrame s t :=
  ⟨h.cfg, h.now, h.fresh, h.prev, h.level, h.changes, h.wires⟩

theorem acceptAll_inputFrame {s t : State} (h : acceptAll exec s = .next t) : InputFrame s t := by
  obtain ⟨hcfg, hnow, hfresh, hprev, hlevel, -, hchanges, hwires, -⟩ := acceptLoop_frame h
  exact ⟨hcfg, hnow, hfresh, hprev, hlevel, hchanges, hwires⟩

/-- A tick ends with the inputs its first step sampled. -/
theorem step_inputFrame {s t : State} (h : step s = .next t) : InputFrame s.sampleInputs t := by
  have hi : InputFrame s.sampleInputs s.interruptPart := s.interruptPart_frame.inputFrame
  rcases step_cases h with ⟨-, rfl⟩ | ⟨hh, ha⟩
  · exact hi
  · rw [State.beforeAccept_of_not_held hh] at ha
    exact (hi.trans s.interruptPart.transmitStep_frame.inputFrame).trans (acceptAll_inputFrame ha)

/-! ## The obligations on time and inputs -/

/-- Settles O50: the tick ends with the sampled inputs, whose levels are those of the wires and of the due changes. -/
theorem tickAdvancesTimeAndInputs : Obligations.TickAdvancesTimeAndInputs := by
  intro s t h
  have hf := step_inputFrame h
  have hlevel : t.level = s.nextLevel := hf.level
  have hprev : t.prev = if s.fresh then s.nextLevel else s.level := hf.prev
  rw [hprev, hlevel]
  exact ⟨hf.now, hf.cfg, hf.wires, hf.fresh, rfl,
    fun hn _ hw => State.levelOf_nextLevel_sink hn hw,
    fun _ hw hc => State.levelOf_nextLevel_of_untouched hw hc,
    fun _ _ _ he hd hlast hw => State.levelOf_nextLevel_change he hd hlast hw,
    hf.changes.trans s.changes_sampleInputs⟩

/-- Settles O51, by the frame that every operation with a next state meets. -/
theorem operationsWriteNoTimeOrInput : Obligations.OperationsWriteNoTimeOrInput :=
  fun _ _ _ h => exec_frame h

end Sys2Proof.Machine
end

section
/-! SUPPORT. The parts of a tick in which nothing is to be done, the acceptance of one operation, and the operation that
a placed word is (spec/00_scope.md R15; spec/30_encoding.md R95, R102; spec/60_exceptions.md R286 to R292). -/

namespace Sys2Proof.Machine

/-! ## Acceptance (R102, R292) -/

theorem andThen_congr {o : Host.Outcome State Fault Refusal} {f g : State → Host.Outcome State Fault Refusal}
    (h : ∀ u, o = .next u → f u = g u) : andThen o f = andThen o g := by
  cases o with
  | next u => exact h u rfl
  | fault r => rfl
  | refused r => rfl

theorem andThen_next_right (o : Host.Outcome State Fault Refusal) : andThen o .next = o := by cases o <;> rfl

theorem acceptAll_of_port_nil {s : State} (h : s.port = []) : acceptAll exec s = .next s := by
  rw [acceptAll, h]; rfl

/-- An idle normal context runs the operation on offer, then looks at the port again. -/
theorem acceptAll_of_op {s : State} {i : Instr} {rest : List Word} (hb : s.tx.busy = false)
    (hd : decode s.offered = .op i rest) :
    acceptAll exec s = andThen (exec i (s.takeWords (wordLength i))) (acceptAll exec) := by
  have hw := wordLength_pos i
  have hp := State.wordLength_le_port hd
  obtain ⟨n, hn⟩ : ∃ n, s.port.length = n + 1 := ⟨s.port.length - 1, by omega⟩
  have hloop : acceptAll exec s = andThen (exec i (s.takeWords (wordLength i))) (acceptLoop exec n) := by
    simp [acceptAll, hn, acceptLoop, hb, hd]
  rw [hloop]
  refine andThen_congr fun u hu => acceptLoop_fuel n u ?_
  have hport : u.port = s.port.drop (wordLength i) := (exec_frame hu).port
  rw [hport, List.length_drop]
  omega

/-- An operation whose words are all the port holds is the last one accepted. -/
theorem acceptAll_of_op_alone {s : State} {i : Instr} {rest : List Word} (hb : s.tx.busy = false)
    (hd : decode s.offered = .op i rest) (hl : s.port.length = wordLength i) :
    acceptAll exec s = exec i (s.takeWords (wordLength i)) := by
  rw [acceptAll_of_op hb hd]
  refine (andThen_congr fun u hu => acceptAll_of_port_nil ?_).trans (andThen_next_right _)
  have hport : u.port = s.port.drop (wordLength i) := (exec_frame hu).port
  rw [hport, ← hl, List.drop_length]

/-! ## Parts of a tick with nothing to do -/

theorem State.latchEdge_of_no_edge {s : State} (h : ∀ p, s.fallingEdge p = false) (x : Slot) : s.latchEdge x = x := by
  simp [State.latchEdge, h]

theorem State.detectEdges_of_no_edge {s : State} (h : ∀ p, s.fallingEdge p = false) : s.detectEdges = s := by
  rw [State.detectEdges, List.map_congr_left (fun x _ => State.latchEdge_of_no_edge h x), List.map_id']

/-- In the first tick no pin shows an edge (R37). -/
theorem State.fallingEdge_sampleInputs_of_fresh {s : State} (h : s.fresh = true) (p : Pin) :
    s.sampleInputs.fallingEdge p = false := by
  simp [State.fallingEdge, h]

theorem State.nextPending_of_none_pending {s : State} (h : ∀ i, (s.rx i).pend = false) : s.nextPending = none := by
  simp [State.nextPending, h]

theorem State.interruptStep_of_idle {s : State} (hb : s.isr.busy = false) (hp : s.nextPending = none) :
    s.interruptStep = s := by
  rw [State.interruptStep, s.advanceRun_of_idle hb]
  cases s.cfg.nInst with
  | zero => rfl
  | succ n => simp [State.startRuns, hp]

theorem State.transmitStep_of_idle {s : State} (h : s.tx.busy = false) : s.transmitStep = s := by
  simp [State.transmitStep, h]

theorem State.held_of_idle {s : State} (h : s.isr.busy = false) : s.held = false := by
  simp [State.held, h]

/-- A first tick with no run in progress and nothing pending only samples the inputs before its normal context. -/
theorem State.interruptPart_of_fresh_idle {s : State} (hf : s.fresh = true) (hb : s.isr.busy = false)
    (hp : ∀ i, (s.rx i).pend = false) : s.interruptPart = s.sampleInputs := by
  rw [State.interruptPart, State.detectEdges_of_no_edge (State.fallingEdge_sampleInputs_of_fresh hf)]
  exact State.interruptStep_of_idle hb (State.nextPending_of_none_pending hp)

/-! ## A placed instruction (assumption 6) -/

/-- An operation is as long as its first word announces (R95). -/
theorem wordLength_of_decode_cons {w : Word} {ws rest : List Word} {i : Instr} (h : decode (w :: ws) = .op i rest) :
    wordLength i = 1 + payloadCount w := by
  unfold payloadCount
  simp only [decode] at h
  split at h
  · cases h
  · next o ho =>
    cases o <;> simp only [decodeOperands] at h
    case puts =>
      split at h
      · cases h
      · next hp =>
        cases h
        simp [wordLength, encodePayload, ho, (takePayload_some hp).1]
    all_goals
      cases h
      simp [wordLength, encodePayload, ho]

/-- The words laid out for an instruction are that instruction and nothing more. -/
theorem decode_layoutWords {nbits w : Nat} {i : Instr} (h : decodeTableWord nbits w = some i) :
    (∃ rest, decode (layoutWords nbits w) = .op i rest) ∧ (layoutWords nbits w).length = wordLength i := by
  have hd : ∃ rest, decode (layoutWords nbits w) = .op i rest := by
    unfold decodeTableWord at h
    split at h
    · next rest hd => cases h; exact ⟨rest, hd⟩
    · cases h
  refine ⟨hd, ?_⟩
  obtain ⟨rest, hd⟩ := hd
  rw [wordLength_of_decode_cons hd]
  simp [layoutWords, Nat.add_comm]

/-- Words placed from tick 0 on are on offer in every tick. -/
theorem State.offered_of_placed {s : State} {ws : List Word}
    (h : s.port = ws.map (fun w => { tick := 0, word := w })) : s.offered = ws := by
  have hall : ∀ o ∈ s.port, decide (o.tick ≤ s.now) = true := by simp [h]
  rw [State.offered, List.takeWhile_eq_self_iff.mpr hall, h, List.map_map]
  exact List.map_id _

theorem State.beforeAccept_withFetchWord (s : State) (nbits w : Nat) :
    (s.withFetchWord nbits w).interruptPart.held = false ∧
      (s.withFetchWord nbits w).beforeAccept = (s.withFetchWord nbits w).sampleInputs := by
  have hpend : ∀ i, ((s.withFetchWord nbits w).rx i).pend = false := fun i =>
    congrArg RxControl.pend (s.rx_clearPending i)
  have hi := State.interruptPart_of_fresh_idle (s := s.withFetchWord nbits w) rfl rfl hpend
  have hh : (s.withFetchWord nbits w).interruptPart.held = false := by rw [hi]; exact State.held_of_idle rfl
  refine ⟨hh, ?_⟩
  rw [State.beforeAccept_of_not_held hh, hi]
  exact State.transmitStep_of_idle rfl

/-! ## The obligations on acceptance -/

/-- Settles O6: a tick that is not held is the acceptances at `beforeAccept`, the first of which is the operation read. -/
theorem stepRunsTheDecodedInstruction : Obligations.StepRunsTheDecodedInstruction := by
  intro s i rest hh hb hd
  rw [step_of_not_held hh]
  exact ⟨acceptAll_of_op hb hd, acceptAll_of_op_alone hb hd⟩

/-- Settles O7: the tick is idle up to its acceptances, and the words on offer are one operation. -/
theorem placedWordRunsInTheNextTick : Obligations.PlacedWordRunsInTheNextTick := by
  intro s nbits w i h
  obtain ⟨hh, hbefore⟩ := s.beforeAccept_withFetchWord nbits w
  obtain ⟨⟨rest, hd⟩, hl⟩ := decode_layoutWords h
  rw [step_of_not_held hh, hbefore]
  refine acceptAll_of_op_alone (rest := rest) rfl ?_ ?_
  · rw [State.offered_of_placed rfl, hd]
  · rw [← hl]; exact List.length_map _

/-- Settles O41: the tick ends with its interrupt part, whose frame is the claim. -/
theorem runHoldsTheNormalContext : Obligations.RunHoldsTheNormalContext := by
  intro s hc hb
  have hh : s.interruptPart.held = true := by simp [State.held, hc, hb]
  have hf := s.interruptPart_frame
  exact ⟨s.interruptPart, by simp [step, tickWith, hh], hf.tx, hf.pins, hf.port, hf.responses,
    fun i => ⟨hf.inst i, hf.head i⟩⟩

end Sys2Proof.Machine
end

section
/-! SUPPORT. What a host operation does to a slot, said once, and the obligations on the writers of each part of a slot
(spec/10_state.md R20 to R30, R34; spec/44_buffer_access.md R255). -/

namespace Sys2Proof.Machine

/-! ## The slots an operation writes -/

theorem State.slot_of_length_le {s : State} {i : Nat} (h : s.slots.length ≤ i) : s.slot i = Slot.reset := by
  simp [State.slot, List.getD, h]

theorem State.slot_popAdvance (s : State) (i j : Nat) :
    (s.popAdvance i).slot j =
      if j = i ∧ i < s.slots.length then
        { s.slot i with buf := { s.buf i with head := nextPos s.cfg.bufCap (s.buf i).head } }
      else s.slot j := s.slot_setSlot i j _

theorem State.slot_clearOverflow (s : State) (i j : Nat) :
    (s.clearOverflow i).slot j =
      if j = i ∧ i < s.slots.length then { s.slot i with buf := { s.buf i with overflowFlag := false } }
      else s.slot j := s.slot_setSlot i j _

/-- A host operation leaves a slot as it was, or it is one of the four that write the slot their index names. -/
theorem exec_slot_cases {i : Instr} {s t : State} (h : exec i s = .next t) (j : Nat) :
    t.slot j = s.slot j ∨
    ∃ idx : Index, idx.toNat = j ∧
      ((∃ baud rx tx, i = .openInst idx baud rx tx ∧ s.openFails idx baud rx tx = false ∧
        t.slot j =
          { inst := { rxPin := rx, txPin := tx, baudRate := baud, bitPeriod := bitPeriodReg baud }
            buf := { s.buf j with head := 0, tail := 0, overflowFlag := false }
            rx := { attached := true, pend := false } }) ∨
      (i = .closeInst idx ∧
        t.slot j =
          { inst := { s.inst j with baudRate := 0#32 }, buf := s.buf j, rx := { attached := false, pend := false } }) ∨
      (i = .read idx ∧
        t.slot j = { s.slot j with buf := { s.buf j with head := nextPos s.cfg.bufCap (s.buf j).head } }) ∨
      (i = .ovfclr idx ∧ t.slot j = { s.slot j with buf := { s.buf j with overflowFlag := false } })) := by
  by_cases hl : j < s.slots.length
  case neg =>
    have hlt : t.slots.length ≤ j := by rw [(exec_frame h).slots_length]; omega
    exact .inl ((State.slot_of_length_le hlt).trans (State.slot_of_length_le (by omega)).symm)
  rcases exec_cases h with ⟨v, rfl⟩ | ⟨idx, baud, rx, tx, rfl, hf, -, rfl⟩ | ⟨idx, rfl, -, -, rfl⟩ |
    ⟨idx, b, bs, -, -, rfl⟩ | ⟨idx, rfl, -, -, rfl⟩ | ⟨idx, rfl, -, rfl⟩
  · exact .inl rfl
  · by_cases hj : idx.toNat = j
    · subst hj
      refine .inr ⟨idx, rfl, .inl ⟨baud, rx, tx, rfl, hf, ?_⟩⟩
      rw [State.slot_respond, State.slot_openSuccess_self _ _ _ _ _ hl]
    · exact .inl (by rw [State.slot_respond, State.slot_openSuccess_ne _ _ _ _ (Ne.symm hj)])
  · by_cases hj : idx.toNat = j
    · subst hj
      refine .inr ⟨idx, rfl, .inr (.inl ⟨rfl, ?_⟩)⟩
      rw [State.slot_respond, State.slot_closeSuccess_self _ _ hl]
    · exact .inl (by rw [State.slot_respond, State.slot_closeSuccess_ne _ (Ne.symm hj)])
  · have hslots : ((s.beginPut idx.toNat b bs).txAdvance bs).slots = s.slots :=
      ((s.beginPut_frame idx.toNat b bs).trans (State.txAdvance_frame bs _)).slots
    exact .inl (State.slot_congr hslots j)
  · by_cases hj : idx.toNat = j
    · subst hj
      exact .inr ⟨idx, rfl, .inr (.inr (.inl ⟨rfl, by simp [State.slot_popAdvance, hl]⟩))⟩
    · exact .inl (by simp [State.slot_popAdvance, Ne.symm hj])
  · by_cases hj : idx.toNat = j
    · subst hj
      exact .inr ⟨idx, rfl, .inr (.inr (.inr ⟨rfl, by simp [State.slot_clearOverflow, hl]⟩))⟩
    · exact .inl (by simp [State.slot_clearOverflow, Ne.symm hj])

/-- Settles O52: each of the four slot writes is of the slot the index names. -/
theorem operationsReachOnlyTheirInstance : Obligations.OperationsReachOnlyTheirInstance := by
  intro i s t h j hj
  rcases exec_slot_cases h j with he | ⟨idx, rfl, ⟨_, _, _, rfl, -⟩ | ⟨rfl, -⟩ | ⟨rfl, -⟩ | ⟨rfl, -⟩⟩
  · exact he
  all_goals exact absurd rfl hj

/-- Settles O53: of the four slot writes OPEN and CLOSE alone reach configuration and interrupt bits, OPEN and READ
`head`, and OPEN `tail`. -/
theorem registersHaveTheirWriters : Obligations.RegistersHaveTheirWriters := by
  intro i s t j h
  rcases exec_slot_cases h j with he | ⟨idx, hj, ⟨baud, rx, tx, rfl, -, -⟩ | ⟨rfl, he⟩ | ⟨rfl, he⟩ | ⟨rfl, he⟩⟩
  · simp [State.inst, State.rx, State.buf, he]
  · exact ⟨fun _ => .inl ⟨idx, baud, rx, tx, rfl, hj⟩, fun _ => .inl ⟨idx, baud, rx, tx, rfl, hj⟩,
      fun _ => ⟨idx, baud, rx, tx, rfl, hj⟩⟩
  · have hbuf : t.buf j = s.buf j := by rw [State.buf, he]
    exact ⟨fun _ => .inr ⟨idx, rfl, hj⟩, fun hne => absurd (by rw [hbuf]) hne, fun hne => absurd (by rw [hbuf]) hne⟩
  · have hbuf : t.buf j = { s.buf j with head := nextPos s.cfg.bufCap (s.buf j).head } := by
      rw [State.buf, he]
    refine ⟨fun hne => ?_, fun _ => .inr ⟨idx, rfl, hj⟩, fun hne => absurd (by rw [hbuf]) hne⟩
    simp [State.inst, State.rx, he] at hne
  · simp [State.inst, State.rx, State.buf, he]

/-- Settles O26: the slot writes keep the storage field. -/
theorem operationsLeaveStorageAlone : Obligations.OperationsLeaveStorageAlone := by
  intro i s t h j pos
  have hs : (t.buf j).storage = (s.buf j).storage := by
    rcases exec_slot_cases h j with he | ⟨_, _, ⟨_, _, _, _, _, he⟩ | ⟨_, he⟩ | ⟨_, he⟩ | ⟨_, he⟩⟩
    all_goals simp [State.buf, he]
  rw [State.bufRead, State.bufRead, hs]

/-! ## The overflow flag (R30, R255) -/

theorem Buffer.overflowFlag_appended {cap : Nat} {b : Buffer} (v : Byte) (h : b.overflowFlag = true) :
    (b.appended cap v).overflowFlag = true := by
  unfold Buffer.appended
  split
  · rfl
  · exact h

theorem State.overflowFlag_append {s : State} {j : Nat} (i : Nat) (v : Byte) (h : (s.buf j).overflowFlag = true) :
    ((s.append i v).buf j).overflowFlag = true := by
  rw [State.buf_append]
  split
  · next hj => rw [hj.1] at h; exact Buffer.overflowFlag_appended v h
  · exact h

theorem State.overflowFlag_takeSample {s : State} {j : Nat} (h : (s.buf j).overflowFlag = true) :
    (s.takeSample.buf j).overflowFlag = true := by
  rcases s.takeSample_cases with ⟨-, e⟩ | ⟨-, e⟩ <;> rw [e]
  · exact State.overflowFlag_append _ _ h
  · exact h

theorem State.overflowFlag_advanceRun {s : State} {j : Nat} (h : (s.buf j).overflowFlag = true) :
    (s.advanceRun.buf j).overflowFlag = true := by
  have hs : ((State.takeSamples 8 s).buf j).overflowFlag = true :=
    State.takeSamples_induct (P := fun t => (t.buf j).overflowFlag = true)
      (fun _ ht _ => State.overflowFlag_takeSample ht) 8 s h
  unfold State.advanceRun
  dsimp only
  split
  · simpa using hs
  · exact hs

/-- No action of the interrupt context clears the flag: samples append, and starting or ending a run writes no buffer. -/
theorem State.overflowFlag_interruptPart {s : State} {j : Nat} (h : (s.buf j).overflowFlag = true) :
    (s.interruptPart.buf j).overflowFlag = true := by
  refine State.startRuns_induct (P := fun t => (t.buf j).overflowFlag = true) (fun t i ht _ _ => ?_) _ _ ?_
  · exact State.overflowFlag_advanceRun (by simpa using ht)
  · exact State.overflowFlag_advanceRun (by simpa [State.buf_detectEdges] using h)

/-- Settles O25: of the slot writes only those of OPEN and OVFCLR touch the flag, and they clear it. -/
theorem overflowFlagIsSticky : Obligations.OverflowFlagIsSticky := by
  refine ⟨fun i s t j h hs => ?_, fun i s t j h ht => ?_, fun s j h => State.overflowFlag_interruptPart h,
    fun s j => s.transmitStep_frame.buf j⟩
  · rcases exec_slot_cases h j with he | ⟨idx, hj, ⟨baud, rx, tx, rfl, hf, -⟩ | ⟨rfl, he⟩ | ⟨rfl, he⟩ | ⟨rfl, -⟩⟩
    · exact .inl ((congrArg (·.buf.overflowFlag) he).trans hs)
    · exact .inr ⟨hj, .inl ⟨idx, baud, rx, tx, rfl, hf⟩⟩
    · exact .inl ((congrArg (·.buf.overflowFlag) he).trans hs)
    · exact .inl ((congrArg (·.buf.overflowFlag) he).trans hs)
    · exact .inr ⟨hj, .inr ⟨idx, rfl⟩⟩
  · rcases exec_slot_cases h j with he | ⟨idx, hj, ⟨baud, rx, tx, rfl, -, he⟩ | ⟨rfl, he⟩ | ⟨rfl, he⟩ | ⟨rfl, he⟩⟩
    · exact (congrArg (·.buf.overflowFlag) he).symm.trans ht
    · cases (congrArg (·.buf.overflowFlag) he).symm.trans ht
    · exact (congrArg (·.buf.overflowFlag) he).symm.trans ht
    · exact (congrArg (·.buf.overflowFlag) he).symm.trans ht
    · cases (congrArg (·.buf.overflowFlag) he).symm.trans ht

end Sys2Proof.Machine
end

section
/-! SUPPORT. The state after reset and after the reset event, and their first tick (spec/10_state.md R31, R37, R45;
spec/70_reset_and_hazards.md R330 to R332). -/

namespace Sys2Proof.Machine

/-! ## The reset event -/

/-- The state after reset is one that the reset event leaves as it is. -/
theorem State.restart_resetOf (c : Config) : (State.resetOf c).restart = State.resetOf c := rfl

@[simp] theorem State.inst_restart (s : State) (i : Nat) : s.restart.inst i = Slot.reset.inst := by
  rw [State.inst, State.slot_restart]
@[simp] theorem State.buf_restart (s : State) (i : Nat) : s.restart.buf i = Slot.reset.buf := by
  rw [State.buf, State.slot_restart]
@[simp] theorem State.rx_restart (s : State) (i : Nat) : s.restart.rx i = Slot.reset.rx := by
  rw [State.rx, State.slot_restart]

theorem State.slots_length_restart (s : State) : s.restart.slots.length = s.cfg.nInst :=
  List.length_replicate

@[simp] theorem State.isActive_restart (s : State) (i : Nat) : s.restart.isActive i = false := by
  simp [State.isActive, Slot.reset]

theorem Config.bufCap_pos {c : Config} (h : c.wf = true) : 0 < c.bufCap := by
  simp [Config.wf] at h
  omega

theorem Buffer.wf_reset {cap : Nat} (h : 0 < cap) : Slot.reset.buf.wf cap :=
  ⟨h, h, Memory.wf_nil cap⟩

/-- With nothing active and both contexts idle, the invariant asks for little more than legal parameters. -/
theorem State.soundState_restart {s : State} (hc : s.cfg.wf = true) (hl : tableWf idleLevel 256 s.level)
    (hp : tableWf idleLevel 256 s.prev) : SoundState s.restart where
  cfg_wf := hc
  table_length := s.slots_length_restart
  buffers_wf i _ := by rw [State.buf_restart]; exact Buffer.wf_reset (Config.bufCap_pos hc)
  armed_iff i _ := by rw [State.rx_restart, State.isActive_restart]; rfl
  pending_attached i _ h := by rw [State.rx_restart] at h; cases h
  period_of_rate i _ h := by simp at h
  pins_differ i _ h := by simp at h
  pins_disjoint i _ j _ _ h := by simp at h
  rx_pin_input i _ h := by simp at h
  tx_pin_output i _ h := by simp at h
  run_position h := by cases h
  run_not_late := ⟨rfl, rfl⟩
  put_position h := by cases h
  pins_wf := ⟨List.Pairwise.nil, by simp [State.restart]⟩
  level_wf := hl
  prev_wf := hp

/-- A first tick with both contexts idle, nothing pending and no word to be offered only samples the inputs. -/
theorem step_of_fresh_idle {s : State} (hf : s.fresh = true) (hb : s.isr.busy = false) (ht : s.tx.busy = false)
    (hp : ∀ i, (s.rx i).pend = false) (hport : s.port = []) : step s = .next s.sampleInputs := by
  have hi := State.interruptPart_of_fresh_idle hf hb hp
  have hh : s.interruptPart.held = false := by rw [hi]; exact State.held_of_idle hb
  rw [step_of_not_held hh, State.beforeAccept_of_not_held hh, hi, State.transmitStep_of_idle (s := s.sampleInputs) ht]
  exact acceptAll_of_port_nil hport

/-! ## The obligations on reset -/

/-- Settles O46: the fields the event writes, read back. -/
theorem restartResetsTheBlock : Obligations.RestartResetsTheBlock := by
  intro s
  refine ⟨s.slots_length_restart, fun i => ?_, rfl, rfl, rfl, fun _ => ⟨rfl, rfl⟩, rfl, rfl,
    fun h => State.soundState_restart h.cfg_wf h.level_wf h.prev_wf⟩
  rw [State.inst_restart, State.buf_restart, State.rx_restart]
  exact ⟨rfl, rfl, rfl, rfl, rfl⟩

/-- Settles O47: reset is where the reset event leads. -/
theorem resetStateIsSound : Obligations.ResetStateIsSound := by
  intro c hc
  rw [← State.restart_resetOf]
  exact State.soundState_restart hc ⟨List.Pairwise.nil, by simp [State.resetOf]⟩
    ⟨List.Pairwise.nil, by simp [State.resetOf]⟩

/-- Settles O44: what the reset event leaves, and a first tick that only samples the inputs. -/
theorem resetLeavesTheBlockIdle : Obligations.ResetLeavesTheBlockIdle := by
  intro c
  obtain ⟨hlength, hslots, hisr, htx, hfresh, hpins, -⟩ := restartResetsTheBlock (State.resetOf c)
  rw [State.restart_resetOf] at hlength hslots hisr htx hfresh hpins
  have hpend : ∀ i, ((State.resetOf c).rx i).pend = false := fun i =>
    congrArg RxControl.pend ((State.resetOf c).rx_restart i)
  exact ⟨hlength, hslots, hisr, htx, hpins, (State.resetOf c).sampleInputs,
    step_of_fresh_idle hfresh hisr htx hpend rfl, rfl, hisr, rfl⟩

end Sys2Proof.Machine
end

section
/-! SUPPORT. The invariant through the interrupt part of a tick: what the receive sequencer and edge detection keep of it
while actions are still due, and that nothing is due when they are done (spec/10_state.md R31, R33, R34, R36;
spec/40_timing_calculator.md R137). -/

namespace Sys2Proof.Machine

/-! ## What the derived notions of the invariant read -/

theorem State.sampling_congr {s t : State} (h : t.isr = s.isr) (i : Nat) : t.sampling i = s.sampling i := by
  rw [State.sampling, h]; rfl

theorem State.lineLevel_congr {s t : State} (h : t.tx = s.tx) (i : Nat) : t.lineLevel i = s.lineLevel i := by
  rw [State.lineLevel, State.sending, h]; rfl

theorem State.sharesPin_congr {s t : State} {j : Nat} (h : t.inst j = s.inst j) (rx tx : Pin) :
    t.sharesPin j rx tx = s.sharesPin j rx tx := by
  rw [State.sharesPin, h]; rfl

theorem State.bitPeriod_congr {s t : State} {i : Nat} (h : t.inst i = s.inst i) : t.bitPeriod i = s.bitPeriod i := by
  rw [State.bitPeriod, h]; rfl

/-! ## The clauses of the interrupt context -/

/-- The clauses of `SoundState` that the interrupt context writes, but for the one that nothing is overdue, which holds
only after its last action. -/
structure ReceiveSound (s : State) : Prop where
  table_length : s.slots.length = s.cfg.nInst
  buffers_wf : ∀ i, i < s.cfg.nInst → (s.buf i).wf s.cfg.bufCap
  armed_iff : ∀ i, i < s.cfg.nInst → (s.rx i).attached = (s.isActive i && !s.sampling i)
  pending_attached : ∀ i, i < s.cfg.nInst → (s.rx i).pend = true → (s.rx i).attached = true
  run_position : s.isr.busy = true →
    s.isr.inst < s.cfg.nInst ∧ s.isActive s.isr.inst = true ∧ s.isr.k ≤ 8 ∧ s.isr.ts ≤ s.now ∧
      (0 < s.isr.k → s.isr.ts + sampleOffset s.cfg s.runPeriod (s.isr.k - 1) ≤ s.now)

/-- The clauses hold on when time goes by. -/
theorem SoundState.receiveSound_sampleInputs {s : State} (h : SoundState s) : ReceiveSound s.sampleInputs where
  table_length := h.table_length
  buffers_wf := h.buffers_wf
  armed_iff := h.armed_iff
  pending_attached := h.pending_attached
  run_position hb := by
    obtain ⟨hi, ha, hk, hts, hoff⟩ := h.run_position hb
    exact ⟨hi, ha, hk, Nat.le_succ_of_le hts, fun hpos => Nat.le_succ_of_le (hoff hpos)⟩

/-! ## Edge detection -/

/-- Edge detection leaves the run alone and sets pending bits of attached instances only. -/
theorem ReceiveSound.detectEdges {s : State} (h : ReceiveSound s) : ReceiveSound s.detectEdges := by
  have f := s.detectEdges_frame
  have hatt : ∀ i, (s.detectEdges.rx i).attached = (s.rx i).attached := fun i => by
    rw [State.rx_detectEdges]; split <;> rfl
  have hsampling : ∀ i, s.detectEdges.sampling i = s.sampling i := State.sampling_congr s.isr_detectEdges
  have hper : s.detectEdges.runPeriod = s.runPeriod := f.bitPeriod _
  constructor
  case table_length => exact f.slots_length.trans h.table_length
  case buffers_wf => simpa only [f.cfg, State.buf_detectEdges] using h.buffers_wf
  case armed_iff => simpa only [f.cfg, hatt, f.isActive, hsampling] using h.armed_iff
  case pending_attached =>
    intro i hi hp
    rw [hatt]
    rw [State.rx_detectEdges] at hp
    split at hp
    · next hc => simp only [Bool.and_eq_true] at hc; exact hc.1.1
    · exact h.pending_attached i hi hp
  case run_position => simpa only [f.cfg, f.now, f.isActive, State.isr_detectEdges, hper] using h.run_position

/-! ## Samples -/

theorem State.sampleDue_iff (s : State) :
    s.sampleDue = true ↔
      s.isr.busy = true ∧ s.isr.k < 8 ∧ s.isr.ts + sampleOffset s.cfg s.runPeriod s.isr.k ≤ s.now := by
  simp [State.sampleDue, and_assoc]

/-- A sample leaves a buffer as it was, or is the eighth and appends to that of the run. -/
theorem State.wf_buf_takeSample {s : State} {i : Nat} (h : (s.buf i).wf s.cfg.bufCap) :
    (s.takeSample.buf i).wf s.cfg.bufCap := by
  rcases s.takeSample_cases with ⟨-, e⟩ | ⟨-, e⟩ <;> rw [e]
  · rw [State.buf_append]
    split
    · next hi => rw [hi.1] at h; exact Buffer.wf_appended _ h
    · exact h
  · exact h

theorem ReceiveSound.takeSample {s : State} (h : ReceiveSound s) (hd : s.sampleDue = true) :
    ReceiveSound s.takeSample := by
  have f := s.takeSample_frame
  obtain ⟨hb, hk, hdue⟩ := s.sampleDue_iff.mp hd
  have hsampling : ∀ i, s.takeSample.sampling i = s.sampling i := fun i => by
    rw [State.sampling, State.isr_takeSample]; rfl
  constructor
  case table_length => exact (f.slots_length.trans h.table_length).trans (by rw [f.cfg])
  case buffers_wf =>
    rw [f.cfg]
    exact fun i hi => State.wf_buf_takeSample (h.buffers_wf i hi)
  case armed_iff => simpa only [f.cfg, State.rx_takeSample, f.isActive, hsampling] using h.armed_iff
  case pending_attached => simpa only [f.cfg, State.rx_takeSample] using h.pending_attached
  case run_position =>
    intro _
    obtain ⟨hi, ha, -, hts, -⟩ := h.run_position hb
    rw [f.cfg, f.now, State.runPeriod_takeSample, State.isr_takeSample]
    exact ⟨hi, (f.isActive _).trans ha, hk, hts, fun _ => hdue⟩

/-! ## Starts and ends of runs -/

theorem ReceiveSound.endRun {s : State} (h : ReceiveSound s) (hb : s.isr.busy = true) : ReceiveSound s.endRun := by
  have f := s.endRun_frame
  obtain ⟨hi, ha, -⟩ := h.run_position hb
  have hrx : ∀ j, s.endRun.rx j = if j = s.isr.inst then { attached := true, pend := false } else s.rx j := fun j => by
    rw [State.rx_endRun, State.rx_attach, h.table_length]; simp [hi]
  have hidle : ∀ j, s.endRun.sampling j = false := fun _ => rfl
  constructor
  case table_length => exact f.slots_length.trans h.table_length
  case buffers_wf => simpa using h.buffers_wf
  case armed_iff =>
    intro j hj
    rw [hrx, f.isActive, hidle]
    split
    · next he => rw [he, ha]; rfl
    · next hne =>
      have hs : s.sampling j = false := by simp [State.sampling, Ne.symm hne]
      rw [h.armed_iff j hj, hs]
  case pending_attached =>
    intro j hj hp
    rw [hrx] at hp ⊢
    split
    · rfl
    · next hne => rw [if_neg hne] at hp; exact h.pending_attached j hj hp
  case run_position => intro hbusy; cases hbusy

theorem ReceiveSound.serve {s : State} {i : Nat} (h : ReceiveSound s) (hb : s.isr.busy = false)
    (hn : s.nextPending = some i) : ReceiveSound (s.serve i) := by
  have f := s.serve_frame i
  obtain ⟨hi, -, hatt, -⟩ := State.nextPending_some hn
  have ha : s.isActive i = true := by
    rw [h.armed_iff i hi, Bool.and_eq_true] at hatt
    exact hatt.1
  have hrx : ∀ j, (s.serve i).rx j =
      if j = i then { attached := false, pend := false }
      else { s.rx j with pend := (s.rx j).pend && s.cfg.pendLatch } := fun j => by
    rw [State.rx_serve, h.table_length]; simp [hi]
  have hsampling : ∀ j, (s.serve i).sampling j = decide (i = j) := fun j => by
    rw [State.sampling, State.isr_serve]; rfl
  constructor
  case table_length => exact (f.slots_length.trans h.table_length).trans (by rw [f.cfg])
  case buffers_wf => simpa only [f.cfg, State.buf_serve] using h.buffers_wf
  case armed_iff =>
    intro j hj
    rw [f.cfg] at hj
    rw [hrx, f.isActive, hsampling]
    by_cases he : j = i
    · simp [he]
    · have hs : s.sampling j = false := by simp [State.sampling, hb]
      simp [he, Ne.symm he, h.armed_iff j hj, hs]
  case pending_attached =>
    intro j hj hp
    rw [f.cfg] at hj
    rw [hrx] at hp ⊢
    split at hp
    · cases hp
    · next hne =>
      rw [if_neg hne]
      exact h.pending_attached j hj (Bool.and_eq_true _ _ ▸ hp).1
  case run_position =>
    intro _
    rw [State.isr_serve, f.cfg, f.now]
    exact ⟨hi, (f.isActive i).trans ha, Nat.zero_le _, Nat.le_refl _, fun hpos => absurd hpos (Nat.lt_irrefl 0)⟩

/-! ## The interrupt part -/

theorem ReceiveSound.advanceRun {s : State} (h : ReceiveSound s) : ReceiveSound s.advanceRun := by
  have hs : ReceiveSound (State.takeSamples 8 s) := State.takeSamples_induct (fun _ ht hd => ht.takeSample hd) 8 s h
  unfold State.advanceRun
  dsimp only
  split
  · next hd =>
    have hb : (State.takeSamples 8 s).isr.busy = true := by
      simp only [State.endDue, Bool.and_eq_true] at hd
      exact hd.1.1
    exact hs.endRun hb
  · exact hs

/-- When the actions due in a tick are done, none is due (R137). -/
theorem State.advanceRun_not_late (s : State) : s.advanceRun.sampleDue = false ∧ s.advanceRun.endDue = false := by
  unfold State.advanceRun
  dsimp only
  split
  · simp [State.sampleDue, State.endDue]
  · next hd => exact ⟨State.takeSamples_done 8 s (Nat.le_add_left 8 _), by simpa using hd⟩

theorem ReceiveSound.interruptStep {s : State} (h : ReceiveSound s) :
    ReceiveSound s.interruptStep ∧ s.interruptStep.sampleDue = false ∧ s.interruptStep.endDue = false :=
  State.startRuns_induct
    (P := fun t => ReceiveSound t ∧ t.sampleDue = false ∧ t.endDue = false)
    (fun _ _ ht hb hn => ⟨(ht.1.serve hb hn).advanceRun, State.advanceRun_not_late _⟩)
    _ _ ⟨h.advanceRun, s.advanceRun_not_late⟩

/-- The clauses the interrupt context does not write come from its frame, and hold on when time goes by. -/
theorem SoundState.interruptPart {s : State} (h : SoundState s) : SoundState s.interruptPart := by
  have f := s.interruptPart_frame
  obtain ⟨hr, hlate⟩ := h.receiveSound_sampleInputs.detectEdges.interruptStep
  have hcfg : s.interruptPart.cfg = s.cfg := f.cfg
  have hact : ∀ i, s.interruptPart.isActive i = s.isActive i := f.isActive
  have hpin : ∀ p, s.interruptPart.pin p = s.pin p := f.pin
  have hline : ∀ i, s.interruptPart.lineLevel i = s.lineLevel i := State.lineLevel_congr f.tx
  have hshare : ∀ j rx tx, s.interruptPart.sharesPin j rx tx = s.sharesPin j rx tx := fun j =>
    State.sharesPin_congr (f.inst j)
  constructor
  case cfg_wf => rw [hcfg]; exact h.cfg_wf
  case table_length => exact hr.table_length
  case buffers_wf => exact hr.buffers_wf
  case armed_iff => exact hr.armed_iff
  case pending_attached => exact hr.pending_attached
  case period_of_rate => simpa only [hcfg, hact, State.inst_interruptPart] using h.period_of_rate
  case pins_differ => simpa only [hcfg, hact, State.inst_interruptPart] using h.pins_differ
  case pins_disjoint => simpa only [hcfg, hact, hshare, State.inst_interruptPart] using h.pins_disjoint
  case rx_pin_input => simpa only [hcfg, hact, hpin, State.inst_interruptPart] using h.rx_pin_input
  case tx_pin_output => simpa only [hcfg, hact, hpin, hline, State.inst_interruptPart] using h.tx_pin_output
  case run_position => exact hr.run_position
  case run_not_late => exact hlate
  case put_position =>
    rw [hcfg, State.txPeriod, f.bitPeriod, f.tx, f.now, f.isActive]
    intro hb
    obtain ⟨hi, ha, hj1, hj, hdue⟩ := h.put_position hb
    exact ⟨hi, ha, hj1, hj, Nat.le_succ_of_le hdue⟩
  case pins_wf => rw [f.pins]; exact h.pins_wf
  case level_wf => rw [f.level]; exact s.nextLevel_wf h.level_wf
  case prev_wf =>
    rw [f.prev, State.prev_sampleInputs]
    split
    · exact s.nextLevel_wf h.level_wf
    · exact h.level_wf

end Sys2Proof.Machine
end

section
/-! SUPPORT. The invariant through the transmit step of a tick: a pin write with the position it belongs to, and the end
of an operation (spec/10_state.md R35; spec/40_timing_calculator.md R138; spec/43_transmit_engine.md R222 to R236). -/

namespace Sys2Proof.Machine

/-! ## Levels and pins of the transmit lines -/

theorem State.lineLevel_of_idle {s : State} (h : s.tx.busy = false) (i : Nat) : s.lineLevel i = idleLevel := by
  simp [State.lineLevel, State.sending, h]

/-- A level written to a pin leaves its direction and its pull-up. -/
theorem State.pin_gpioSet_config (s : State) (p q : Pin) (v : Level) :
    ((s.gpioSet p v).pin q).dir = (s.pin q).dir ∧ ((s.gpioSet p v).pin q).pullUp = (s.pin q).pullUp := by
  rw [State.pin_gpioSet]
  split
  · next h => rw [h]; exact ⟨rfl, rfl⟩
  · exact ⟨rfl, rfl⟩

theorem State.pins_wf_setPin {s : State} (p : Pin) (v : PinState) (h : tableWf PinState.unconfigured 256 s.pins) :
    tableWf PinState.unconfigured 256 (s.setPin p v).pins :=
  tableWf_write v h p.isLt

/-- Two active instances have different transmit pins (R157). -/
theorem SoundState.txPin_ne {s : State} (h : SoundState s) {i j : Nat} (hi : i < s.cfg.nInst) (hj : j < s.cfg.nInst)
    (hai : s.isActive i = true) (haj : s.isActive j = true) (hne : i ≠ j) : (s.inst i).txPin ≠ (s.inst j).txPin := by
  intro he
  have hshare : s.sharesPin j (s.inst i).rxPin (s.inst i).txPin = true :=
    (s.sharesPin_iff j _ _).mpr (.inr (.inr (.inr he)))
  rw [h.pins_disjoint i hi j hj hne hai haj] at hshare
  cases hshare

/-! ## The transmit sequencer -/

/-- What is left to show of the invariant after an action of the transmit sequencer: the lines carry their levels, and
the position is in range and not early. -/
theorem SoundState.of_txFrame {s t : State} (h : SoundState s) (f : TxFrame s t)
    (hwf : tableWf PinState.unconfigured 256 t.pins)
    (hconfig : ∀ p, (t.pin p).dir = (s.pin p).dir ∧ (t.pin p).pullUp = (s.pin p).pullUp)
    (hline : ∀ i, i < s.cfg.nInst → s.isActive i = true → (t.pin (s.inst i).txPin).out = t.lineLevel i)
    (hput : t.tx.busy = true → t.tx.inst < s.cfg.nInst ∧ s.isActive t.tx.inst = true ∧ 1 ≤ t.tx.j ∧ t.tx.j ≤ 10 ∧
      t.tx.t0 + s.bitPeriod t.tx.inst * (t.tx.j - 1) ≤ s.now) : SoundState t := by
  have hsampling : ∀ i, t.sampling i = s.sampling i := State.sampling_congr f.isr
  have hshare : ∀ j rx tx, t.sharesPin j rx tx = s.sharesPin j rx tx := fun j =>
    State.sharesPin_congr (f.inst j)
  have hperiod : t.runPeriod = s.runPeriod := by rw [State.runPeriod, f.bitPeriod, f.isr]; rfl
  constructor
  case cfg_wf => rw [f.cfg]; exact h.cfg_wf
  case table_length => rw [f.slots, f.cfg]; exact h.table_length
  case buffers_wf => simpa only [f.cfg, f.buf] using h.buffers_wf
  case armed_iff => simpa only [f.cfg, f.rx, f.isActive, hsampling] using h.armed_iff
  case pending_attached => simpa only [f.cfg, f.rx] using h.pending_attached
  case period_of_rate => simpa only [f.cfg, f.isActive, f.inst] using h.period_of_rate
  case pins_differ => simpa only [f.cfg, f.isActive, f.inst] using h.pins_differ
  case pins_disjoint => simpa only [f.cfg, f.isActive, f.inst, hshare] using h.pins_disjoint
  case rx_pin_input => simpa only [f.cfg, f.isActive, f.inst, hconfig] using h.rx_pin_input
  case tx_pin_output =>
    intro i hi ha
    rw [f.cfg] at hi
    rw [f.isActive] at ha
    obtain ⟨hdir, hpull, -⟩ := h.tx_pin_output i hi ha
    rw [f.inst, (hconfig _).1, (hconfig _).2]
    exact ⟨hdir, hpull, hline i hi ha⟩
  case run_position => simpa only [f.cfg, f.now, f.isr, f.isActive, hperiod] using h.run_position
  case run_not_late =>
    simpa only [State.sampleDue, State.endDue, f.cfg, f.now, f.isr, hperiod] using h.run_not_late
  case put_position =>
    rw [f.cfg, f.now, f.isActive, State.txPeriod, f.bitPeriod]
    exact hput
  case pins_wf => exact hwf
  case level_wf => rw [f.level]; exact h.level_wf
  case prev_wf => rw [f.prev]; exact h.prev_wf

/-- A frame level driven with the position after it keeps the invariant, when no other index is sending. -/
theorem SoundState.drive {s : State} (h : SoundState s) {x : Tx} (hbusy : x.busy = true)
    (hother : s.tx.busy = true → s.tx.inst = x.inst) (hactive : s.isActive x.inst = true) (hj1 : 1 ≤ x.j)
    (hj : x.j ≤ 10) (hdue : x.t0 + s.bitPeriod x.inst * (x.j - 1) ≤ s.now) :
    SoundState { s.gpioSet (s.inst x.inst).txPin (frameLevel x.byte (x.j - 1)) with tx := x } := by
  have hx : x.inst < s.cfg.nInst := ((s.isActive_iff _).mp hactive).1
  refine h.of_txFrame ⟨rfl, rfl, rfl, rfl, rfl, rfl, rfl, rfl, rfl, rfl⟩ (State.pins_wf_setPin _ _ h.pins_wf)
    (fun q => s.pin_gpioSet_config _ q _) (fun i hi ha => ?_) (fun _ => ⟨hx, hactive, hj1, hj, hdue⟩)
  change ((s.gpioSet (s.inst x.inst).txPin (frameLevel x.byte (x.j - 1))).pin (s.inst i).txPin).out =
    if x.busy && decide (x.inst = i) then frameLevel x.byte (x.j - 1) else idleLevel
  rw [State.pin_gpioSet]
  by_cases he : x.inst = i
  · simp [he, hbusy]
  · have hidle : s.lineLevel i = idleLevel := by
      have hs : s.sending i = false := by
        simp only [State.sending, Bool.and_eq_false_iff, decide_eq_false_iff_not]
        by_cases hb : s.tx.busy = true
        · exact .inr (hother hb ▸ he)
        · exact .inl (by simpa using hb)
      simp [State.lineLevel, hs]
    rw [if_neg (h.txPin_ne hi hx ha hactive (Ne.symm he)), (h.tx_pin_output i hi ha).2.2, hidle]
    simp [he]

theorem SoundState.beginPut {s : State} (h : SoundState s) {i : Nat} (b : Byte) (rest : List Byte)
    (hother : s.tx.busy = true → s.tx.inst = i) (ha : s.isActive i = true) : SoundState (s.beginPut i b rest) :=
  h.drive (x := { busy := true, inst := i, byte := b, t0 := s.now, j := 1, rest := rest }) rfl hother ha
    (Nat.le_refl 1) (show 1 ≤ 10 by decide) (Nat.le_refl _)

theorem State.writeDue_iff (s : State) :
    s.writeDue = true ↔ s.tx.j ≤ 9 ∧ s.tx.t0 + s.txPeriod * s.tx.j ≤ s.now := by
  simp [State.writeDue, deadlineMet]

theorem SoundState.txWrite {s : State} (h : SoundState s) (hb : s.tx.busy = true) (hd : s.writeDue = true) :
    SoundState s.txWrite := by
  obtain ⟨hj, hdue⟩ := s.writeDue_iff.mp hd
  obtain ⟨-, ha, -⟩ := h.put_position hb
  exact h.drive (x := { s.tx with j := s.tx.j + 1 }) hb (fun _ => rfl) ha (Nat.le_add_left 1 _)
    (Nat.succ_le_succ hj) hdue

theorem SoundState.txWrites {s : State} (h : SoundState s) (hb : s.tx.busy = true) (n : Nat) :
    SoundState (State.txWrites n s) ∧ (State.txWrites n s).tx.busy = true :=
  State.txWrites_induct (P := fun t => SoundState t ∧ t.tx.busy = true)
    (fun _ ht hd => ⟨ht.1.txWrite ht.2 hd, ht.2⟩) n s ⟨h, hb⟩

/-- When a PUT returns its line is at the stop level, which is the idle level (R225, R226). -/
theorem SoundState.txFinish {s : State} (h : SoundState s) (hr : s.putReturns = true) (v : RespWord) :
    SoundState (s.txFinish v) := by
  have hj : s.tx.j = 10 := by
    simp only [State.putReturns, Bool.and_eq_true, decide_eq_true_eq] at hr
    exact hr.1
  have hline : ∀ i, s.lineLevel i = idleLevel := fun i => by
    simp [State.lineLevel, hj, frameLevel, idleLevel]
  refine h.of_txFrame (s.txFinish_frame v) h.pins_wf (fun _ => ⟨rfl, rfl⟩) (fun i hi ha => ?_)
    (fun hbusy => by cases hbusy)
  rw [State.pin_congr (State.pins_txFinish s v), (h.tx_pin_output i hi ha).2.2, hline,
    State.lineLevel_of_idle (by rfl)]

theorem SoundState.txAdvance {s : State} (h : SoundState s) (hb : s.tx.busy = true) (rest : List Byte) :
    SoundState (s.txAdvance rest) := by
  induction rest generalizing s with
  | nil =>
    obtain ⟨hw, -⟩ := h.txWrites hb 10
    rw [State.txAdvance_nil]
    split
    · next hr => exact hw.txFinish hr _
    · exact hw
  | cons b bs ih =>
    obtain ⟨hw, -⟩ := h.txWrites hb 10
    rw [State.txAdvance_cons]
    split
    · next hr =>
      split
      · next ha => exact ih (hw.beginPut b bs (fun _ => rfl) ha) rfl
      · exact hw.txFinish hr _
    · exact hw

theorem SoundState.transmitStep {s : State} (h : SoundState s) : SoundState s.transmitStep := by
  unfold State.transmitStep
  split
  · next hb => exact h.txAdvance hb _
  · exact h

end Sys2Proof.Machine
end

section
/-! SUPPORT. The invariant through the host operations, and the step that keeps it (spec/10_state.md R20 to R36;
spec/41_instance_registry.md R157, R158, R162). -/

namespace Sys2Proof.Machine

/-! ## Operations that write at most the buffers, the port and the responses -/

theorem SoundState.of_buffers {s t : State} (h : SoundState s) (f : InputFrame s t) (hisr : t.isr = s.isr)
    (htx : t.tx = s.tx) (hpins : t.pins = s.pins) (hlen : t.slots.length = s.slots.length)
    (hinst : ∀ i, t.inst i = s.inst i) (hrx : ∀ i, t.rx i = s.rx i)
    (hbuf : ∀ i, i < s.cfg.nInst → (t.buf i).wf s.cfg.bufCap) : SoundState t := by
  have hact : ∀ i, t.isActive i = s.isActive i := fun i => State.isActive_congr f.cfg i (by rw [hinst])
  have hsampling : ∀ i, t.sampling i = s.sampling i := State.sampling_congr hisr
  have hline : ∀ i, t.lineLevel i = s.lineLevel i := State.lineLevel_congr htx
  have hshare : ∀ j rx tx, t.sharesPin j rx tx = s.sharesPin j rx tx := fun j =>
    State.sharesPin_congr (hinst j)
  have hperiod : ∀ i, t.bitPeriod i = s.bitPeriod i := fun i => State.bitPeriod_congr (hinst i)
  have hrun : t.runPeriod = s.runPeriod := by rw [State.runPeriod, hperiod, hisr]; rfl
  have hpin : ∀ p, t.pin p = s.pin p := State.pin_congr hpins
  constructor
  case cfg_wf => rw [f.cfg]; exact h.cfg_wf
  case table_length => rw [hlen, f.cfg]; exact h.table_length
  case buffers_wf => rw [f.cfg]; exact hbuf
  case armed_iff => simpa only [f.cfg, hrx, hact, hsampling] using h.armed_iff
  case pending_attached => simpa only [f.cfg, hrx] using h.pending_attached
  case period_of_rate => simpa only [f.cfg, hact, hinst] using h.period_of_rate
  case pins_differ => simpa only [f.cfg, hact, hinst] using h.pins_differ
  case pins_disjoint => simpa only [f.cfg, hact, hinst, hshare] using h.pins_disjoint
  case rx_pin_input => simpa only [f.cfg, hact, hinst, hpin] using h.rx_pin_input
  case tx_pin_output => simpa only [f.cfg, hact, hinst, hpin, hline] using h.tx_pin_output
  case run_position => simpa only [f.cfg, f.now, hisr, hact, hrun] using h.run_position
  case run_not_late => simpa only [State.sampleDue, State.endDue, f.cfg, f.now, hisr, hrun] using h.run_not_late
  case put_position => simpa only [f.cfg, f.now, htx, hact, State.txPeriod, hperiod] using h.put_position
  case pins_wf => rw [hpins]; exact h.pins_wf
  case level_wf => rw [f.level]; exact h.level_wf
  case prev_wf => rw [f.prev]; exact h.prev_wf

theorem SoundState.takeWords {s : State} (h : SoundState s) (n : Nat) : SoundState (s.takeWords n) :=
  h.of_buffers ⟨rfl, rfl, rfl, rfl, rfl, rfl, rfl⟩ rfl rfl rfl rfl (fun _ => rfl) (fun _ => rfl) h.buffers_wf

theorem SoundState.respond {s : State} (h : SoundState s) (v : RespWord) : SoundState (s.respond v) :=
  h.of_buffers ⟨rfl, rfl, rfl, rfl, rfl, rfl, rfl⟩ rfl rfl rfl rfl (fun _ => rfl) (fun _ => rfl) h.buffers_wf

theorem SoundState.setBuf {s : State} (h : SoundState s) {i : Nat} {v : Buffer}
    (hv : (s.buf i).wf s.cfg.bufCap → v.wf s.cfg.bufCap) : SoundState (s.setBuf i v) := by
  refine h.of_buffers ⟨rfl, rfl, rfl, rfl, rfl, rfl, rfl⟩ rfl rfl rfl (s.slots_length_setBuf i v)
    (fun j => s.inst_setBuf i j v) (fun j => s.rx_setBuf i j v) (fun j hj => ?_)
  rw [State.buf_setBuf]
  split
  · next he => exact hv (he.1 ▸ h.buffers_wf j hj)
  · exact h.buffers_wf j hj

theorem SoundState.popAdvance {s : State} (h : SoundState s) (i : Nat) : SoundState (s.popAdvance i) :=
  h.setBuf Buffer.wf_popped

theorem SoundState.clearOverflow {s : State} (h : SoundState s) (i : Nat) : SoundState (s.clearOverflow i) :=
  h.setBuf id

/-! ## OPEN and CLOSE -/

/-- The clauses of the invariant about one index, while nothing is sent or received on it. -/
structure IdleInstanceSound (s : State) (i : Nat) : Prop where
  buffer_wf : (s.buf i).wf s.cfg.bufCap
  rx_eq : s.rx i = { attached := s.isActive i, pend := false }
  period_of_rate : s.isActive i = true → (s.inst i).bitPeriod = bitPeriodReg (s.inst i).baudRate
  pins_differ : s.isActive i = true → (s.inst i).rxPin ≠ (s.inst i).txPin
  pins_disjoint : s.isActive i = true → ∀ j, j < s.cfg.nInst → j ≠ i → s.isActive j = true →
    s.sharesPin j (s.inst i).rxPin (s.inst i).txPin = false
  rx_pin_input : s.isActive i = true →
    (s.pin (s.inst i).rxPin).dir = .input ∧ (s.pin (s.inst i).rxPin).pullUp = true
  tx_pin_output : s.isActive i = true → (s.pin (s.inst i).txPin).dir = .output ∧
    (s.pin (s.inst i).txPin).pullUp = true ∧ (s.pin (s.inst i).txPin).out = idleLevel

/-- Sharing a pin is symmetric. -/
theorem State.sharesPin_comm (s : State) (i j : Nat) :
    s.sharesPin i (s.inst j).rxPin (s.inst j).txPin = s.sharesPin j (s.inst i).rxPin (s.inst i).txPin := by
  rw [Bool.eq_iff_iff, State.sharesPin_iff, State.sharesPin_iff]
  simp only [eq_comm]
  tauto

/-- A registry write of index `i`, in a state with no PUT in progress and no run for `i`, keeps the invariant when it
leaves the other slots and their pins alone and `i` sound. -/
theorem SoundState.of_registry_write {s t : State} {i : Nat} (h : SoundState s) (f : ExecFrame s t)
    (htx : t.tx = s.tx) (hidle : s.tx.busy = false) (hrun : s.sampling i = false)
    (hwf : tableWf PinState.unconfigured 256 t.pins) (hslot : ∀ j, j ≠ i → t.slot j = s.slot j)
    (hpin : ∀ j, j < s.cfg.nInst → j ≠ i → s.isActive j = true →
      t.pin (s.inst j).rxPin = s.pin (s.inst j).rxPin ∧ t.pin (s.inst j).txPin = s.pin (s.inst j).txPin)
    (hi : IdleInstanceSound t i) : SoundState t := by
  have hinst : ∀ j, j ≠ i → t.inst j = s.inst j := fun j hj => congrArg Slot.inst (hslot j hj)
  have hbuf : ∀ j, j ≠ i → t.buf j = s.buf j := fun j hj => congrArg Slot.buf (hslot j hj)
  have hrx : ∀ j, j ≠ i → t.rx j = s.rx j := fun j hj => congrArg Slot.rx (hslot j hj)
  have hact : ∀ j, j ≠ i → t.isActive j = s.isActive j := fun j hj =>
    State.isActive_congr f.cfg j (by rw [hinst j hj])
  have hsampling : ∀ j, t.sampling j = s.sampling j := State.sampling_congr f.isr
  have hline : ∀ j, t.lineLevel j = idleLevel := State.lineLevel_of_idle (by rw [htx]; exact hidle)
  have hshare : ∀ j, j ≠ i → ∀ rx tx, t.sharesPin j rx tx = s.sharesPin j rx tx := fun j hj =>
    State.sharesPin_congr (hinst j hj)
  have hother : s.isr.busy = true → s.isr.inst ≠ i := fun hb he => by simp [State.sampling, hb, he] at hrun
  have hperiod : s.isr.busy = true → t.runPeriod = s.runPeriod := fun hb => by
    rw [State.runPeriod, f.isr, State.bitPeriod_congr (hinst _ (hother hb))]; rfl
  constructor
  case cfg_wf => rw [f.cfg]; exact h.cfg_wf
  case table_length => rw [f.slots_length, f.cfg]; exact h.table_length
  case buffers_wf =>
    intro j hj
    by_cases he : j = i
    · rw [he]; exact hi.buffer_wf
    · rw [hbuf j he, f.cfg]; exact h.buffers_wf j (f.cfg ▸ hj)
  case armed_iff =>
    intro j hj
    rw [hsampling]
    by_cases he : j = i
    · rw [he, hi.rx_eq, hrun]; simp
    · rw [hrx j he, hact j he]; exact h.armed_iff j (f.cfg ▸ hj)
  case pending_attached =>
    intro j hj
    by_cases he : j = i
    · rw [he, hi.rx_eq]; intro hp; cases hp
    · rw [hrx j he]; exact h.pending_attached j (f.cfg ▸ hj)
  case period_of_rate =>
    intro j hj
    by_cases he : j = i
    · rw [he]; exact hi.period_of_rate
    · rw [hact j he, hinst j he]; exact h.period_of_rate j (f.cfg ▸ hj)
  case pins_differ =>
    intro j hj
    by_cases he : j = i
    · rw [he]; exact hi.pins_differ
    · rw [hact j he, hinst j he]; exact h.pins_differ j (f.cfg ▸ hj)
  case pins_disjoint =>
    intro j hj k hk hjk haj hak
    by_cases he : j = i
    · subst he; exact hi.pins_disjoint haj k hk (Ne.symm hjk) hak
    by_cases hke : k = i
    · subst hke; rw [State.sharesPin_comm]; exact hi.pins_disjoint hak j hj hjk haj
    · rw [hinst j he, hshare k hke]
      exact h.pins_disjoint j (f.cfg ▸ hj) k (f.cfg ▸ hk) hjk (hact j he ▸ haj) (hact k hke ▸ hak)
  case rx_pin_input =>
    intro j hj ha
    by_cases he : j = i
    · subst he; exact hi.rx_pin_input ha
    · rw [f.cfg] at hj
      rw [hact j he] at ha
      rw [hinst j he, (hpin j hj he ha).1]
      exact h.rx_pin_input j hj ha
  case tx_pin_output =>
    intro j hj ha
    rw [hline]
    by_cases he : j = i
    · subst he; exact hi.tx_pin_output ha
    · rw [f.cfg] at hj
      rw [hact j he] at ha
      rw [hinst j he, (hpin j hj he ha).2, ← State.lineLevel_of_idle hidle j]
      exact h.tx_pin_output j hj ha
  case run_position =>
    rw [f.isr]
    intro hb
    rw [f.cfg, f.now, hact _ (hother hb), hperiod hb]
    exact h.run_position hb
  case run_not_late =>
    by_cases hb : s.isr.busy = true
    · simpa only [State.sampleDue, State.endDue, f.cfg, f.now, f.isr, hperiod hb] using h.run_not_late
    · simp [State.sampleDue, State.endDue, f.isr, hb]
  case put_position => rw [htx, hidle]; intro hb; cases hb
  case pins_wf => exact hwf
  case level_wf => rw [f.level]; exact h.level_wf
  case prev_wf => rw [f.prev]; exact h.prev_wf

theorem SoundState.closeSuccess {s : State} {i : Nat} (h : SoundState s) (hi : i < s.cfg.nInst)
    (hidle : s.tx.busy = false) (hrun : s.sampling i = false) : SoundState (s.closeSuccess i) := by
  have hslot := s.slot_closeSuccess_self i (h.table_length.symm ▸ hi)
  have hact : (s.closeSuccess i).isActive i = false := by
    simp [State.isActive, State.inst, hslot]
  refine h.of_registry_write (s.closeSuccess_frame i) rfl hidle hrun h.pins_wf
    (fun j hj => s.slot_closeSuccess_ne hj) (fun j _ _ _ => ⟨rfl, rfl⟩) ?_
  constructor
  case buffer_wf => rw [State.buf, hslot]; exact h.buffers_wf i hi
  case rx_eq => rw [State.rx, hslot, hact]
  all_goals
    intro ha
    rw [hact] at ha
    cases ha

/-- The pins OPEN asks for belong to no other active index, when it does not fail (R157). -/
theorem State.pins_free_of_not_openFails {s : State} {idx : Index} {baud : Baud} {rx tx : Pin}
    (hf : s.openFails idx baud rx tx = false) {j : Nat} (hj : j < s.cfg.nInst) (hne : j ≠ idx.toNat)
    (ha : s.isActive j = true) : s.sharesPin j rx tx = false := by
  by_contra hc
  have hconflict : s.pinConflict idx.toNat rx tx = true :=
    (s.pinConflict_iff _ rx tx).mpr ⟨j, hj, hne, ha, by simpa using hc⟩
  have hfails := (s.openFails_iff idx baud rx tx).mpr (.inr (.inr (.inr hconflict)))
  rw [hf] at hfails
  cases hfails

theorem State.pins_wf_openSuccess {s : State} (i : Nat) (baud : Baud) (rx tx : Pin)
    (h : tableWf PinState.unconfigured 256 s.pins) :
    tableWf PinState.unconfigured 256 (s.openSuccess i baud rx tx).pins := by
  refine State.pins_wf_setPin _ _ (State.pins_wf_setPin _ _ (State.pins_wf_setPin _ _ ?_))
  change tableWf PinState.unconfigured 256 (s.closePrior i).pins
  rw [State.pins_closePrior]
  exact h

theorem SoundState.openSuccess {s : State} {idx : Index} {baud : Baud} {rx tx : Pin} (h : SoundState s)
    (hf : s.openFails idx baud rx tx = false) (hidle : s.tx.busy = false) (hrun : s.sampling idx.toNat = false) :
    SoundState (s.openSuccess idx.toNat baud rx tx) := by
  obtain ⟨hi, hbaud, hrt, -⟩ : idx.toNat < s.cfg.nInst ∧ baud ≠ 0#32 ∧ rx ≠ tx ∧
      ¬ s.pinConflict idx.toNat rx tx = true := by
    have hn := mt (s.openFails_iff idx baud rx tx).mpr (by simp [hf])
    simpa only [not_or, Nat.not_le] using hn
  have f := s.openSuccess_frame idx.toNat baud rx tx
  have hslot := s.slot_openSuccess_self idx.toNat baud rx tx (h.table_length.symm ▸ hi)
  have hinst : (s.openSuccess idx.toNat baud rx tx).inst idx.toNat =
      { rxPin := rx, txPin := tx, baudRate := baud, bitPeriod := bitPeriodReg baud } := by
    rw [State.inst, hslot]
  have hact : (s.openSuccess idx.toNat baud rx tx).isActive idx.toNat = true := by
    rw [State.isActive_iff, f.cfg, hinst]; exact ⟨hi, hbaud⟩
  have hother : ∀ j, j ≠ idx.toNat → (s.openSuccess idx.toNat baud rx tx).inst j = s.inst j := fun j hj =>
    congrArg Slot.inst (s.slot_openSuccess_ne baud rx tx hj)
  refine h.of_registry_write f (s.tx_openSuccess _ baud rx tx) hidle hrun
    (State.pins_wf_openSuccess _ baud rx tx h.pins_wf) (fun j hj => s.slot_openSuccess_ne baud rx tx hj)
    (fun j hj hne ha => ?_) ?_
  · have hfree := State.pins_free_of_not_openFails hf hj hne ha
    rw [← Bool.not_eq_true, State.sharesPin_iff] at hfree
    simp only [not_or] at hfree
    obtain ⟨hrr, hrt', htr, htt⟩ := hfree
    simp [State.pin_openSuccess, Ne.symm hrr, Ne.symm hrt', Ne.symm htr, Ne.symm htt]
  · constructor
    case buffer_wf =>
      obtain ⟨-, -, hs⟩ := h.buffers_wf _ hi
      have hpos := Config.bufCap_pos h.cfg_wf
      rw [State.buf, hslot, f.cfg]
      exact ⟨hpos, hpos, hs⟩
    case rx_eq => rw [State.rx, hslot, hact]
    case period_of_rate => rw [hinst]; exact fun _ => rfl
    case pins_differ => rw [hinst]; exact fun _ => hrt
    case pins_disjoint =>
      intro _ j hj hne ha
      rw [f.cfg] at hj
      rw [State.isActive_congr f.cfg j (by rw [hother j hne])] at ha
      rw [hinst, State.sharesPin_congr (hother j hne)]
      exact State.pins_free_of_not_openFails hf hj hne ha
    case rx_pin_input => rw [hinst, State.pin_openSuccess]; simp [hrt]
    case tx_pin_output => rw [hinst, State.pin_openSuccess]; simp [idleLevel]

/-! ## The step -/

/-- A host operation accepted with the normal context idle keeps the invariant. -/
theorem SoundState.exec {i : Instr} {s t : State} (h : SoundState s) (hidle : s.tx.busy = false)
    (he : exec i s = .next t) : SoundState t := by
  rcases exec_cases he with ⟨v, rfl⟩ | ⟨idx, baud, rx, tx, -, hf, hr, rfl⟩ | ⟨idx, -, hi, hr, rfl⟩ |
    ⟨idx, b, bs, -, hg, rfl⟩ | ⟨idx, -, -, -, rfl⟩ | ⟨idx, -, -, rfl⟩
  · exact h.respond v
  · exact (h.openSuccess hf hidle hr).respond _
  · exact (h.closeSuccess (of_decide_eq_true hi) hidle hr).respond _
  · have hb : SoundState (s.beginPut idx.toNat b bs) :=
      h.beginPut b bs (fun hbusy => absurd hbusy (by simp [hidle])) hg
    exact hb.txAdvance rfl bs
  · exact (h.popAdvance _).respond _
  · exact (h.clearOverflow _).respond _

/-- Settles O48: the interrupt part, the transmit step, a rejected word and an accepted operation keep the invariant. -/
theorem stepKeepsSoundStates : Obligations.StepKeepsSoundStates := by
  intro s t h hstep
  exact step_induct (P := SoundState) h.interruptPart (fun _ hu => hu.transmitStep)
    (fun _ hu _ => (hu.takeWords 1).respond _)
    (fun _ i _ _ hu hidle _ he => (hu.takeWords (wordLength i)).exec hidle he) hstep

end Sys2Proof.Machine
end

section
/-! SUPPORT. The bytes a buffer holds, as its two indices move: positions on the ring, occupancy, and the queue after an
append and after a pop (spec/20_memory.md R62 to R69). -/

namespace Sys2Proof.Machine

/-! ## Positions on the ring (R63, R64, R69) -/

/-- A position reached from a position without the modulus. -/
theorem ringPos_eq {cap h n : Nat} (hh : h < cap) (hn : n < cap) :
    (h + n) % cap = if cap ≤ h + n then h + n - cap else h + n := by
  rw [Nat.add_mod_eq_ite, Nat.mod_eq_of_lt hh, Nat.mod_eq_of_lt hn]

/-- The head and as many positions as there are bytes waiting lead to the tail (R63). -/
theorem Buffer.head_add_occupancy {cap : Nat} {b : Buffer} (hh : b.head < cap) (ht : b.tail < cap) :
    (b.head + b.occupancy cap) % cap = b.tail := by
  rw [ringPos_eq hh (b.occupancy_lt (by omega)), Buffer.occupancy_eq hh ht]
  split <;> split <;> omega

/-- No occupied position is the tail (R65). -/
theorem Buffer.occupied_ne_tail {cap n : Nat} {b : Buffer} (hh : b.head < cap) (ht : b.tail < cap)
    (hn : n < b.occupancy cap) : (b.head + n) % cap ≠ b.tail := by
  have hlt : n < cap := hn.trans (b.occupancy_lt (by omega))
  rw [Buffer.occupancy_eq hh ht] at hn
  rw [ringPos_eq hh hlt]
  split at hn <;> split <;> omega

theorem Buffer.isEmpty_iff {cap : Nat} {b : Buffer} (hh : b.head < cap) (ht : b.tail < cap) :
    b.isEmpty = true ↔ b.occupancy cap = 0 := by
  rw [Buffer.isEmpty, decide_eq_true_iff, Buffer.occupancy_eq hh ht]
  split <;> omega

theorem Buffer.isFull_iff {cap : Nat} {b : Buffer} (hh : b.head < cap) (ht : b.tail < cap) :
    b.isFull cap = true ↔ b.occupancy cap = cap - 1 := by
  rw [Buffer.isFull, decide_eq_true_iff, nextPos_eq ht, Buffer.occupancy_eq hh ht]
  split <;> split <;> omega

/-- One more byte waits when `tail` advances in a buffer that is not full (R66). -/
theorem Buffer.occupancy_tail_next {cap : Nat} {b c : Buffer} (hh : b.head < cap) (ht : b.tail < cap)
    (hfull : b.isFull cap = false) (hhead : c.head = b.head) (htail : c.tail = nextPos cap b.tail) :
    c.occupancy cap = b.occupancy cap + 1 := by
  have hne : c.tail ≠ b.head := by simpa [Buffer.isFull, htail] using hfull
  have hlt : c.tail < cap := htail ▸ nextPos_lt (by omega)
  rw [nextPos_eq ht] at htail
  rw [Buffer.occupancy_eq (hhead ▸ hh) hlt, Buffer.occupancy_eq hh ht, hhead]
  split at htail <;> split <;> split <;> omega

/-- One byte fewer waits when `head` advances in a buffer that is not empty (R67). -/
theorem Buffer.occupancy_head_next {cap : Nat} {b c : Buffer} (hh : b.head < cap) (ht : b.tail < cap)
    (he : b.isEmpty = false) (hhead : c.head = nextPos cap b.head) (htail : c.tail = b.tail) :
    b.occupancy cap = c.occupancy cap + 1 := by
  have hne : b.head ≠ b.tail := by simpa [Buffer.isEmpty] using he
  have hlt : c.head < cap := hhead ▸ nextPos_lt (by omega)
  rw [nextPos_eq hh] at hhead
  rw [Buffer.occupancy_eq hlt (htail ▸ ht), Buffer.occupancy_eq hh ht, htail]
  split at hhead <;> split <;> split <;> omega

theorem Config.bufCap_eq_two_pow {c : Config} (h : c.wf = true) : c.bufCap = 2 ^ c.idxW := by
  simp only [Config.wf, Bool.and_eq_true, decide_eq_true_iff] at h
  exact h.1.2

/-! ## The bytes waiting (R65 to R67) -/

@[simp] theorem Buffer.length_contents (cap : Nat) (b : Buffer) : (b.contents cap).length = b.occupancy cap := by
  simp [Buffer.contents]

/-- An append puts its byte last, or drops it where the buffer is full (R65, R66). -/
theorem Buffer.contents_appended {cap : Nat} {b : Buffer} (v : Byte) (hh : b.head < cap) (ht : b.tail < cap) :
    (b.appended cap v).contents cap = if b.isFull cap then b.contents cap else b.contents cap ++ [v] := by
  unfold Buffer.appended
  split
  · rfl
  · next hfull =>
    have hocc := Buffer.occupancy_tail_next
      (c := { b with storage := b.storage.write b.tail v, tail := nextPos cap b.tail })
      hh ht (by simpa using hfull) rfl rfl
    rw [Buffer.contents, hocc, List.range_succ, List.map_append]
    refine congrArg₂ (· ++ ·) (List.map_congr_left fun n hn => ?_) ?_
    · exact Memory.read_write_ne _ v (Buffer.occupied_ne_tail hh ht (List.mem_range.mp hn))
    · simp [Buffer.head_add_occupancy hh ht]

/-- A buffer that is not empty holds the byte at `head`, then what is left when `head` advances (R67). -/
theorem Buffer.contents_eq_cons {cap : Nat} {b : Buffer} (hh : b.head < cap) (ht : b.tail < cap)
    (he : b.isEmpty = false) :
    b.contents cap = b.storage.read b.head :: Buffer.contents cap { b with head := nextPos cap b.head } := by
  have hocc := Buffer.occupancy_head_next (c := { b with head := nextPos cap b.head }) hh ht he rfl rfl
  rw [Buffer.contents, hocc, List.range_succ_eq_map, List.map_cons, List.map_map]
  refine congrArg₂ (· :: ·) (by rw [Nat.add_zero, Nat.mod_eq_of_lt hh]) (List.map_congr_left fun n _ => ?_)
  have hpos : (b.head + (n + 1)) % cap = (nextPos cap b.head + n) % cap := by
    rw [nextPos, Nat.mod_add_mod]; congr 1; omega
  exact congrArg b.storage.read hpos

theorem Buffer.contents_eq_nil {cap : Nat} {b : Buffer} (hh : b.head < cap) (ht : b.tail < cap)
    (he : b.isEmpty = true) : b.contents cap = [] :=
  List.length_eq_zero_iff.mp ((b.length_contents cap).trans ((Buffer.isEmpty_iff hh ht).mp he))

/-! ## The obligations on the indices -/

/-- Settles O17, by the two index comparisons and the length of the queue. -/
theorem emptyFullAndOccupancyAgree : Obligations.EmptyFullAndOccupancyAgree := by
  intro cap b hcap hh ht
  have hlt := b.occupancy_lt (cap := cap) (by omega)
  exact ⟨by omega, b.length_contents cap, decide_eq_true_iff, Buffer.isEmpty_iff hh ht, Buffer.isFull_iff hh ht,
    decide_eq_true_iff⟩

/-- Settles O18: `BUF_CAP` is `2 ^ IDX_W`, so the modulus is the discarded carry or borrow. -/
theorem indexArithmeticIsModular : Obligations.IndexArithmeticIsModular := by
  intro c b hwf hh ht
  have hcap := Config.bufCap_eq_two_pow hwf
  unfold nextPos Buffer.occupancy
  rw [hcap] at hh ht ⊢
  have hnext : ∀ x, (BitVec.ofNat c.idxW x + 1).toNat = (x + 1) % 2 ^ c.idxW := fun x => by
    simp
  refine ⟨hnext _, hnext _, ?_⟩
  rw [BitVec.toNat_sub, BitVec.toNat_ofNat, BitVec.toNat_ofNat, Nat.mod_eq_of_lt hh, Nat.mod_eq_of_lt ht]
  congr 1
  omega

end Sys2Proof.Machine
end

section
/-! SUPPORT. What an append, READ and AVAIL do, in terms of the queue a buffer holds (spec/20_memory.md R65 to R68;
spec/44_buffer_access.md R250, R252). -/

namespace Sys2Proof.Machine

/-! ## Append (R66) -/

/-- An append is a write of the one buffer it names. -/
theorem State.append_eq_setBuf (s : State) (i : Nat) (v : Byte) :
    s.append i v = s.setBuf i ((s.buf i).appended s.cfg.bufCap v) := by
  unfold State.append Buffer.appended
  by_cases hl : i < s.slots.length
  · split
    · rfl
    · simp [State.bufWrite, State.setBuf, State.setSlot_setSlot, hl, State.buf]
  · have hnoop : ∀ (u : State) (b : Buffer), u.slots.length ≤ i → u.setBuf i b = u := fun u b hu => by
      simp [State.setBuf, State.setSlot, List.set_eq_of_length_le hu]
    have hle : s.slots.length ≤ i := by omega
    simp [State.setOverflow, State.bufWrite, hnoop _ _ hle]

theorem Buffer.appended_of_full {cap : Nat} {b : Buffer} (v : Byte) (h : b.isFull cap = true) :
    b.appended cap v = { b with overflowFlag := true } := if_pos h

theorem Buffer.appended_of_not_full {cap : Nat} {b : Buffer} (v : Byte) (h : b.isFull cap = false) :
    b.appended cap v = { b with storage := b.storage.write b.tail v, tail := nextPos cap b.tail } :=
  if_neg (by simp [h])

/-- An append to a full buffer sets the flag, and no append clears it (R66). -/
theorem Buffer.overflowFlag_appended_eq_or (cap : Nat) (b : Buffer) (v : Byte) :
    (b.appended cap v).overflowFlag = (b.overflowFlag || b.isFull cap) := by
  cases h : b.isFull cap with
  | true => rw [Buffer.appended_of_full v h, Bool.or_true]
  | false => rw [Buffer.appended_of_not_full v h, Bool.or_false]

/-! ## READ and AVAIL (R250, R252) -/

theorem exec_read_sentinel {idx : Index} {s : State} (h : s.gate idx = false ∨ (s.buf idx.toNat).isEmpty = true) :
    exec (.read idx) s = .next (s.respond 0#32) := by
  simp only [exec, execRead]
  rcases h with h | h
  · rw [if_pos (by simp [h])]; rfl
  · rw [if_pos h, ite_self]; rfl

theorem exec_read_pop {idx : Index} {s : State} (hg : s.gate idx = true) (he : (s.buf idx.toNat).isEmpty = false) :
    exec (.read idx) s = .next ((s.popAdvance idx.toNat).respond (respByte (s.popByte idx.toNat))) := by
  simp [exec, execRead, hg, he]

theorem exec_avail_of_gate {idx : Index} {s : State} (hg : s.gate idx = true) :
    exec (.avail idx) s = .next (s.respond (respCount ((s.buf idx.toNat).occupancy s.cfg.bufCap))) := by
  simp [exec, execAvail, hg]

/-! ## The obligations on append, READ and AVAIL -/

/-- Settles O19: the append is a write of one buffer, by the two cases of `Buffer.appended`. -/
theorem appendStoresAtTailOrDrops : Obligations.AppendStoresAtTailOrDrops := by
  intro s i v hi
  have hbuf : (s.append i v).buf i = (s.buf i).appended s.cfg.bufCap v := by
    rw [State.buf_append, if_pos ⟨rfl, hi⟩]
  refine ⟨(s.append_frame i v).head i, fun j hj => ?_, s.inst_append i i v, s.rx_append i i v, ?_, fun hfull => ?_,
    fun hfull => ?_⟩
  · rw [State.append_eq_setBuf]; exact s.slot_setSlot_ne _ hj
  · rw [State.append_eq_setBuf]; rfl
  · rw [hbuf, Buffer.appended_of_full v (decide_eq_true hfull)]
  · rw [State.bufRead, hbuf, Buffer.appended_of_not_full v (decide_eq_false hfull)]
    refine ⟨Memory.read_write_self _ _ v, fun pos hpos => ?_, rfl, rfl⟩
    rw [State.bufRead, hbuf, Buffer.appended_of_not_full v (decide_eq_false hfull)]
    exact Memory.read_write_ne _ v hpos

/-- Settles O22, by the two answers of READ. -/
theorem readPopsTheByteAtHead : Obligations.ReadPopsTheByteAtHead := by
  intro idx s hlen
  refine ⟨fun h => exec_read_sentinel (h.imp_right decide_eq_true), fun hg hne => ?_⟩
  have hpop := exec_read_pop hg (decide_eq_false hne)
  have hl : idx.toNat < s.slots.length := hlen ▸ ((s.gate_iff idx).mp hg).1
  refine ⟨_, hpop, rfl, ?_, s.inst_popAdvance _ _, s.rx_popAdvance _ _, fun j hj => s.slot_setSlot_ne _ hj, rfl, rfl,
    exec_frame hpop⟩
  rw [State.buf_respond, State.buf_popAdvance, if_pos ⟨rfl, hl⟩]
  rfl

/-- Settles O20: full is the length `BUF_CAP - 1`, an append and a pop act on the queue as said once above. -/
theorem bufferIsABoundedQueue : Obligations.BufferIsABoundedQueue := by
  intro s i hs hi
  obtain ⟨hh, ht, -⟩ := hs.buffers_wf i hi
  have hl : i < s.slots.length := hs.table_length.symm ▸ hi
  have hfull : (s.buf i).isFull s.cfg.bufCap =
      decide (((s.buf i).contents s.cfg.bufCap).length = s.cfg.bufCap - 1) := by
    rw [Bool.eq_iff_iff, decide_eq_true_iff, Buffer.length_contents, Buffer.isFull_iff hh ht]
  refine ⟨fun v => ?_, ?_⟩
  · rw [State.buf_append, if_pos ⟨rfl, hl⟩, Buffer.contents_appended v hh ht, Buffer.overflowFlag_appended_eq_or,
      hfull]
    exact ⟨by simp only [decide_eq_true_iff], rfl⟩
  · rintro idx rfl hact
    refine ⟨fun hfits => ?_, ?_⟩
    · rw [Buffer.length_contents] at hfits ⊢
      rw [exec_avail_of_gate hact, respCount, if_pos hfits]
    · cases he : (s.buf idx.toNat).isEmpty with
      | true =>
        rw [Buffer.contents_eq_nil hh ht he]
        exact exec_read_sentinel (.inr he)
      | false =>
        rw [Buffer.contents_eq_cons hh ht he]
        refine ⟨_, exec_read_pop hact he, ?_, rfl⟩
        rw [State.buf_respond, State.buf_popAdvance, if_pos ⟨rfl, hl⟩]

end Sys2Proof.Machine
end

section
/-! SUPPORT. The interrupt part of a tick only adds bytes behind those waiting (spec/20_memory.md R61, R66;
spec/60_exceptions.md R297). -/

namespace Sys2Proof.Machine

/-! ## Induction over the actions of the interrupt part -/

/-- A property that due samples, ends and starts of runs keep is kept by the interrupt part from edge detection on. -/
theorem State.interruptPart_induct {P : State → Prop} (hsample : ∀ u, P u → u.sampleDue = true → P u.takeSample)
    (hend : ∀ u, P u → P u.endRun) (hserve : ∀ u i, P u → P (u.serve i)) {s : State}
    (h : P s.sampleInputs.detectEdges) : P s.interruptPart := by
  have hrun : ∀ u, P u → P u.advanceRun := fun u hu => by
    have hsamples := State.takeSamples_induct hsample 8 u hu
    unfold State.advanceRun
    dsimp only
    split
    · exact hend _ hsamples
    · exact hsamples
  exact State.startRuns_induct (fun u i hu _ _ => hrun _ (hserve u i hu)) _ _ (hrun _ h)

/-! ## The bytes waiting stay in front -/

theorem Buffer.contents_isPrefix_appended {cap : Nat} {b : Buffer} (v : Byte) (h : b.wf cap) :
    b.contents cap <+: (b.appended cap v).contents cap := by
  rw [Buffer.contents_appended v h.1 h.2.1]
  split
  · exact ⟨[], List.append_nil _⟩
  · exact ⟨[v], rfl⟩

theorem State.contents_isPrefix_takeSample {s : State} {i : Nat} (h : (s.buf i).wf s.cfg.bufCap) :
    (s.buf i).contents s.cfg.bufCap <+: (s.takeSample.buf i).contents s.cfg.bufCap := by
  rcases s.takeSample_cases with ⟨-, e⟩ | ⟨-, e⟩ <;> rw [e]
  · rw [State.buf_append]
    split
    · next hi => rw [hi.1] at h ⊢; exact Buffer.contents_isPrefix_appended _ h
    · exact ⟨[], List.append_nil _⟩
  · exact ⟨[], List.append_nil _⟩

/-- Buffer `i` of `u` is sound, and the bytes waiting in that of `s` stand first in it. -/
structure KeepsWaiting (s : State) (i : Nat) (u : State) : Prop where
  cfg : u.cfg = s.cfg
  wf : (u.buf i).wf s.cfg.bufCap
  waiting : (s.buf i).contents s.cfg.bufCap <+: (u.buf i).contents s.cfg.bufCap

theorem KeepsWaiting.takeSample {s u : State} {i : Nat} (h : KeepsWaiting s i u) : KeepsWaiting s i u.takeSample := by
  obtain ⟨hc, hwf, hpre⟩ := h
  rw [← hc] at hwf hpre
  have hpre' := hpre.trans (State.contents_isPrefix_takeSample hwf)
  have hwf' := State.wf_buf_takeSample hwf
  rw [hc] at hpre' hwf'
  exact ⟨u.takeSample_frame.cfg.trans hc, hwf', hpre'⟩

/-- An action that writes no buffer. -/
theorem KeepsWaiting.of_buf_eq {s u v : State} {i : Nat} (h : KeepsWaiting s i u) (hc : v.cfg = u.cfg)
    (hb : v.buf i = u.buf i) : KeepsWaiting s i v :=
  ⟨hc.trans h.cfg, hb ▸ h.wf, hb ▸ h.waiting⟩

theorem State.keepsWaiting_interruptPart {s : State} {i : Nat} (h : (s.buf i).wf s.cfg.bufCap) :
    KeepsWaiting s i s.interruptPart :=
  State.interruptPart_induct (fun _ hu _ => hu.takeSample) (fun u hu => hu.of_buf_eq rfl (by simp))
    (fun u j hu => hu.of_buf_eq (u.serve_frame j).cfg (u.buf_serve j i))
    ⟨rfl, by rw [State.buf_detectEdges]; exact h, by rw [State.buf_detectEdges]; exact ⟨[], List.append_nil _⟩⟩

/-! ## The obligation on the interrupt part -/

/-- Settles O35: the frame of the interrupt part, and the induction over its actions. -/
theorem interruptPartOnlyProduces : Obligations.InterruptPartOnlyProduces := by
  intro s i
  have f := s.interruptPart_frame
  refine ⟨f.inst i, f.head i, f.tx, f.pins, f.responses, f.port, fun hs hi => ?_⟩
  obtain ⟨new, hnew⟩ := (State.keepsWaiting_interruptPart (hs.buffers_wf i hi)).waiting
  exact ⟨new, hnew.symm⟩

end Sys2Proof.Machine
end

section
/-! SUPPORT. A state with the contents of every storage left out: what reads the same of it, and the actions that
commute with leaving them out (spec/20_memory.md R70). -/

namespace Sys2Proof.Machine

/-- A buffer with the contents of its storage left out. -/
def Buffer.blind (b : Buffer) : Buffer := { b with storage := [] }

/-! ## What does not read the storage -/

@[simp] theorem State.cfg_blind (s : State) : s.blind.cfg = s.cfg := rfl
@[simp] theorem State.isr_blind (s : State) : s.blind.isr = s.isr := rfl
@[simp] theorem State.tx_blind (s : State) : s.blind.tx = s.tx := rfl
@[simp] theorem State.port_blind (s : State) : s.blind.port = s.port := rfl
@[simp] theorem State.slots_length_blind (s : State) : s.blind.slots.length = s.slots.length := by simp [State.blind]
@[simp] theorem State.slot_blind (s : State) (i : Nat) : s.blind.slot i = (s.slot i).blind :=
  List.getD_map _ Slot.reset Slot.blind

@[simp] theorem State.inst_blind (s : State) (i : Nat) : s.blind.inst i = s.inst i := by
  rw [State.inst, State.slot_blind]; rfl
@[simp] theorem State.rx_blind (s : State) (i : Nat) : s.blind.rx i = s.rx i := by
  rw [State.rx, State.slot_blind]; rfl
@[simp] theorem State.buf_blind (s : State) (i : Nat) : s.blind.buf i = (s.buf i).blind := by
  rw [State.buf, State.slot_blind]; rfl

/-! ## Writes of a slot -/

theorem State.blind_setSlot (s : State) (i : Nat) (x : Slot) : (s.setSlot i x).blind = s.blind.setSlot i x.blind := by
  simp [State.blind, State.setSlot, List.map_set]
theorem State.blind_setInst (s : State) (i : Nat) (v : Inst) : (s.setInst i v).blind = s.blind.setInst i v := by
  rw [State.setInst, State.blind_setSlot, State.setInst, State.slot_blind]; rfl
theorem State.blind_setRx (s : State) (i : Nat) (v : RxControl) : (s.setRx i v).blind = s.blind.setRx i v := by
  rw [State.setRx, State.blind_setSlot, State.setRx, State.slot_blind]; rfl
theorem State.blind_setBuf (s : State) (i : Nat) (v : Buffer) :
    (s.setBuf i v).blind = s.blind.setBuf i v.blind := by
  rw [State.setBuf, State.blind_setSlot, State.setBuf, State.slot_blind]; rfl

/-! ## Conditions that do not read the storage -/

@[simp] theorem State.isActive_blind (s : State) (i : Nat) : s.blind.isActive i = s.isActive i :=
  State.isActive_congr (s := s) (t := s.blind) rfl i (by rw [State.inst_blind])
@[simp] theorem State.bitPeriod_blind (s : State) (i : Nat) : s.blind.bitPeriod i = s.bitPeriod i :=
  State.bitPeriod_congr (s.inst_blind i)
@[simp] theorem State.runPeriod_blind (s : State) : s.blind.runPeriod = s.runPeriod := s.bitPeriod_blind s.isr.inst
@[simp] theorem State.txPeriod_blind (s : State) : s.blind.txPeriod = s.txPeriod := s.bitPeriod_blind s.tx.inst
@[simp] theorem State.sampleDue_blind (s : State) : s.blind.sampleDue = s.sampleDue := by
  rw [State.sampleDue, State.runPeriod_blind]; rfl
@[simp] theorem State.endDue_blind (s : State) : s.blind.endDue = s.endDue := by
  rw [State.endDue, State.runPeriod_blind]; rfl
@[simp] theorem State.nextPending_blind (s : State) : s.blind.nextPending = s.nextPending := by
  simp [State.nextPending]
@[simp] theorem State.writeDue_blind (s : State) : s.blind.writeDue = s.writeDue := by
  rw [State.writeDue, State.txPeriod_blind]; rfl
@[simp] theorem State.putReturns_blind (s : State) : s.blind.putReturns = s.putReturns := by
  rw [State.putReturns, State.txPeriod_blind]; rfl
theorem State.pinConflict_blind (s : State) (i : Nat) (rx tx : Pin) :
    s.blind.pinConflict i rx tx = s.pinConflict i rx tx := by
  have hshare : ∀ j, s.blind.sharesPin j rx tx = s.sharesPin j rx tx := fun j =>
    State.sharesPin_congr (s.inst_blind j) rx tx
  simp only [State.pinConflict, hshare, State.isActive_blind, State.cfg_blind]
@[simp] theorem State.openFails_blind (s : State) (idx : Index) (baud : Baud) (rx tx : Pin) :
    s.blind.openFails idx baud rx tx = s.openFails idx baud rx tx := by
  rw [State.openFails, State.pinConflict_blind]; rfl

/-! ## Actions that neither read nor write the storage -/

theorem State.blind_attach (s : State) (i : Nat) : (s.attach i).blind = s.blind.attach i := s.blind_setRx i _
theorem State.blind_detach (s : State) (i : Nat) : (s.detach i).blind = s.blind.detach i := s.blind_setRx i _
theorem State.blind_sampleInputs (s : State) : s.sampleInputs.blind = s.blind.sampleInputs := rfl
theorem State.blind_latchEdge (s : State) (x : Slot) : (s.latchEdge x).blind = s.blind.latchEdge x.blind := by
  unfold State.latchEdge
  split
  · next h => exact (if_pos h).symm
  · next h => exact (if_neg h).symm
theorem State.blind_detectEdges (s : State) : s.detectEdges.blind = s.blind.detectEdges := by
  simp only [State.blind, State.detectEdges, List.map_map]
  congr 1
  exact List.map_congr_left fun x _ => s.blind_latchEdge x
theorem State.blind_recordSample (s : State) : s.recordSample.blind = s.blind.recordSample := by
  simp only [State.recordSample, State.inst_blind]; rfl
theorem State.blind_endRun (s : State) : s.endRun.blind = s.blind.endRun :=
  congrArg (fun u : State => { u with isr := { s.isr with busy := false } }) (s.blind_attach s.isr.inst)
theorem State.blind_startRun (s : State) (i : Nat) : (s.startRun i).blind = s.blind.startRun i :=
  congrArg (fun u : State => { u with isr := (s.startRun i).isr }) (s.blind_detach i)
theorem State.blind_clearPending (s : State) : s.clearPending.blind = s.blind.clearPending := by
  simp [State.blind, State.clearPending, Slot.blind]
theorem State.blind_serve (s : State) (i : Nat) : (s.serve i).blind = s.blind.serve i := by
  simp only [State.serve, apply_ite State.blind, State.blind_clearPending, State.blind_startRun]
  rfl
theorem State.blind_beginPut (s : State) (i : Nat) (b : Byte) (bs : List Byte) :
    (s.beginPut i b bs).blind = s.blind.beginPut i b bs := by
  simp only [State.beginPut, State.inst_blind]; rfl
theorem State.blind_txWrite (s : State) : s.txWrite.blind = s.blind.txWrite := by
  simp only [State.txWrite, State.inst_blind, State.tx_blind]; rfl
theorem State.blind_txFinish (s : State) (v : RespWord) : (s.txFinish v).blind = s.blind.txFinish v := rfl
theorem State.blind_txWrites (n : Nat) (s : State) : (State.txWrites n s).blind = State.txWrites n s.blind := by
  induction n generalizing s with
  | zero => rfl
  | succ n ih => simp only [State.txWrites, apply_ite State.blind, ih, State.blind_txWrite, State.writeDue_blind]
theorem State.blind_txAdvance (rest : List Byte) (s : State) : (s.txAdvance rest).blind = s.blind.txAdvance rest := by
  induction rest generalizing s with
  | nil =>
    simp only [State.txAdvance_nil, apply_ite State.blind, State.blind_txFinish, ← State.blind_txWrites,
      State.putReturns_blind]
  | cons b bs ih =>
    simp only [State.txAdvance_cons, apply_ite State.blind, ih, State.blind_txFinish, State.blind_beginPut,
      ← State.blind_txWrites, State.putReturns_blind, State.isActive_blind, State.tx_blind]
theorem State.blind_transmitStep (s : State) : s.transmitStep.blind = s.blind.transmitStep := by
  simp only [State.transmitStep, apply_ite State.blind, State.blind_txAdvance]
  rfl
theorem State.blind_respond (s : State) (v : RespWord) : (s.respond v).blind = s.blind.respond v := rfl
theorem State.blind_takeWords (s : State) (n : Nat) : (s.takeWords n).blind = s.blind.takeWords n := rfl
theorem State.blind_closeSuccess (s : State) (i : Nat) : (s.closeSuccess i).blind = s.blind.closeSuccess i := by
  simp only [State.closeSuccess, State.blind_setInst, ← State.blind_detach, State.inst_blind]
theorem State.blind_closePrior (s : State) (i : Nat) : (s.closePrior i).blind = s.blind.closePrior i := by
  simp only [State.closePrior, apply_ite State.blind, State.isActive_blind, State.blind_setInst, ← State.blind_detach,
    State.inst_blind]
theorem State.blind_activate (s : State) (i : Nat) (baud : Baud) :
    (s.activate i baud).blind = s.blind.activate i baud := by
  simp only [State.activate, State.blind_setInst, ← State.blind_attach, State.inst_blind]

end Sys2Proof.Machine
end

section
/-! SUPPORT. Two states that differ only in stale storage cells, through every part of a tick
(spec/20_memory.md R70). -/

namespace Sys2Proof.Machine

theorem Buffer.tail_appended_lt {cap : Nat} {b : Buffer} (v : Byte) (h : b.tail < cap) :
    (b.appended cap v).tail < cap := by
  unfold Buffer.appended
  split
  · exact h
  · exact nextPos_lt (Nat.zero_lt_of_lt h)

/-! ## The relation -/

/-- Both buffers hold the same bytes, and the indices of the first are in range. -/
structure SameWaiting (cap : Nat) (b c : Buffer) : Prop where
  contents : b.contents cap = c.contents cap
  head_lt : b.head < cap
  tail_lt : b.tail < cap

/-- Two states that differ at most in storage cells outside the occupied ranges, with every index in range. -/
structure Twins (s t : State) : Prop where
  blind : s.blind = t.blind
  buffers : ∀ i, i < s.cfg.nInst → SameWaiting s.cfg.bufCap (s.buf i) (t.buf i)

section

variable {s t : State} (h : Twins s t)
include h

/-- What does not read the storage is the same in both. -/
theorem Twins.eq_of_blind {α : Type} {g : State → α} (hg : ∀ u : State, g u.blind = g u) : g t = g s := by
  rw [← hg t, ← h.blind, hg s]

theorem Twins.cfg : t.cfg = s.cfg := h.eq_of_blind State.cfg_blind
theorem Twins.isr : t.isr = s.isr := h.eq_of_blind State.isr_blind
theorem Twins.tx : t.tx = s.tx := h.eq_of_blind State.tx_blind
theorem Twins.port : t.port = s.port := h.eq_of_blind State.port_blind
theorem Twins.slots_length : t.slots.length = s.slots.length :=
  h.eq_of_blind (g := (·.slots.length)) State.slots_length_blind
theorem Twins.head (i : Nat) : (t.buf i).head = (s.buf i).head :=
  h.eq_of_blind (g := fun u => (u.buf i).head) (fun u => by rw [State.buf_blind]; rfl)
theorem Twins.tail (i : Nat) : (t.buf i).tail = (s.buf i).tail :=
  h.eq_of_blind (g := fun u => (u.buf i).tail) (fun u => by rw [State.buf_blind]; rfl)
theorem Twins.overflowFlag (i : Nat) : (t.buf i).overflowFlag = (s.buf i).overflowFlag :=
  h.eq_of_blind (g := fun u => (u.buf i).overflowFlag) (fun u => by rw [State.buf_blind]; rfl)
theorem Twins.gate (idx : Index) : t.gate idx = s.gate idx :=
  h.eq_of_blind (g := (·.gate idx)) (·.isActive_blind idx.toNat)

theorem Twins.isEmpty (i : Nat) : (t.buf i).isEmpty = (s.buf i).isEmpty := by
  rw [Buffer.isEmpty, h.head, h.tail]; rfl
theorem Twins.isFull (i : Nat) : (t.buf i).isFull s.cfg.bufCap = (s.buf i).isFull s.cfg.bufCap := by
  rw [Buffer.isFull, h.head, h.tail]; rfl
theorem Twins.occupancy (i : Nat) : (t.buf i).occupancy t.cfg.bufCap = (s.buf i).occupancy s.cfg.bufCap := by
  rw [Buffer.occupancy, h.head, h.tail, h.cfg]; rfl

theorem Twins.sameButStale : sameButStale s t :=
  ⟨h.blind, fun i hi => by rw [h.cfg]; exact (h.buffers i hi).contents⟩

end

theorem sameButStale.twins {s t : State} (h : sameButStale s t) (hs : SoundState s) : Twins s t := by
  obtain ⟨hblind, hcontents⟩ := h
  refine ⟨hblind, fun i hi => ?_⟩
  have hcfg : t.cfg = s.cfg := congrArg (·.cfg) hblind.symm
  obtain ⟨hh, ht, -⟩ := hs.buffers_wf i hi
  exact ⟨by rw [hcontents i hi, hcfg], hh, ht⟩

/-- An action that reads no storage and writes no buffer. -/
structure KeepsBuffers (f : State → State) : Prop where
  blind : ∀ u, (f u).blind = f u.blind
  cfg : ∀ u, (f u).cfg = u.cfg
  buf : ∀ u i, (f u).buf i = u.buf i

theorem Twins.map {s t : State} {f : State → State} (h : Twins s t) (k : KeepsBuffers f) : Twins (f s) (f t) where
  blind := by rw [k.blind, k.blind, h.blind]
  buffers := by simpa only [k.cfg, k.buf] using h.buffers

/-- One buffer written in both. -/
theorem Twins.setBuf {s t : State} {i : Nat} {v w : Buffer} (h : Twins s t) (hblind : v.blind = w.blind)
    (hv : i < s.cfg.nInst → SameWaiting s.cfg.bufCap v w) : Twins (s.setBuf i v) (t.setBuf i w) where
  blind := by rw [State.blind_setBuf, State.blind_setBuf, h.blind, hblind]
  buffers j hj := by
    rw [State.buf_setBuf, State.buf_setBuf, h.slots_length]
    split
    · next he => exact hv (he.1 ▸ hj)
    · exact h.buffers j hj

/-! ## Append, pop and the flag on both -/

theorem Twins.append {s t : State} (h : Twins s t) (i : Nat) (v : Byte) : Twins (s.append i v) (t.append i v) := by
  rw [State.append_eq_setBuf, State.append_eq_setBuf, h.cfg]
  refine h.setBuf ?_ fun hi => ?_
  · simp only [Buffer.appended, h.isFull]
    split <;> simp only [Buffer.blind, h.head, h.tail, h.overflowFlag]
  · obtain ⟨hcontents, hh, ht⟩ := h.buffers i hi
    have hc : ((s.buf i).appended s.cfg.bufCap v).contents s.cfg.bufCap =
        ((t.buf i).appended s.cfg.bufCap v).contents s.cfg.bufCap := by
      rw [Buffer.contents_appended v hh ht, Buffer.contents_appended v (h.head i ▸ hh) (h.tail i ▸ ht), h.isFull,
        hcontents]
    exact ⟨hc, (Buffer.head_appended _ _ v).symm ▸ hh, Buffer.tail_appended_lt v ht⟩

/-- The byte read is one that waits, so it is the same in both (R67). -/
theorem Twins.pop {s t : State} (h : Twins s t) {i : Nat} (hi : i < s.cfg.nInst) (he : (s.buf i).isEmpty = false) :
    Twins (s.popAdvance i) (t.popAdvance i) ∧ t.popByte i = s.popByte i := by
  obtain ⟨hcons, hh, ht⟩ := h.buffers i hi
  rw [Buffer.contents_eq_cons hh ht he,
    Buffer.contents_eq_cons (h.head i ▸ hh) (h.tail i ▸ ht) ((h.isEmpty i).trans he)] at hcons
  obtain ⟨hbyte, hrest⟩ := List.cons.inj hcons
  refine ⟨?_, hbyte.symm⟩
  rw [State.popAdvance, State.popAdvance, h.cfg]
  refine h.setBuf ?_ fun _ => ⟨hrest, nextPos_lt (Nat.zero_lt_of_lt hh), ht⟩
  simp only [Buffer.blind, h.head, h.tail, h.overflowFlag]

theorem Twins.clearOverflow {s t : State} (h : Twins s t) (i : Nat) :
    Twins (s.clearOverflow i) (t.clearOverflow i) := by
  refine h.setBuf ?_ fun hi => ⟨(h.buffers i hi).contents, (h.buffers i hi).head_lt, (h.buffers i hi).tail_lt⟩
  simp only [Buffer.blind, h.head, h.tail]

/-! ## Actions that write no buffer, and OPEN -/

theorem State.buf_closePrior (s : State) (i j : Nat) : (s.closePrior i).buf j = s.buf j := by
  unfold State.closePrior
  split
  · simp
  · rfl

theorem keepsBuffers_sampleInputs : KeepsBuffers State.sampleInputs :=
  ⟨State.blind_sampleInputs, State.cfg_sampleInputs, State.buf_sampleInputs⟩
theorem keepsBuffers_detectEdges : KeepsBuffers State.detectEdges :=
  ⟨State.blind_detectEdges, fun u => u.detectEdges_frame.cfg, State.buf_detectEdges⟩
theorem keepsBuffers_recordSample : KeepsBuffers State.recordSample :=
  ⟨State.blind_recordSample, fun _ => rfl, fun _ _ => rfl⟩
theorem keepsBuffers_endRun : KeepsBuffers State.endRun :=
  ⟨State.blind_endRun, State.cfg_endRun, fun u i => u.buf_attach u.isr.inst i⟩
theorem keepsBuffers_serve (i : Nat) : KeepsBuffers (·.serve i) :=
  ⟨(State.blind_serve · i), fun u => (u.serve_frame i).cfg, fun u => u.buf_serve i⟩
theorem keepsBuffers_transmitStep : KeepsBuffers State.transmitStep :=
  ⟨State.blind_transmitStep, fun u => u.transmitStep_frame.cfg, fun u => u.transmitStep_frame.buf⟩
theorem keepsBuffers_takeWords (n : Nat) : KeepsBuffers (·.takeWords n) :=
  ⟨(State.blind_takeWords · n), fun _ => rfl, fun _ _ => rfl⟩
theorem keepsBuffers_respond (v : RespWord) : KeepsBuffers (·.respond v) :=
  ⟨(State.blind_respond · v), fun _ => rfl, fun _ _ => rfl⟩
theorem keepsBuffers_beginPut (i : Nat) (b : Byte) (bs : List Byte) : KeepsBuffers (·.beginPut i b bs) :=
  ⟨(State.blind_beginPut · i b bs), fun _ => rfl, fun _ _ => rfl⟩
theorem keepsBuffers_txAdvance (rest : List Byte) : KeepsBuffers (·.txAdvance rest) :=
  ⟨State.blind_txAdvance rest, fun u => (State.txAdvance_frame rest u).cfg, fun u =>
    (State.txAdvance_frame rest u).buf⟩
theorem keepsBuffers_closeSuccess (i : Nat) : KeepsBuffers (·.closeSuccess i) :=
  ⟨(State.blind_closeSuccess · i), fun _ => rfl, fun u j => by simp [State.closeSuccess]⟩

theorem keepsBuffers_setInst (i : Nat) (g : Inst → Inst) : KeepsBuffers (fun u => u.setInst i (g (u.inst i))) :=
  ⟨fun u => by rw [State.blind_setInst, State.inst_blind], fun _ => rfl, fun u j => u.buf_setInst i j _⟩
theorem keepsBuffers_closePrior (i : Nat) : KeepsBuffers (·.closePrior i) :=
  ⟨(State.blind_closePrior · i), fun u => (u.closePrior_frame i).cfg, fun u => u.buf_closePrior i⟩
theorem keepsBuffers_configurePins (rx tx : Pin) : KeepsBuffers (·.configurePins rx tx) :=
  ⟨fun _ => rfl, fun _ => rfl, fun _ _ => rfl⟩
theorem keepsBuffers_activate (i : Nat) (baud : Baud) : KeepsBuffers (·.activate i baud) :=
  ⟨(State.blind_activate · i baud), fun _ => rfl, fun u j => by simp [State.activate]⟩

/-- OPEN empties the buffer in both, so that no cell stays occupied (R158). -/
theorem Twins.openSuccess {s t : State} (h : Twins s t) {i : Nat} (baud : Baud) (rx tx : Pin) :
    Twins (s.openSuccess i baud rx tx) (t.openSuccess i baud rx tx) := by
  have hregs := (h.map (keepsBuffers_closePrior i)).map
    (keepsBuffers_setInst i fun x => { x with rxPin := rx, txPin := tx, bitPeriod := bitPeriodReg baud })
  have hconfigured : Twins ((s.closePrior i).configure i baud rx tx) ((t.closePrior i).configure i baud rx tx) := by
    refine hregs.setBuf rfl fun hi => ?_
    have hpos := Nat.zero_lt_of_lt (hregs.buffers i hi).head_lt
    exact ⟨(Buffer.contents_eq_nil hpos hpos rfl).trans (Buffer.contents_eq_nil hpos hpos rfl).symm, hpos, hpos⟩
  exact (hconfigured.map (keepsBuffers_configurePins rx tx)).map (keepsBuffers_activate i baud)

/-! ## The interrupt part on both -/

theorem Twins.takeSample {s t : State} (h : Twins s t) : Twins s.takeSample t.takeSample := by
  have hr := h.map keepsBuffers_recordSample
  unfold State.takeSample
  dsimp only
  rw [hr.isr]
  split
  · exact hr.append _ _
  · exact hr

theorem Twins.takeSamples {s t : State} (h : Twins s t) (n : Nat) :
    Twins (State.takeSamples n s) (State.takeSamples n t) := by
  induction n generalizing s t with
  | zero => exact h
  | succ n ih =>
    rw [State.takeSamples, State.takeSamples, h.eq_of_blind State.sampleDue_blind]
    split
    · exact ih h.takeSample
    · exact h

theorem Twins.advanceRun {s t : State} (h : Twins s t) : Twins s.advanceRun t.advanceRun := by
  have hs := h.takeSamples 8
  unfold State.advanceRun
  dsimp only
  rw [hs.eq_of_blind State.endDue_blind]
  split
  · exact hs.map keepsBuffers_endRun
  · exact hs

theorem Twins.startRuns {s t : State} (h : Twins s t) (n : Nat) :
    Twins (State.startRuns n s) (State.startRuns n t) := by
  induction n generalizing s t with
  | zero => exact h
  | succ n ih =>
    rw [State.startRuns, State.startRuns, h.isr, h.eq_of_blind State.nextPending_blind]
    split
    · exact h
    · split
      · exact h
      · exact ih (h.map (keepsBuffers_serve _)).advanceRun

theorem Twins.interruptPart {s t : State} (h : Twins s t) : Twins s.interruptPart t.interruptPart := by
  have hd := (h.map keepsBuffers_sampleInputs).map keepsBuffers_detectEdges
  rw [State.interruptPart, State.interruptStep, State.interruptPart, State.interruptStep, hd.cfg]
  exact hd.advanceRun.startRuns _

/-! ## The tick on both -/

/-- The same stop, or next states that differ at most in stale cells. -/
inductive TwinOutcomes : Host.Outcome State Fault Refusal → Host.Outcome State Fault Refusal → Prop where
  | next {s t : State} (h : Twins s t) : TwinOutcomes (.next s) (.next t)
  | fault (r : Fault) : TwinOutcomes (.fault r) (.fault r)
  | refused (r : Refusal) : TwinOutcomes (.refused r) (.refused r)

theorem TwinOutcomes.of_next {s : State} {o : Host.Outcome State Fault Refusal} (h : TwinOutcomes (.next s) o) :
    ∃ t, o = .next t ∧ Twins s t := by
  cases h with
  | next h => exact ⟨_, rfl, h⟩

theorem TwinOutcomes.of_fault {r : Fault} {o : Host.Outcome State Fault Refusal} (h : TwinOutcomes (.fault r) o) :
    o = .fault r := by
  cases h
  rfl

theorem TwinOutcomes.andThen {o p : Host.Outcome State Fault Refusal} {f : State → Host.Outcome State Fault Refusal}
    (h : TwinOutcomes o p) (hf : ∀ {u v : State}, Twins u v → TwinOutcomes (f u) (f v)) :
    TwinOutcomes (andThen o f) (andThen p f) := by
  cases h with
  | next h => exact hf h
  | fault r => exact .fault r
  | refused r => exact .refused r

theorem Twins.outcomes_exec {s t : State} (h : Twins s t) (i : Instr) : TwinOutcomes (exec i s) (exec i t) := by
  have hrespond : ∀ {u v : State}, Twins u v → ∀ w, TwinOutcomes (.next (u.respond w)) (.next (v.respond w)) :=
    fun k w => .next (k.map (keepsBuffers_respond w))
  have hput : ∀ i b bs, TwinOutcomes (.next ((s.beginPut i b bs).txAdvance bs))
      (.next ((t.beginPut i b bs).txAdvance bs)) := fun i b bs =>
    .next ((h.map (keepsBuffers_beginPut i b bs)).map (keepsBuffers_txAdvance bs))
  cases i with
  | openInst idx baud rx tx =>
    simp only [exec, execOpen]
    rw [h.eq_of_blind (g := fun u => u.openFails idx baud rx tx) (State.openFails_blind · idx baud rx tx),
      h.eq_of_blind (g := fun u => u.receivingFor idx) (fun _ => rfl)]
    split
    · exact hrespond h _
    · split
      · exact .fault _
      · exact hrespond (h.openSuccess baud rx tx) _
  | closeInst idx =>
    simp only [exec, execClose]
    rw [h.eq_of_blind (g := fun u => u.indexInRange idx) (fun _ => rfl),
      h.eq_of_blind (g := fun u => u.receivingFor idx) (fun _ => rfl)]
    split
    · exact hrespond h _
    · split
      · exact .fault _
      · exact hrespond (h.map (keepsBuffers_closeSuccess _)) _
  | isActive idx =>
    simp only [exec, execIsActive]
    rw [h.gate]
    exact hrespond h _
  | put idx b =>
    simp only [exec, execPut]
    rw [h.gate]
    split
    · exact hput _ b []
    · exact hrespond h _
  | puts idx text =>
    simp only [exec, execPuts]
    rw [h.gate]
    split
    · cases text with
      | nil => exact hrespond h _
      | cons b bs => exact hput _ b bs
    · exact hrespond h _
  | avail idx =>
    simp only [exec, execAvail]
    rw [h.gate, h.occupancy]
    split <;> exact hrespond h _
  | read idx =>
    simp only [exec, execRead]
    rw [h.gate, h.isEmpty]
    split
    · exact hrespond h _
    · split
      · exact hrespond h _
      · next hg he =>
        have hi := ((s.gate_iff idx).mp (by simpa using hg)).1
        obtain ⟨hpop, hbyte⟩ := h.pop hi (by simpa using he)
        rw [hbyte]
        exact hrespond hpop _
  | ovf idx =>
    simp only [exec, execOvf]
    have hflag : t.overflowFlag idx.toNat = s.overflowFlag idx.toNat := h.overflowFlag _
    rw [h.gate, hflag]
    split <;> exact hrespond h _
  | ovfclr idx =>
    simp only [exec, execOvfclr]
    rw [h.gate]
    split
    · exact hrespond (h.clearOverflow _) _
    · exact hrespond h _

theorem Twins.outcomes_acceptLoop {s t : State} (h : Twins s t) (n : Nat) :
    TwinOutcomes (acceptLoop exec n s) (acceptLoop exec n t) := by
  induction n generalizing s t with
  | zero => exact .next h
  | succ n ih =>
    rw [acceptLoop, acceptLoop, h.tx, h.eq_of_blind (g := State.offered) (fun _ => rfl)]
    split
    · exact .next h
    · split
      · exact .next h
      · exact ih ((h.map (keepsBuffers_takeWords 1)).map (keepsBuffers_respond 0#32))
      · exact ((h.map (keepsBuffers_takeWords _)).outcomes_exec _).andThen fun hu => ih hu

theorem Twins.outcomes_step {s t : State} (h : Twins s t) : TwinOutcomes (step s) (step t) := by
  have hi := h.interruptPart
  have hheld : t.interruptPart.held = s.interruptPart.held := hi.eq_of_blind (g := State.held) (fun _ => rfl)
  cases hh : s.interruptPart.held with
  | true =>
    rw [step, tickWith, if_pos hh, step, tickWith, if_pos (hheld.trans hh)]
    exact .next hi
  | false =>
    have ha := hi.map keepsBuffers_transmitStep
    rw [step_of_not_held hh, step_of_not_held (hheld.trans hh), State.beforeAccept_of_not_held hh,
      State.beforeAccept_of_not_held (hheld.trans hh), acceptAll, acceptAll, ha.port]
    exact ha.outcomes_acceptLoop _

/-! ## The obligation on stale storage -/

/-- Settles O27: every part of a tick keeps the relation, and a fault of one is the fault of the other. -/
theorem staleStorageIsUnobservable : Obligations.StaleStorageIsUnobservable := by
  intro s t hs _ h
  have hstep := (h.twins hs).outcomes_step
  refine ⟨fun s' hs' => ?_, fun f hf => ?_⟩
  · rw [hs'] at hstep
    obtain ⟨t', ht', hn⟩ := hstep.of_next
    exact ⟨t', ht', hn.sameButStale⟩
  · rw [hf] at hstep
    exact hstep.of_fault

end Sys2Proof.Machine
end

section
/-! SUPPORT. A command word as its six fields, the rows of the opcode map as conditions on them, and the two round trips
of the command port (spec/30_encoding.md R91 to R97, R101). -/

namespace Sys2Proof

/-! ## Words by their fields (R91) -/

/-- Two words are equal when all their fields are. -/
theorem word_eq_iff_fields (w v : Word) :
    w = v ↔ fieldOp w = fieldOp v ∧ fieldZero w = fieldZero v ∧ fieldIdx w = fieldIdx v ∧ fieldRx w = fieldRx v ∧
      fieldTx w = fieldTx v ∧ fieldArg w = fieldArg v := by
  constructor
  · rintro rfl
    exact ⟨rfl, rfl, rfl, rfl, rfl, rfl⟩
  · rintro ⟨hop, hzero, hidx, hrx, htx, harg⟩
    have hw := w.isLt
    have hv := v.isLt
    simp only [fieldOp, fieldZero, fieldIdx, fieldRx, fieldTx, fieldArg, ← BitVec.toNat_inj, BitVec.extractLsb'_toNat,
      Nat.shiftRight_eq_div_pow] at hop hzero hidx hrx htx harg
    apply BitVec.eq_of_toNat_eq
    omega

section fields

variable (w v : Word)

theorem fieldOp_and : fieldOp (w &&& v) = fieldOp w &&& fieldOp v := BitVec.extractLsb'_and
theorem fieldZero_and : fieldZero (w &&& v) = fieldZero w &&& fieldZero v := BitVec.extractLsb'_and
theorem fieldIdx_and : fieldIdx (w &&& v) = fieldIdx w &&& fieldIdx v := BitVec.extractLsb'_and
theorem fieldRx_and : fieldRx (w &&& v) = fieldRx w &&& fieldRx v := BitVec.extractLsb'_and
theorem fieldTx_and : fieldTx (w &&& v) = fieldTx w &&& fieldTx v := BitVec.extractLsb'_and
theorem fieldArg_and : fieldArg (w &&& v) = fieldArg w &&& fieldArg v := BitVec.extractLsb'_and

end fields

/-! ## The `arg` field of a PUT (R91) -/

/-- An `arg` field is its upper 24 bits beside the data byte. -/
theorem arg_eq_append (a : BitVec 32) : a = a.extractLsb' 8 24 ++ a.extractLsb' 0 8 :=
  (BitVec.extractLsb'_append_extractLsb' (w := 24) (len := 8)).symm

theorem and_upperArgMask_eq_zero_iff (a : BitVec 32) : a &&& 0xFFFFFF00#32 = 0#32 ↔ a.extractLsb' 8 24 = 0#24 := by
  have hmask : a &&& 0xFFFFFF00#32 = a.extractLsb' 8 24 ++ 0#8 := by
    calc a &&& 0xFFFFFF00#32
        = (a.extractLsb' 8 24 ++ a.extractLsb' 0 8) &&& (BitVec.allOnes 24 ++ 0#8) := by rw [← arg_eq_append]; rfl
      _ = a.extractLsb' 8 24 ++ 0#8 := by rw [BitVec.and_append, BitVec.and_allOnes, BitVec.and_zero]
  rw [hmask]
  constructor
  · intro h
    rw [← BitVec.extractLsb'_append_eq_left (a := a.extractLsb' 8 24) (b := 0#8), h]
    rfl
  · intro h
    rw [h]
    rfl

/-- An `arg` field with its upper 24 bits clear is the data byte, zero-extended. -/
theorem setWidth_argByte {a : BitVec 32} (h : a.extractLsb' 8 24 = 0#24) : (a.extractLsb' 0 8).setWidth 32 = a := by
  conv_rhs => rw [arg_eq_append a, h]
  exact BitVec.setWidth_eq_append (by decide)

/-! ## The rows of the opcode map (R96) -/

section rows

variable (o : Op)

theorem fieldOp_opMask : fieldOp (opMask o) = BitVec.allOnes 4 := by cases o <;> rfl
theorem fieldZero_opMask : fieldZero (opMask o) = BitVec.allOnes 4 := by cases o <;> rfl
theorem fieldIdx_opMask : fieldIdx (opMask o) = 0#8 := by cases o <;> rfl
theorem fieldOp_opMatch : fieldOp (opMatch o) = opCode o := by cases o <;> rfl
theorem fieldZero_opMatch : fieldZero (opMatch o) = 0#4 := by cases o <;> rfl
theorem fieldIdx_opMatch : fieldIdx (opMatch o) = 0#8 := by cases o <;> rfl
theorem fieldRx_opMatch : fieldRx (opMatch o) = 0#8 := by cases o <;> rfl
theorem fieldTx_opMatch : fieldTx (opMatch o) = 0#8 := by cases o <;> rfl
theorem fieldArg_opMatch : fieldArg (opMatch o) = 0#32 := by cases o <;> rfl

end rows

/-- The masked operand fields are zero exactly when the fields R91 requires to be zero are. -/
theorem operandFieldsClear_iff_masked (o : Op) (w : Word) :
    operandFieldsClear o w = true ↔ fieldRx w &&& fieldRx (opMask o) = 0#8 ∧ fieldTx w &&& fieldTx (opMask o) = 0#8 ∧
      fieldArg w &&& fieldArg (opMask o) = 0#32 := by
  cases o
  case opn =>
    change true = true ↔ fieldRx w &&& 0#8 = 0#8 ∧ fieldTx w &&& 0#8 = 0#8 ∧ fieldArg w &&& 0#32 = 0#32
    simp
  case put =>
    change _ ↔ fieldRx w &&& BitVec.allOnes 8 = 0#8 ∧ fieldTx w &&& BitVec.allOnes 8 = 0#8 ∧
      fieldArg w &&& 0xFFFFFF00#32 = 0#32
    simp only [and_upperArgMask_eq_zero_iff, BitVec.and_allOnes]
    simp [operandFieldsClear, and_assoc]
  case puts =>
    change _ ↔ fieldRx w &&& BitVec.allOnes 8 = 0#8 ∧ fieldTx w &&& BitVec.allOnes 8 = 0#8 ∧
      fieldArg w &&& 0#32 = 0#32
    simp only [BitVec.and_allOnes]
    simp [operandFieldsClear]
  all_goals
    change _ ↔ fieldRx w &&& BitVec.allOnes 8 = 0#8 ∧ fieldTx w &&& BitVec.allOnes 8 = 0#8 ∧
      fieldArg w &&& BitVec.allOnes 32 = 0#32
    simp only [BitVec.and_allOnes]
    simp [operandFieldsClear, and_assoc]

/-- A row matches a word when its code is in the `op` field and the fields it requires to be zero are. -/
theorem and_opMask_eq_opMatch_iff (w : Word) (o : Op) :
    w &&& opMask o = opMatch o ↔ fieldOp w = opCode o ∧ fieldZero w = 0#4 ∧ operandFieldsClear o w = true := by
  rw [word_eq_iff_fields, fieldOp_and, fieldZero_and, fieldIdx_and, fieldRx_and, fieldTx_and, fieldArg_and,
    fieldOp_opMask, fieldZero_opMask, fieldIdx_opMask, fieldOp_opMatch, fieldZero_opMatch, fieldIdx_opMatch,
    fieldRx_opMatch, fieldTx_opMatch, fieldArg_opMatch, BitVec.and_allOnes, BitVec.and_allOnes,
    operandFieldsClear_iff_masked]
  simp

theorem decodeHeader_ok_iff_masked (w : Word) (o : Op) : decodeHeader w = .ok o ↔ w &&& opMask o = opMatch o :=
  (decodeHeader_ok_iff w o).trans (and_opMask_eq_opMatch_iff w o).symm

theorem decodeHeader_error_iff_masked (w : Word) :
    (∃ why, decodeHeader w = .error why) ↔ ∀ o : Op, w &&& opMask o ≠ opMatch o := by
  constructor
  · rintro ⟨why, h⟩ o ho
    rw [(decodeHeader_ok_iff_masked w o).mpr ho] at h
    cases h
  · intro h
    cases hd : decodeHeader w with
    | error why => exact ⟨why, rfl⟩
    | ok o => exact absurd ((decodeHeader_ok_iff_masked w o).mp hd) (h o)

/-! ## The decoder on a first word and the words after it (R95) -/

theorem decode_cons_of_header {w : Word} {o : Op} (h : decodeHeader w = .ok o) (ws : List Word) :
    decode (w :: ws) = decodeOperands o w ws := by
  simp only [decode, h]

theorem decode_cons_of_illegal {w : Word} {why : Illegal} (h : decodeHeader w = .error why) (ws : List Word) :
    decode (w :: ws) = .illegal why ws := by
  simp only [decode, h]

theorem decode_cons_op {w : Word} {ws rest : List Word} {i : Instr} (h : decode (w :: ws) = .op i rest) :
    ∃ o, decodeHeader w = .ok o ∧ decodeOperands o w ws = .op i rest := by
  cases hd : decodeHeader w with
  | error why => rw [decode_cons_of_illegal hd] at h; cases h
  | ok o => exact ⟨o, rfl, (decode_cons_of_header hd ws).symm.trans h⟩

/-! ## Decoding after encoding -/

theorem decodeHeader_encodeHeader (i : Instr) : decodeHeader (encodeHeader i) = .ok (opOf i) := by
  cases i with
  | openInst idx baud rx tx => exact Laws.HeaderDecodes.openInst idx baud rx tx
  | closeInst idx => exact Laws.HeaderDecodes.closeInst idx
  | isActive idx => exact Laws.HeaderDecodes.isActive idx
  | put idx byte => exact Laws.HeaderDecodes.put idx byte
  | puts idx text => exact Laws.HeaderDecodes.puts idx text
  | avail idx => exact Laws.HeaderDecodes.avail idx
  | read idx => exact Laws.HeaderDecodes.read idx
  | ovf idx => exact Laws.HeaderDecodes.ovf idx
  | ovfclr idx => exact Laws.HeaderDecodes.ovfclr idx

/-- Only the count of a PUTS can fail to fit its field. -/
theorem decodeOperands_encode {i : Instr} (h : i.wellFormed = true) (rest : List Word) :
    decodeOperands (opOf i) (encodeHeader i) (encodePayload i ++ rest) = .op i rest := by
  cases i
  case put idx byte =>
    have hbyte : (byte.setWidth 32).extractLsb' 0 8 = byte := by
      rw [BitVec.extractLsb'_setWidth_of_le (by decide), BitVec.extractLsb'_eq_self]
    simp [opOf, encodeHeader, encodePayload, decodeOperands, hbyte]
  case puts idx text =>
    have hlength : (BitVec.ofNat 32 text.length).toNat = text.length := by
      rw [BitVec.toNat_ofNat, Nat.mod_eq_of_lt (of_decide_eq_true h)]
    simp only [opOf, encodeHeader, encodePayload, decodeOperands, fieldArg_cmdWord, fieldIdx_cmdWord, hlength,
      takePayload_map]
  all_goals simp [opOf, encodeHeader, encodePayload, decodeOperands]

theorem decode_encode_append {i : Instr} (h : i.wellFormed = true) (rest : List Word) :
    decode (encode i ++ rest) = .op i rest :=
  (decode_cons_of_header (decodeHeader_encodeHeader i) _).trans (decodeOperands_encode h rest)

/-! ## Encoding after decoding -/

/-- The fields a legal header does not spell are zero, so its operands spell it. -/
theorem encodeHeader_of_decodeOperands {w : Word} {ws rest : List Word} {o : Op} {i : Instr}
    (hw : decodeHeader w = .ok o) (h : decodeOperands o w ws = .op i rest) : encodeHeader i = w := by
  obtain ⟨hop, hzero, hclear⟩ := (decodeHeader_ok_iff w o).mp hw
  have hfields : cmdWord (opCode o) (fieldIdx w) (fieldRx w) (fieldTx w) (fieldArg w) = w := by
    rw [← hop]
    exact cmdWord_fields hzero
  conv_rhs => rw [← hfields]
  cases o
  case opn => cases h; rfl
  case put =>
    cases h
    simp only [operandFieldsClear, Bool.and_eq_true, decide_eq_true_eq] at hclear
    obtain ⟨⟨hrx, htx⟩, harg⟩ := hclear
    rw [encodeHeader, setWidth_argByte harg, hrx, htx]
  case puts =>
    simp only [operandFieldsClear, Bool.and_eq_true, decide_eq_true_eq] at hclear
    obtain ⟨hrx, htx⟩ := hclear
    simp only [decodeOperands] at h
    split at h
    · cases h
    · next text _ hp =>
      cases h
      rw [encodeHeader, (takePayload_some hp).1, BitVec.ofNat_toNat, BitVec.setWidth_eq, hrx, htx]
  all_goals
    cases h
    simp only [operandFieldsClear, Bool.and_eq_true, decide_eq_true_eq] at hclear
    obtain ⟨⟨hrx, htx⟩, harg⟩ := hclear
    rw [encodeHeader, hrx, htx, harg]

theorem takePayload_text {n : Nat} {ws rest : List Word} {text : List Byte}
    (h : takePayload n ws = some (text, rest)) : text = (ws.take n).map payByte := by
  induction n generalizing ws text with
  | zero => cases h; rfl
  | succ n ih =>
    cases ws with
    | nil => cases h
    | cons w ws =>
      simp only [takePayload] at h
      split at h
      · cases h
      · next hp =>
        cases h
        rw [ih hp]
        rfl

/-- Only a PUTS has payload words, and it takes the low bytes of as many as its `arg` says (R92). -/
theorem encodePayload_of_decodeOperands {w : Word} {ws rest : List Word} {o : Op} {i : Instr}
    (h : decodeOperands o w ws = .op i rest) :
    encodePayload i = (ws.take (encodePayload i).length).map (fun v => (payByte v).setWidth 64) := by
  cases o
  case puts =>
    simp only [decodeOperands] at h
    split at h
    · cases h
    · next text _ hp =>
      cases h
      simp only [encodePayload, List.length_map, (takePayload_some hp).1]
      rw [takePayload_text hp, List.map_map]
      rfl
  all_goals
    cases h
    rfl

/-! ## The obligations on encodings -/

/-- Settles O1: the header decodes to its operation, and the operands come back from its fields and its payload. -/
theorem decodeAfterEncodeGivesInstruction : Obligations.DecodeAfterEncodeGivesInstruction :=
  fun _ rest h => decode_encode_append h rest

/-- Settles O2: what the decoder read spells the header again, and the words it took are the payload. -/
theorem decodedWordIsItsEncoding : Obligations.DecodedWordIsItsEncoding := by
  intro w ws rest i h
  obtain ⟨o, hw, ho⟩ := decode_cons_op h
  have hlength : wordLength i - 1 = (encodePayload i).length := Nat.add_sub_cancel_left 1 _
  have hrest : rest = ws.drop (encodePayload i).length := by
    rw [(decode_op_rest h).2, wordLength, Nat.add_comm, List.drop_succ_cons]
  rw [hlength]
  exact ⟨encodeHeader_of_decodeOperands hw ho, decode_op_wellFormed h, by rw [hrest, List.take_append_drop],
    encodePayload_of_decodeOperands ho⟩

/-- Settles O3: a row matches a word exactly when the decoder reads the row's operation from it. -/
theorem headerDecodesByMaskAndMatch : Obligations.HeaderDecodesByMaskAndMatch :=
  fun w => ⟨decodeHeader_ok_iff_masked w, decodeHeader_error_iff_masked w⟩

/-- The words of a well-formed operation, alone on the port, decode to it. -/
theorem encode_and_decode_of_encode {i : Instr} {ws : List Word} (h : i.wellFormed = true) (he : encode i = ws) :
    encode i = ws ∧ decode ws = .op i [] :=
  ⟨he, by rw [← he, ← List.append_nil (encode i)]; exact decode_encode_append h []⟩

/-- Settles O4: the words are computed from the operands, and decoding them is the round trip. -/
theorem workedEncodings : Obligations.WorkedEncodings :=
  ⟨encode_and_decode_of_encode rfl (by decide), encode_and_decode_of_encode rfl (by decide),
    encode_and_decode_of_encode rfl (by decide), encode_and_decode_of_encode rfl (by decide),
    encode_and_decode_of_encode rfl (by decide), encode_and_decode_of_encode rfl (by decide),
    encode_and_decode_of_encode rfl (by decide), encode_and_decode_of_encode rfl (by decide),
    encode_and_decode_of_encode rfl (by decide), rfl, rfl⟩

end Sys2Proof
end

section
/-! SUPPORT. The acceptances of a tick that run no operation, and the responses that an operation and a tick issue
(spec/30_encoding.md R90, R93, R97, R102; spec/60_exceptions.md R292). -/

namespace Sys2Proof.Machine

/-! ## Acceptances that run no operation -/

theorem acceptAll_of_busy {s : State} (h : s.tx.busy = true) : acceptAll exec s = .next s := by
  unfold acceptAll
  cases s.port.length with
  | zero => rfl
  | succ n => simp [acceptLoop, h]

/-- An illegal word is rejected alone, then the port is looked at again (R95, R97). -/
theorem acceptAll_of_illegal {s : State} {why : Illegal} {rest : List Word} (hb : s.tx.busy = false)
    (hd : decode s.offered = .illegal why rest) : acceptAll exec s = acceptAll exec s.rejectWord := by
  have hport : s.port ≠ [] := by
    intro hp
    simp [State.offered, hp, decode] at hd
  obtain ⟨n, hn⟩ := Nat.exists_eq_succ_of_ne_zero (List.length_pos_iff.mpr hport).ne'
  have hloop : acceptAll exec s = acceptLoop exec n s.rejectWord := by
    simp [acceptAll, hn, acceptLoop, hb, hd]
  have hleft : s.rejectWord.port.length = n := by
    rw [State.rejectWord, State.port_respond, State.port_takeWords, List.length_drop, hn]
    exact Nat.add_sub_cancel n 1
  rw [hloop]
  exact acceptLoop_fuel n _ hleft.le

/-- Settles O5: no row matches the word, so it is rejected. -/
theorem illegalWordAnswersZero : Obligations.IllegalWordAnswersZero := by
  intro s w ws hb ho hw
  obtain ⟨why, hwhy⟩ := (decodeHeader_error_iff_masked w).mpr hw
  exact acceptAll_of_illegal hb (by rw [ho]; exact decode_cons_of_illegal hwhy ws)

/-! ## The responses of an operation -/

/-- Settles O8: five of the six meanings end with their response, and PUT and PUTS with a tick of the transmit
sequencer. -/
theorem operationIssuesOneResponse : Obligations.OperationIssuesOneResponse := by
  intro i s t hb h
  rcases exec_cases h with ⟨v, rfl⟩ | ⟨idx, baud, rx, tx, -, -, -, rfl⟩ | ⟨idx, -, -, -, rfl⟩ |
    ⟨idx, b, bs, hi, -, rfl⟩ | ⟨idx, -, -, -, rfl⟩ | ⟨idx, -, -, rfl⟩
  · exact .inl ⟨hb, v, rfl⟩
  · exact .inl ⟨by simpa using hb, 1#32, by simp [(s.openSuccess_frame _ _ _ _).now]⟩
  · exact .inl ⟨hb, 1#32, rfl⟩
  · have hput : (∃ idx b, i = .put idx b) ∨ ∃ idx text, i = .puts idx text := by
      rcases hi with ⟨hi, -⟩ | hi
      · exact .inl ⟨idx, b, hi⟩
      · exact .inr ⟨idx, b :: bs, hi⟩
    rcases State.txAdvance_responses bs (s.beginPut idx.toNat b bs) rfl with ⟨hbusy, hr⟩ | ⟨hidle, hr⟩
    · exact .inr ⟨hbusy, hr, hput⟩
    · exact .inl ⟨hidle, hr⟩
  · exact .inl ⟨hb, _, rfl⟩
  · exact .inl ⟨hb, 1#32, rfl⟩

theorem responses_isPrefix_exec {i : Instr} {s t : State} (hb : s.tx.busy = false) (h : exec i s = .next t) :
    s.responses <+: t.responses := by
  rcases operationIssuesOneResponse i s t hb h with ⟨-, v, hr⟩ | ⟨-, hr, -⟩
  · exact hr ▸ List.prefix_append _ _
  · exact hr ▸ List.prefix_rfl

/-- The acceptances of a tick only add responses behind those issued. -/
theorem responses_isPrefix_acceptAll {s t : State} (h : acceptAll exec s = .next t) : s.responses <+: t.responses :=
  acceptLoop_induct (P := fun u => s.responses <+: u.responses)
    (fun _ hu _ => hu.trans (List.prefix_append _ _))
    (fun u i _ _ hu hb _ he => hu.trans (responses_isPrefix_exec (s := u.takeWords (wordLength i)) hb he))
    _ s t List.prefix_rfl h

/-! ## A tick that leaves an operation in progress -/

/-- A transmit step that leaves the transmitter busy has answered nothing. -/
theorem State.responses_transmitStep_of_busy {s : State} (h : s.transmitStep.tx.busy = true) :
    s.transmitStep.responses = s.responses := by
  by_cases hb : s.tx.busy = true
  · have hstep : s.transmitStep = s.txAdvance s.tx.rest := if_pos hb
    rw [hstep] at h ⊢
    rcases State.txAdvance_responses s.tx.rest s hb with ⟨-, hr⟩ | ⟨hidle, -⟩
    · exact hr
    · rw [hidle] at h; cases h
  · rw [State.transmitStep_of_idle (by simpa using hb)]

/-- Settles O57: held up or not, the tick ends at `beforeAccept`, to which the interrupt part and the transmit step have
brought the port and the responses unchanged. -/
theorem busyTransmitterAcceptsNothing : Obligations.BusyTransmitterAcceptsNothing := by
  intro s hbusy
  by_cases hh : s.interruptPart.held = true
  · have hbefore : s.beforeAccept = s.interruptPart := if_pos hh
    rw [hbefore]
    exact ⟨if_pos hh, s.port_interruptPart, s.responses_interruptPart⟩
  · have hh : s.interruptPart.held = false := by simpa using hh
    rw [step_of_not_held hh, acceptAll_of_busy hbusy]
    rw [State.beforeAccept_of_not_held hh] at hbusy ⊢
    exact ⟨rfl, (State.transmitStep_frame _).port.trans s.port_interruptPart,
      (State.responses_transmitStep_of_busy hbusy).trans s.responses_interruptPart⟩

end Sys2Proof.Machine
end

section
/-! SUPPORT. The frame of one byte against the elapsed time: where the pin writes of a tick leave the pin and the frame
index, and the transmit step before and at the return (spec/30_encoding.md R110; spec/40_timing_calculator.md R138;
spec/43_transmit_engine.md R222 to R232). -/

namespace Sys2Proof.Machine

/-- The wire level of a bit-time, read from the frame of R110 written out. -/
theorem frameLevel_eq_getD (b : Byte) (j : Nat) :
    frameLevel b j =
      [false, b.getLsbD 0, b.getLsbD 1, b.getLsbD 2, b.getLsbD 3, b.getLsbD 4, b.getLsbD 5, b.getLsbD 6, b.getLsbD 7,
        true].getD j true := by
  match j with
  | 0 | 1 | 2 | 3 | 4 | 5 | 6 | 7 | 8 | 9 => rfl
  | k + 10 => rfl

/-! ## The pin writes of a tick -/

/-- `t` is `s` further along in the frame that `s` is sending: its frame index is not early, and the pin carries the
level of the index before it. -/
structure OnFrame (s t : State) : Prop where
  frame : TxFrame s t
  tx : t.tx = { s.tx with j := t.tx.j }
  index_pos : 1 ≤ t.tx.j
  index_le : t.tx.j ≤ 10
  not_early : s.tx.t0 + s.txPeriod * (t.tx.j - 1) ≤ s.now
  pin : t.pin (s.inst s.tx.inst).txPin =
    { s.pin (s.inst s.tx.inst).txPin with out := frameLevel s.tx.byte (t.tx.j - 1) }
  other_pins : ∀ p, p ≠ (s.inst s.tx.inst).txPin → t.pin p = s.pin p
  responses : t.responses = s.responses

theorem OnFrame.refl {s : State} (hpos : 1 ≤ s.tx.j) (hle : s.tx.j ≤ 10)
    (hearly : s.tx.t0 + s.txPeriod * (s.tx.j - 1) ≤ s.now)
    (hout : (s.pin (s.inst s.tx.inst).txPin).out = frameLevel s.tx.byte (s.tx.j - 1)) : OnFrame s s where
  frame := TxFrame.refl s
  tx := rfl
  index_pos := hpos
  index_le := hle
  not_early := hearly
  pin := by rw [← hout]
  other_pins _ _ := rfl
  responses := rfl

theorem OnFrame.txPeriod {s t : State} (h : OnFrame s t) : t.txPeriod = s.txPeriod := by
  rw [State.txPeriod, h.frame.bitPeriod, h.tx]
  rfl

theorem OnFrame.t0 {s t : State} (h : OnFrame s t) : t.tx.t0 = s.tx.t0 := by rw [h.tx]

theorem OnFrame.writeDue_iff {s t : State} (h : OnFrame s t) :
    t.writeDue = true ↔ t.tx.j ≤ 9 ∧ s.tx.t0 + s.txPeriod * t.tx.j ≤ s.now := by
  rw [State.writeDue_iff, h.txPeriod, h.t0, h.frame.now]

theorem OnFrame.putReturns_iff {s t : State} (h : OnFrame s t) :
    t.putReturns = true ↔ t.tx.j = 10 ∧ s.tx.t0 + s.txPeriod * (9 + s.cfg.settleBits) ≤ s.now := by
  simp [State.putReturns, deadlineMet, h.txPeriod, h.t0, h.frame.now, h.frame.cfg]

theorem OnFrame.txWrite {s t : State} (h : OnFrame s t) (hd : t.writeDue = true) : OnFrame s t.txWrite := by
  obtain ⟨hle, hdue⟩ := h.writeDue_iff.mp hd
  have hpin : ∀ p, t.txWrite.pin p =
      if p = (s.inst s.tx.inst).txPin then
        { t.pin (s.inst s.tx.inst).txPin with out := frameLevel s.tx.byte t.tx.j } else t.pin p := fun p => by
    rw [State.pin_congr t.pins_txWrite, State.pin_gpioSet, h.frame.inst, h.tx]
  constructor
  case frame => exact h.frame.trans t.txWrite_frame
  case tx => rw [State.tx_txWrite, h.tx]
  case index_pos => exact Nat.le_add_left 1 _
  case index_le => exact Nat.succ_le_succ hle
  case not_early => exact hdue
  case pin => rw [hpin, if_pos rfl, h.pin]; rfl
  case other_pins => exact fun p hp => by rw [hpin, if_neg hp, h.other_pins p hp]
  case responses => exact h.responses

theorem OnFrame.txWrites {s t : State} (h : OnFrame s t) (n : Nat) : OnFrame s (State.txWrites n t) :=
  State.txWrites_induct (P := OnFrame s) (fun _ hu hd => hu.txWrite hd) n t h

/-- When no pin write is due, the frame index is the one after the bit-time the elapsed time falls in (R138). -/
theorem OnFrame.index_of_not_due {s t : State} (h : OnFrame s t) (hd : t.writeDue = false) (hp : 0 < s.txPeriod) :
    t.tx.j = min 9 ((s.now - s.tx.t0) / s.txPeriod) + 1 := by
  have hpos := h.index_pos
  have hle := h.index_le
  have hearly := h.not_early
  have hlow : t.tx.j - 1 ≤ (s.now - s.tx.t0) / s.txPeriod := by
    rw [Nat.le_div_iff_mul_le hp, Nat.mul_comm]
    omega
  by_cases hten : t.tx.j = 10
  · omega
  · have hlate : s.now < s.tx.t0 + s.txPeriod * t.tx.j := by
      by_contra hc
      have hdue := h.writeDue_iff.mpr ⟨by omega, by omega⟩
      rw [hd] at hdue
      cases hdue
    have hhigh : (s.now - s.tx.t0) / s.txPeriod < t.tx.j := by
      rw [Nat.div_lt_iff_lt_mul hp, Nat.mul_comm]
      omega
    omega

/-- The pin writes of a tick, from a position on the frame. -/
theorem OnFrame.after_txWrites {s : State} (h : OnFrame s s) (hp : 0 < s.txPeriod) :
    OnFrame s (State.txWrites 10 s) ∧
      (State.txWrites 10 s).tx.j = min 9 ((s.now - s.tx.t0) / s.txPeriod) + 1 :=
  ⟨h.txWrites 10, (h.txWrites 10).index_of_not_due (State.txWrites_done 10 s (Nat.le_add_left 10 _)) hp⟩

/-! ## The transmit step -/

theorem State.transmitStep_of_not_returning {s : State} (hb : s.tx.busy = true)
    (hr : (State.txWrites 10 s).putReturns = false) : s.transmitStep = State.txWrites 10 s := by
  rw [State.transmitStep, if_pos hb]
  cases s.tx.rest with
  | nil => simp [State.txAdvance_nil, hr]
  | cons b bs => simp [State.txAdvance_cons, hr]

/-- The last byte returns with response 1 (R226, R236). -/
theorem State.transmitStep_of_last_returning {s : State} (hb : s.tx.busy = true) (hrest : s.tx.rest = [])
    (hr : (State.txWrites 10 s).putReturns = true) :
    s.transmitStep = (State.txWrites 10 s).txFinish (respBool true) := by
  rw [State.transmitStep, if_pos hb, hrest, State.txAdvance_nil, if_pos hr]

/-- Settles O39: before the return the transmit step is the pin writes that are due. -/
theorem transmitPinFollowsElapsedTime : Obligations.TransmitPinFollowsElapsedTime := by
  intro s hb hp hpos hle hearly hout hnow
  obtain ⟨hw, hindex⟩ := (OnFrame.refl hpos hle hearly hout).after_txWrites hp
  have hr : (State.txWrites 10 s).putReturns = false := by
    by_contra hc
    have hdue := (hw.putReturns_iff.mp (by simpa using hc)).2
    omega
  rw [State.transmitStep_of_not_returning hb hr, ← frameLevel_eq_getD]
  refine ⟨by rw [hw.tx, hindex], ?_, hw.other_pins, hw.frame.slots, hw.responses, hw.frame.execFrame⟩
  rw [hw.pin, hindex, Nat.add_sub_cancel]

/-- A sound state in the middle of an operation is on its frame. -/
theorem SoundState.onFrame {s : State} (h : SoundState s) (hb : s.tx.busy = true) : OnFrame s s := by
  obtain ⟨hi, ha, hpos, hle, hearly⟩ := h.put_position hb
  refine OnFrame.refl hpos hle hearly ((h.tx_pin_output _ hi ha).2.2.trans ?_)
  simp [State.lineLevel, State.sending, hb]

/-- The tick in which the last byte of an operation returns answers 1 (R226, R236). -/
theorem SoundState.responses_transmitStep_of_return {s : State} (h : SoundState s) (hb : s.tx.busy = true)
    (hrest : s.tx.rest = []) (hp : 0 < s.txPeriod) (hnow : s.tx.t0 + s.txPeriod * (9 + s.cfg.settleBits) ≤ s.now) :
    s.transmitStep.responses = s.responses ++ [{ tick := s.now, word := 1#32 }] := by
  obtain ⟨hw, hindex⟩ := (h.onFrame hb).after_txWrites hp
  have hnine : 9 ≤ (s.now - s.tx.t0) / s.txPeriod := by
    rw [Nat.le_div_iff_mul_le hp, Nat.mul_comm]
    have := Nat.mul_add s.txPeriod 9 s.cfg.settleBits
    omega
  have hr := hw.putReturns_iff.mpr ⟨by rw [hindex, Nat.min_eq_left hnine], hnow⟩
  rw [State.transmitStep_of_last_returning hb hrest hr, State.responses_txFinish, hw.responses, hw.frame.now]
  rfl

end Sys2Proof.Machine
end

section
/-! SUPPORT. A PUT that no run of the receive sequencer can hold up, tick by tick from the tick it begins in to its
return (spec/43_transmit_engine.md R228, R229, R236). -/

namespace Sys2Proof.Machine

/-- A PUT begins in this tick, on a block without `SINGLE_CORE`. -/
structure PutBegins (s : State) : Prop where
  sound : SoundState s
  two_cores : s.cfg.singleCore = false
  busy : s.tx.busy = true
  began_now : s.tx.t0 = s.now
  index : s.tx.j = 1
  alone : s.tx.rest = []
  period_pos : 0 < s.txPeriod

/-- What `n` ticks make of a state in which a PUT begins, while the PUT is in progress. -/
structure SendingFor (s : State) (n : Nat) (u : State) : Prop where
  sound : SoundState u
  cfg : u.cfg = s.cfg
  now : u.now = s.now + n
  inst : u.inst s.tx.inst = s.inst s.tx.inst
  tx : u.tx = { s.tx with j := min 9 (n / s.txPeriod) + 1 }
  port : u.port = s.port
  responses : u.responses = s.responses

theorem State.held_of_two_cores {s : State} (h : s.cfg.singleCore = false) : s.held = false := by
  simp [State.held, h]

section ticks

variable {s u v : State} {n : Nat}

theorem SendingFor.out (h : SendingFor s n u) (hs : PutBegins s) :
    u.out (s.inst s.tx.inst).txPin = some (frameLevel s.tx.byte (min 9 (n / s.txPeriod))) := by
  have hbusy : u.tx.busy = true := by rw [h.tx]; exact hs.busy
  have hinst : u.tx.inst = s.tx.inst := by rw [h.tx]
  obtain ⟨hi, ha, -⟩ := h.sound.put_position hbusy
  obtain ⟨hdir, -⟩ := h.sound.tx_pin_output _ hi ha
  have hout := congrArg PinState.out (h.sound.onFrame hbusy).pin
  rw [hinst, h.inst] at hdir hout
  rw [State.out, if_pos hdir, hout, h.tx, Nat.add_sub_cancel]

/-- The state that the transmit step of the next tick starts from. -/
theorem SendingFor.before_transmit (h : SendingFor s n u) (hs : PutBegins s) :
    SoundState u.interruptPart ∧ u.interruptPart.tx.busy = true ∧ u.interruptPart.tx.t0 = s.now ∧
      u.interruptPart.tx.rest = [] ∧ u.interruptPart.txPeriod = s.txPeriod ∧ u.interruptPart.now = s.now + n + 1 ∧
      u.interruptPart.held = false := by
  have hperiod : u.interruptPart.txPeriod = s.txPeriod := by
    rw [State.txPeriod, State.txPeriod, State.tx_interruptPart, h.tx]
    exact State.bitPeriod_congr ((State.inst_interruptPart u _).trans h.inst)
  refine ⟨h.sound.interruptPart, ?_, ?_, ?_, hperiod, ?_, State.held_of_two_cores ?_⟩
  · rw [State.tx_interruptPart, h.tx]; exact hs.busy
  · rw [State.tx_interruptPart, h.tx]; exact hs.began_now
  · rw [State.tx_interruptPart, h.tx]; exact hs.alone
  · rw [State.now_interruptPart, h.now]
  · rw [State.cfg_interruptPart, h.cfg]; exact hs.two_cores

/-- A tick before the return moves the PUT along its frame and does nothing else that counts here. -/
theorem SendingFor.step (h : SendingFor s n u) (hs : PutBegins s)
    (hn : n + 1 < s.txPeriod * (9 + s.cfg.settleBits)) : ∃ v, step u = .next v ∧ SendingFor s (n + 1) v := by
  obtain ⟨hsound, hbusy, ht0, -, hperiod, hnow, hheld⟩ := h.before_transmit hs
  have hcfg : u.interruptPart.cfg = s.cfg := (State.cfg_interruptPart u).trans h.cfg
  have hf := hsound.onFrame hbusy
  have hout : (u.interruptPart.pin (u.interruptPart.inst u.interruptPart.tx.inst).txPin).out =
      frameLevel u.interruptPart.tx.byte (u.interruptPart.tx.j - 1) := congrArg PinState.out hf.pin
  obtain ⟨htx, -, -, hslots, -, hframe⟩ := transmitPinFollowsElapsedTime u.interruptPart hbusy
    (hperiod ▸ hs.period_pos) hf.index_pos hf.index_le hf.not_early hout (by rw [hnow, ht0, hperiod, hcfg]; omega)
  have hafter : u.beforeAccept.tx.busy = true := by
    rw [State.beforeAccept_of_not_held hheld, htx]
    exact hbusy
  obtain ⟨hstep, hport, hresp⟩ := busyTransmitterAcceptsNothing u hafter
  refine ⟨u.beforeAccept, hstep, ?_⟩
  constructor
  case sound => exact stepKeepsSoundStates u _ h.sound hstep
  case port => exact hport.trans h.port
  case responses => exact hresp.trans h.responses
  all_goals rw [State.beforeAccept_of_not_held hheld]
  case cfg => exact hframe.cfg.trans hcfg
  case now => exact hframe.now.trans hnow
  case inst => exact (State.inst_congr hslots _).trans ((State.inst_interruptPart u _).trans h.inst)
  case tx =>
    have helapsed : u.interruptPart.now - u.interruptPart.tx.t0 = n + 1 := by rw [hnow, ht0]; omega
    rw [htx, helapsed, hperiod, State.tx_interruptPart, h.tx]

/-- The tick of the return answers 1 before anything else it answers. -/
theorem SendingFor.step_returns (h : SendingFor s n u) (hs : PutBegins s)
    (hn : n + 1 = s.txPeriod * (9 + s.cfg.settleBits)) (hstep : Machine.step u = .next v) :
    s.responses ++ [{ tick := s.now + (n + 1), word := 1#32 }] <+: v.responses := by
  obtain ⟨hsound, hbusy, ht0, hrest, hperiod, hnow, hheld⟩ := h.before_transmit hs
  have hanswer := hsound.responses_transmitStep_of_return hbusy hrest (hperiod ▸ hs.period_pos)
    (by rw [hnow, ht0, hperiod, State.cfg_interruptPart, h.cfg]; omega)
  rw [step_of_not_held hheld, State.beforeAccept_of_not_held hheld] at hstep
  have hprefix := responses_isPrefix_acceptAll hstep
  rw [hanswer, State.responses_interruptPart, h.responses, hnow] at hprefix
  exact hprefix

theorem PutBegins.sendingFor_zero (hs : PutBegins s) : SendingFor s 0 s where
  sound := hs.sound
  cfg := rfl
  now := rfl
  inst := rfl
  tx := by rw [Nat.zero_div, Nat.min_zero, Nat.zero_add, ← hs.index]
  port := rfl
  responses := rfl

theorem PutBegins.ticks (hs : PutBegins s) (hn : n < s.txPeriod * (9 + s.cfg.settleBits)) :
    ∃ u, ticks n s = .next u ∧ SendingFor s n u := by
  induction n with
  | zero => exact ⟨s, rfl, hs.sendingFor_zero⟩
  | succ n ih =>
    obtain ⟨u, hu, h⟩ := ih (by omega)
    obtain ⟨v, hv, hnext⟩ := h.step hs hn
    exact ⟨v, by rw [ticks_last, hu, andThen_next, hv], hnext⟩

end ticks

/-- Settles O42: by induction the PUT stays on its frame to the tick before the return, and the next tick answers. -/
theorem undisturbedFrameOnTheWire : Obligations.UndisturbedFrameOnTheWire := by
  intro s hsound hcores hbusy ht0 hj hrest hp
  have hs : PutBegins s := ⟨hsound, hcores, hbusy, ht0, hj, hrest, hp⟩
  refine ⟨fun n hn => ?_, fun v hv => ?_⟩
  · obtain ⟨u, hu, h⟩ := hs.ticks hn
    exact ⟨u, hu, by rw [h.tx]; exact hbusy, h.port, h.responses, h.out hs⟩
  · obtain ⟨m, hm⟩ := Nat.exists_eq_succ_of_ne_zero
      (Nat.mul_pos hp (Nat.add_pos_left (by decide : 0 < 9) s.cfg.settleBits)).ne'
    obtain ⟨u, hu, h⟩ := hs.ticks (n := m) (by omega)
    rw [hm, ticks_last, hu, andThen_next] at hv
    obtain ⟨more, hmore⟩ := h.step_returns hs hm.symm hv
    exact ⟨more, by rw [hm, ← hmore, List.append_assoc]; rfl⟩

end Sys2Proof.Machine
end

section
/-! SUPPORT. The bit period of a rate, and a bit period of 0 in the transmit sequencer and in a run: every action of a
frame, and every sample of a run, is due in one tick (spec/40_timing_calculator.md R131, R132;
spec/42_receive_engine.md R186 to R198; spec/43_transmit_engine.md R222 to R235). -/

namespace Sys2Proof.Machine

/-! ## The rounding of the bit period (R131, R132) -/

theorem baud_toNat_pos {baud : Baud} (h : baud ≠ 0#32) : 0 < baud.toNat :=
  Nat.pos_of_ne_zero fun h0 => h (BitVec.eq_of_toNat_eq h0)

/-- A quotient of `2000000 + b` by `2 * b` is characterised by the two products around it: rounding to nearest. -/
theorem bitPeriodOf_eq_iff {baud : Baud} (h : baud ≠ 0#32) (q : Nat) :
    bitPeriodOf baud = q ↔
      2 * baud.toNat * q ≤ 2000000 + baud.toNat ∧ 2000000 + baud.toNat < 2 * baud.toNat * (q + 1) := by
  have hpos := baud_toNat_pos h
  rw [bitPeriodOf, Nat.div_eq_iff (by omega), Nat.mul_comm q, Nat.mul_succ]
  omega

/-- Settles O28: each clause compares the two products around the quotient with a number. -/
theorem bitPeriodRoundsToNearest : Obligations.BitPeriodRoundsToNearest := by
  refine ⟨fun baud h => ?_, by decide, by decide, by decide⟩
  obtain ⟨hlow, hhigh⟩ := (bitPeriodOf_eq_iff h _).mp rfl
  have hpos := baud_toNat_pos h
  refine ⟨hlow, hhigh, ?_, toNat_bitPeriodReg baud, ?_, ?_⟩
  · rw [bitPeriodOf]
    exact Nat.lt_succ_iff.mp ((Nat.div_lt_iff_lt_mul (by omega)).mpr (by omega))
  · rw [bitPeriodOf_eq_iff h]; omega
  · rw [bitPeriodOf_eq_iff h]; omega

/-! ## A frame with a bit period of 0 (R132, R228) -/

/-- A PUT that begins is on its frame. -/
theorem State.onFrame_beginPut (s : State) (i : Nat) (b : Byte) (rest : List Byte) :
    OnFrame (s.beginPut i b rest) (s.beginPut i b rest) :=
  OnFrame.refl (Nat.le_refl 1) (Nat.le_add_left 1 9) (Nat.le_refl _) (by
    rw [State.pin_congr (s.pins_beginPut i b rest)]
    change ((s.gpioSet (s.inst i).txPin false).pin (s.inst i).txPin).out = false
    rw [State.pin_gpioSet, if_pos rfl])

/-- With a bit period of 0 all pin writes of the frame fall in one tick, and the PUT returns in it. -/
theorem OnFrame.returns_of_zero_period {s : State} (h : OnFrame s s) (hp : s.txPeriod = 0) :
    (State.txWrites 10 s).tx.j = 10 ∧ (State.txWrites 10 s).putReturns = true := by
  have hw := h.txWrites 10
  have hearly := h.not_early
  have hle := hw.index_le
  have hdone := State.txWrites_done 10 s (Nat.le_add_left 10 _)
  rw [← Bool.not_eq_true, hw.writeDue_iff] at hdone
  rw [hp, Nat.zero_mul] at hearly hdone
  have hten : (State.txWrites 10 s).tx.j = 10 := by omega
  exact ⟨hten, hw.putReturns_iff.mpr ⟨hten, by rw [hp, Nat.zero_mul]; exact hearly⟩⟩

/-- From `s` to `t` an operation that drives pin `p` has completed with response 1, and the line is left high. -/
structure SentOn (p : Pin) (s t : State) : Prop where
  idle : t.tx.busy = false
  pin : t.pin p = { s.pin p with out := true }
  other_pins : ∀ q, q ≠ p → t.pin q = s.pin q
  responses : t.responses = s.responses ++ [{ tick := s.now, word := 1#32 }]

/-- What was driven on the same pin before, in the same tick, does not show afterwards. -/
theorem SentOn.of_driven {p : Pin} {s u t : State} {v : Level} (h : SentOn p u t) (hnow : u.now = s.now)
    (hpin : u.pin p = { s.pin p with out := v }) (hother : ∀ q, q ≠ p → u.pin q = s.pin q)
    (hresp : u.responses = s.responses) : SentOn p s t where
  idle := h.idle
  pin := by rw [h.pin, hpin]
  other_pins q hq := (h.other_pins q hq).trans (hother q hq)
  responses := by rw [h.responses, hresp, hnow]

theorem SentOn.of_beginPut {s t : State} {i : Nat} {b : Byte} {rest : List Byte}
    (h : SentOn (s.inst i).txPin (s.beginPut i b rest) t) : SentOn (s.inst i).txPin s t := by
  have hpins := State.pin_congr (s.pins_beginPut i b rest)
  refine h.of_driven (v := false) rfl ?_ (fun q hq => ?_) rfl
  · rw [hpins, State.pin_gpioSet, if_pos rfl]
  · rw [hpins, State.pin_gpioSet, if_neg hq]

theorem OnFrame.sentOn {s u t : State} (h : OnFrame s u) (k : SentOn (s.inst s.tx.inst).txPin u t) :
    SentOn (s.inst s.tx.inst).txPin s t :=
  k.of_driven h.frame.now h.pin h.other_pins h.responses

/-- With a bit period of 0 the byte in progress and all those after it are sent in one tick. -/
theorem OnFrame.sentOn_txAdvance (rest : List Byte) {s : State} (h : OnFrame s s) (hp : s.txPeriod = 0)
    (ha : s.isActive s.tx.inst = true) : SentOn (s.inst s.tx.inst).txPin s (s.txAdvance rest) := by
  induction rest generalizing s with
  | nil =>
    obtain ⟨hten, hr⟩ := h.returns_of_zero_period hp
    have hw := h.txWrites 10
    rw [State.txAdvance_nil, if_pos hr]
    refine ⟨rfl, ?_, hw.other_pins, ?_⟩
    · rw [State.pin_congr (State.pins_txFinish _ _), hw.pin, hten]; rfl
    · rw [State.responses_txFinish, hw.responses, hw.frame.now]; rfl
  | cons b bs ih =>
    obtain ⟨-, hr⟩ := h.returns_of_zero_period hp
    have hw := h.txWrites 10
    have hinst : (State.txWrites 10 s).tx.inst = s.tx.inst := by rw [hw.tx]
    have hactive : (State.txWrites 10 s).isActive s.tx.inst = true := (hw.frame.isActive _).trans ha
    rw [State.txAdvance_cons, if_pos hr, hinst, if_pos hactive]
    have hnext := (State.txWrites 10 s).beginPut_frame s.tx.inst b bs
    have hsent := ih (State.onFrame_beginPut (State.txWrites 10 s) s.tx.inst b bs)
      ((hnext.bitPeriod _).trans ((hw.frame.bitPeriod _).trans hp)) ((hnext.isActive _).trans hactive)
    have hpin : ((State.txWrites 10 s).inst s.tx.inst).txPin = (s.inst s.tx.inst).txPin := by rw [hw.frame.inst]
    exact hw.sentOn (hpin ▸ SentOn.of_beginPut hsent)

theorem exec_puts_nil {idx : Index} {s : State} (hg : s.gate idx = true) :
    exec (.puts idx []) s = .next (s.respond 1#32) := by
  simp [exec, execPuts, hg, respBool]

/-- PUT, and PUTS of at least one byte, begin their first byte and do what is due. -/
theorem exec_of_first_byte {idx : Index} {s : State} (hg : s.gate idx = true) {i : Instr} {b : Byte} {bs : List Byte}
    (h : i = .put idx b ∨ i = .puts idx (b :: bs)) :
    ∃ rest, exec i s = .next ((s.beginPut idx.toNat b rest).txAdvance rest) := by
  rcases h with rfl | rfl
  · exact ⟨[], by simp [exec, execPut, hg]⟩
  · exact ⟨bs, by simp [exec, execPuts, hg]⟩

/-- Settles O37, by induction over the bytes still to be sent. -/
theorem zeroPeriodSendsInOneTick : Obligations.ZeroPeriodSendsInOneTick := by
  refine fun idx s hg => ⟨exec_puts_nil hg, fun hp i b bs hi => ?_⟩
  obtain ⟨rest, he⟩ := exec_of_first_byte hg hi
  have hbegin := s.beginPut_frame idx.toNat b rest
  have hfirst : SentOn (s.inst idx.toNat).txPin (s.beginPut idx.toNat b rest) _ :=
    (s.onFrame_beginPut idx.toNat b rest).sentOn_txAdvance rest ((hbegin.bitPeriod _).trans hp)
      ((hbegin.isActive _).trans hg)
  have hsent := hfirst.of_beginPut
  exact ⟨_, he, hsent.idle, hsent.pin, hsent.other_pins, (hbegin.trans (State.txAdvance_frame rest _)).slots,
    hsent.responses, exec_frame he⟩

/-! ## A run with a bit period of 0 (R132, R186 to R198) -/

/-- Writing a bit of a byte leaves the others. -/
theorem getLsbD_setBit (b : Byte) (k : Nat) (v : Level) {n : Nat} (hn : n < 8) :
    (setBit b k v).getLsbD n = if n = k then v else b.getLsbD n := by
  have hbit : (1#8 <<< k).getLsbD n = decide (n = k) := by
    rw [BitVec.getLsbD_shiftLeft, BitVec.getLsbD_one, Bool.eq_iff_iff]
    simp only [Bool.and_eq_true, Bool.not_eq_true', decide_eq_true_iff, decide_eq_false_iff_not]
    omega
  cases v with
  | false =>
    rw [setBit, if_neg Bool.false_ne_true, BitVec.getLsbD_and, BitVec.getLsbD_not, hbit]
    by_cases h : n = k <;> simp [h, hn]
  | true =>
    rw [setBit, if_pos rfl, BitVec.getLsbD_or, hbit]
    by_cases h : n = k <;> simp [h]

/-- A byte with all its bits at one level. -/
theorem getLsbD_levelByte (v : Level) {n : Nat} (hn : n < 8) :
    (if v then 0xFF#8 else 0x00#8).getLsbD n = v := by
  cases v with
  | false => exact BitVec.getLsbD_zero
  | true => exact BitVec.getLsbD_allOnes.trans (decide_eq_true hn)

/-- With a bit period of 0 every sample is due when the centering delay is over (R187). -/
theorem sampleOffset_zero (c : Config) (k : Nat) : sampleOffset c 0 k = centeringDelay c 0 := rfl

/-- With a bit period of 0 the run ends when its centering delay is over (R190). -/
theorem windowLength_zero (c : Config) : windowLength c 0 = centeringDelay c 0 := rfl

/-- `u` is `s` with some more samples of its run taken, all of the level of the one tick, and the byte appended with the
eighth. -/
structure SampledInTick (s u : State) : Prop where
  isr : u.isr = { s.isr with k := u.isr.k, shift := u.isr.shift }
  index_ge : s.isr.k ≤ u.isr.k
  index_le : u.isr.k ≤ 8
  bits : ∀ n, n < u.isr.k → u.isr.shift.getLsbD n =
    if n < s.isr.k then s.isr.shift.getLsbD n else levelOf s.level (s.inst s.isr.inst).rxPin
  before_eighth : u.isr.k < 8 → u = { s with isr := u.isr }
  after_eighth : u.isr.k = 8 → u = State.append { s with isr := u.isr } s.isr.inst u.isr.shift

theorem SampledInTick.refl {s : State} (hk : s.isr.k < 8) : SampledInTick s s where
  isr := rfl
  index_ge := Nat.le_refl _
  index_le := Nat.le_of_lt hk
  bits _ hn := (if_pos hn).symm
  before_eighth _ := rfl
  after_eighth h := absurd h (Nat.ne_of_lt hk)

theorem SampledInTick.takeSample {s u : State} (h : SampledInTick s u) (hk : u.isr.k < 8) :
    SampledInTick s u.takeSample := by
  have hu := h.before_eighth hk
  have hinst : u.isr.inst = s.isr.inst := by rw [h.isr]
  have hge := h.index_ge
  have hstate : u.recordSample = { s with isr := u.recordSample.isr } := by
    rw [State.recordSample, hu]
  have hbit : u.recordSample.isr.shift =
      setBit u.isr.shift u.isr.k (levelOf s.level (s.inst s.isr.inst).rxPin) := by
    rw [State.recordSample, hinst, hu]; rfl
  have hisr : u.recordSample.isr =
      { s.isr with k := u.recordSample.isr.k, shift := u.recordSample.isr.shift } := by
    rw [State.recordSample, h.isr]
  constructor <;> rw [State.isr_takeSample]
  case isr => exact hisr
  case index_ge => exact Nat.le_succ_of_le hge
  case index_le => exact hk
  case bits =>
    intro n (hn : n < u.isr.k + 1)
    rw [hbit, getLsbD_setBit _ _ _ (by omega)]
    by_cases he : n = u.isr.k
    · rw [if_pos he, if_neg (by omega)]
    · rw [if_neg he, h.bits n (by omega)]
  case before_eighth =>
    intro (hlt : u.isr.k + 1 < 8)
    rcases u.takeSample_cases with ⟨he, -⟩ | ⟨-, e⟩
    · omega
    · exact e.trans hstate
  case after_eighth =>
    intro (he : u.isr.k + 1 = 8)
    rcases u.takeSample_cases with ⟨-, e⟩ | ⟨hne, -⟩
    · rw [e, hinst, ← hstate]
    · omega

/-- A run with a bit period of 0 whose centering delay is over takes all its samples, appends and ends. -/
theorem State.advanceRun_of_zero_period {s : State} (hb : s.isr.busy = true) (hk : s.isr.k < 8)
    (hp : s.runPeriod = 0) (hdue : s.isr.ts + centeringDelay s.cfg 0 ≤ s.now) :
    ∃ b : Byte,
      (∀ n, n < 8 → b.getLsbD n =
        if n < s.isr.k then s.isr.shift.getLsbD n else levelOf s.level (s.inst s.isr.inst).rxPin) ∧
      s.advanceRun =
        (State.append { s with isr := { s.isr with k := 8, shift := b } } s.isr.inst b).endRun := by
  have h : SampledInTick s (State.takeSamples 8 s) :=
    State.takeSamples_induct (fun u hu hd => hu.takeSample (u.sampleDue_iff.mp hd).2.1) 8 s (SampledInTick.refl hk)
  have f := State.takeSamples_frame 8 s
  have hisr := h.isr
  have hle := h.index_le
  generalize hu : State.takeSamples 8 s = u at h f hisr hle
  have hbusy : u.isr.busy = true := by rw [hisr]; exact hb
  have hperiod : u.runPeriod = 0 := by rw [State.runPeriod, f.bitPeriod, hisr]; exact hp
  have hdue' : u.isr.ts + centeringDelay u.cfg 0 ≤ u.now := by rw [hisr, f.cfg, f.now]; exact hdue
  have height : u.isr.k = 8 := by
    have hdone := State.takeSamples_done 8 s (Nat.le_add_left 8 _)
    rw [hu, ← Bool.not_eq_true, State.sampleDue_iff, hperiod, sampleOffset_zero] at hdone
    by_contra hne
    exact hdone ⟨hbusy, by omega, hdue'⟩
  have hend : u.endDue = true := by
    simp [State.endDue, hbusy, height, hperiod, windowLength_zero, hdue']
  refine ⟨u.isr.shift, fun n hn => h.bits n (by omega), ?_⟩
  have hstate := h.after_eighth height
  rw [height] at hisr
  rw [← hisr, ← hstate]
  simp [State.advanceRun, hu, hend]

/-- Settles O55: before the delay is over no sample is due, and after it the run ends in the one tick. -/
theorem zeroPeriodRunTakesOneTick : Obligations.ZeroPeriodRunTakesOneTick := by
  intro s hb hk hi hp
  refine ⟨fun hm => ?_, fun hnow => ?_, fun hdue => ?_⟩
  · rw [centeringDelay_of_fits (by simpa [Config.marginFits] using hm)]
    simp
  · have hnot : s.sampleDue = false := by
      rw [← Bool.not_eq_true, State.sampleDue_iff, hp, sampleOffset_zero]
      omega
    have hend : s.endDue = false := by simp [State.endDue, Nat.ne_of_lt hk]
    simp [State.advanceRun, State.takeSamples_of_not_due 8 s hnot, hend]
  · obtain ⟨b, hbits, hrun⟩ := State.advanceRun_of_zero_period hb hk hp hdue
    refine ⟨b, hbits, fun h0 => BitVec.eq_of_getLsbD_eq fun n hn => ?_, ?_, ?_, ?_, s.advanceRun_frame.inst,
      fun j hj => ?_, ?_⟩
    · rw [hbits n hn, if_neg (by omega), getLsbD_levelByte _ hn]
    all_goals rw [hrun]
    · rw [State.isr_endRun, State.isr_append]
    · rw [State.buf_endRun, State.buf_attach, State.buf_append, if_pos ⟨rfl, hi⟩]; rfl
    all_goals rw [State.append_eq_setBuf]
    · rw [State.rx_endRun, State.rx_attach, State.isr_setBuf, State.slots_length_setBuf, if_pos ⟨rfl, hi⟩]
    · exact (State.slot_setSlot_ne _ _ hj).trans (State.slot_setSlot_ne _ _ hj)
    · rfl

end Sys2Proof.Machine
end

section
/-! SUPPORT. What OPEN, CLOSE and ISACTIVE answer in each of their cases, what they leave behind, and the obligations on
them and on the gate (spec of the registry, R150 to R166; spec/60_exceptions.md R281). -/

namespace Sys2Proof.Machine

/-! ## The failures of OPEN (R154 to R157) -/

/-- The failures of OPEN with the conflict check in the words of R157. -/
theorem State.openFails_iff_pins (s : State) (idx : Index) (baud : Baud) (rx tx : Pin) :
    s.openFails idx baud rx tx = true ↔
      s.cfg.nInst ≤ idx.toNat ∨ baud = 0#32 ∨ rx = tx ∨
        ∃ j, j < s.cfg.nInst ∧ j ≠ idx.toNat ∧ (s.inst j).baudRate ≠ 0#32 ∧
          (rx = (s.inst j).rxPin ∨ rx = (s.inst j).txPin ∨ tx = (s.inst j).rxPin ∨ tx = (s.inst j).txPin) := by
  simp only [State.openFails_iff, State.pinConflict_iff, State.isActive_iff, State.sharesPin_iff]
  refine or_congr_right (or_congr_right (or_congr_right (exists_congr fun j => ?_)))
  tauto

/-- The failures of OPEN do not look at the slot it names. -/
theorem State.openFails_congr {s t : State} {idx : Index} (hc : t.cfg = s.cfg)
    (hi : ∀ j, j ≠ idx.toNat → t.inst j = s.inst j) (baud : Baud) (rx tx : Pin) :
    t.openFails idx baud rx tx = s.openFails idx baud rx tx := by
  have hother : ∀ j, (decide (j ≠ idx.toNat) && t.isActive j && t.sharesPin j rx tx) =
      (decide (j ≠ idx.toNat) && s.isActive j && s.sharesPin j rx tx) := fun j => by
    by_cases hj : j = idx.toNat
    · simp [hj]
    · rw [State.isActive_congr hc j (by rw [hi j hj]), State.sharesPin_congr (hi j hj)]
  simp only [State.openFails, State.pinConflict, State.indexInRange, hother, hc]

/-! ## The gate (R151) -/

@[simp] theorem State.gate_respond (s : State) (v : RespWord) (idx : Index) :
    (s.respond v).gate idx = s.gate idx := rfl

theorem State.gate_eq_false_iff (s : State) (idx : Index) :
    s.gate idx = false ↔ s.cfg.nInst ≤ idx.toNat ∨ (s.inst idx.toNat).baudRate = 0#32 := by
  rw [← Bool.not_eq_true, State.gate_iff, not_and_or, not_lt, not_not]

/-! ## What each operation answers -/

theorem exec_isActive {idx : Index} {s : State} {b : Bool} (h : s.gate idx = b) :
    exec (.isActive idx) s = .next (s.respond (respBool b)) := by
  rw [← h]; rfl

theorem exec_open_of_fails {idx : Index} {baud : Baud} {rx tx : Pin} {s : State}
    (h : s.openFails idx baud rx tx = true) : exec (.openInst idx baud rx tx) s = .next (s.respond 0#32) :=
  if_pos h

theorem exec_open_of_succeeds {idx : Index} {baud : Baud} {rx tx : Pin} {s : State}
    (h : s.openFails idx baud rx tx = false) (hr : s.receivingFor idx = false) :
    exec (.openInst idx baud rx tx) s = .next ((s.openSuccess idx.toNat baud rx tx).respond 1#32) := by
  simp [exec, execOpen, h, hr, respBool]

theorem exec_open_of_race {idx : Index} {baud : Baud} {rx tx : Pin} {s : State}
    (h : s.openFails idx baud rx tx = false) (hr : s.receivingFor idx = true) :
    exec (.openInst idx baud rx tx) s = .fault .registryRace := by
  simp [exec, execOpen, h, hr]

theorem exec_close_of_out_of_range {idx : Index} {s : State} (h : s.cfg.nInst ≤ idx.toNat) :
    exec (.closeInst idx) s = .next (s.respond 0#32) := by
  simp [exec, execClose, State.indexInRange, h, respBool]

theorem exec_close_of_in_range {idx : Index} {s : State} (h : idx.toNat < s.cfg.nInst)
    (hr : s.receivingFor idx = false) :
    exec (.closeInst idx) s = .next ((s.closeSuccess idx.toNat).respond 1#32) := by
  simp [exec, execClose, State.indexInRange, h, hr, respBool]

theorem exec_close_of_race {idx : Index} {s : State} (h : idx.toNat < s.cfg.nInst) (hr : s.receivingFor idx = true) :
    exec (.closeInst idx) s = .fault .registryRace := by
  simp [exec, execClose, State.indexInRange, h, hr]

/-! ## The slot and the rate after OPEN and CLOSE -/

section slot_after_open
variable {s : State} {i : Nat} (h : i < s.slots.length) (baud : Baud) (rx tx : Pin)
include h

theorem State.inst_openSuccess_self :
    (s.openSuccess i baud rx tx).inst i =
      { rxPin := rx, txPin := tx, baudRate := baud, bitPeriod := bitPeriodReg baud } := by
  rw [State.inst, s.slot_openSuccess_self i baud rx tx h]
theorem State.buf_openSuccess_self :
    (s.openSuccess i baud rx tx).buf i = { s.buf i with head := 0, tail := 0, overflowFlag := false } := by
  rw [State.buf, s.slot_openSuccess_self i baud rx tx h]
theorem State.rx_openSuccess_self :
    (s.openSuccess i baud rx tx).rx i = { attached := true, pend := false } := by
  rw [State.rx, s.slot_openSuccess_self i baud rx tx h]

end slot_after_open

section slot_after_close
variable {s : State} {i : Nat} (h : i < s.slots.length)
include h

theorem State.inst_closeSuccess_self : (s.closeSuccess i).inst i = { s.inst i with baudRate := 0#32 } := by
  rw [State.inst, s.slot_closeSuccess_self i h]
theorem State.buf_closeSuccess_self : (s.closeSuccess i).buf i = s.buf i := by
  rw [State.buf, s.slot_closeSuccess_self i h]
theorem State.rx_closeSuccess_self : (s.closeSuccess i).rx i = { attached := false, pend := false } := by
  rw [State.rx, s.slot_closeSuccess_self i h]

theorem State.isActive_closeSuccess_self : (s.closeSuccess i).isActive i = false := by
  simp [State.isActive, State.inst_closeSuccess_self h]

end slot_after_close

theorem State.gate_openSuccess_self {s : State} {idx : Index} {baud : Baud} {rx tx : Pin}
    (hl : s.slots.length = s.cfg.nInst) (hf : s.openFails idx baud rx tx = false) :
    (s.openSuccess idx.toNat baud rx tx).gate idx = true := by
  have hn := mt (s.openFails_iff idx baud rx tx).mpr (by simp [hf])
  simp only [not_or, Nat.not_le] at hn
  obtain ⟨hi, hbaud, -⟩ := hn
  rw [State.gate_iff, (s.openSuccess_frame _ _ _ _).cfg, State.inst_openSuccess_self (hl.symm ▸ hi)]
  exact ⟨hi, hbaud⟩

/-! ## CLOSE of an inactive index (R163) -/

/-- CLOSE of an index that is inactive and detached writes what the slot holds. -/
theorem State.closeSuccess_of_closed {s : State} {i : Nat} (hb : (s.inst i).baudRate = 0#32)
    (hr : s.rx i = { attached := false, pend := false }) : s.closeSuccess i = s := by
  have hdetach : s.detach i = s := by
    rw [State.detach, ← hr]
    exact s.setSlot_slot i
  have hinst : { s.inst i with baudRate := 0#32 } = s.inst i := by rw [← hb]
  rw [State.closeSuccess, hdetach]
  dsimp only
  rw [hinst]
  exact s.setSlot_slot i

/-- In a sound state an inactive index is detached, and no run is in progress for it. -/
theorem SoundState.closed_of_inactive {s : State} (h : SoundState s) {i : Nat} (hi : i < s.cfg.nInst)
    (ha : s.isActive i = false) :
    (s.inst i).baudRate = 0#32 ∧ s.rx i = { attached := false, pend := false } ∧ s.sampling i = false := by
  have hdetached : (s.rx i).attached = false := by rw [h.armed_iff i hi, ha]; rfl
  have hpend : (s.rx i).pend = false := by
    by_contra hp
    have hattached := h.pending_attached i hi (by simpa using hp)
    rw [hdetached] at hattached
    cases hattached
  refine ⟨?_, congrArg₂ RxControl.mk hdetached hpend, ?_⟩
  · simpa [State.isActive, hi] using ha
  · by_contra hs
    obtain ⟨hbusy, rfl⟩ : s.isr.busy = true ∧ s.isr.inst = i := by simpa [State.sampling] using hs
    obtain ⟨-, hactive, -⟩ := h.run_position hbusy
    rw [ha] at hactive
    cases hactive

/-! ## Re-opening (R160) -/

theorem State.closePrior_of_active {s : State} {i : Nat} (h : s.isActive i = true) :
    s.closePrior i = s.closeSuccess i := if_pos h

theorem State.closePrior_of_inactive {s : State} {i : Nat} (h : s.isActive i = false) : s.closePrior i = s := by
  simp [State.closePrior, h]

/-- OPEN of an active index is OPEN after its CLOSE. -/
theorem State.openSuccess_closeSuccess {s : State} {i : Nat} (hl : i < s.slots.length) (ha : s.isActive i = true)
    (baud : Baud) (rx tx : Pin) : (s.closeSuccess i).openSuccess i baud rx tx = s.openSuccess i baud rx tx := by
  rw [State.openSuccess, State.openSuccess, State.closePrior_of_active ha,
    State.closePrior_of_inactive (State.isActive_closeSuccess_self hl)]

/-! The writes of OPEN and CLOSE do not look at the responses. -/

theorem State.closeSuccess_respond (s : State) (v : RespWord) (i : Nat) :
    (s.respond v).closeSuccess i = (s.closeSuccess i).respond v := rfl
theorem State.closePrior_respond (s : State) (v : RespWord) (i : Nat) :
    (s.respond v).closePrior i = (s.closePrior i).respond v := by
  cases ha : s.isActive i with
  | true => rw [State.closePrior_of_active ha]; exact State.closePrior_of_active (s := s.respond v) ha
  | false => rw [State.closePrior_of_inactive ha]; exact State.closePrior_of_inactive (s := s.respond v) ha
theorem State.configure_respond (s : State) (v : RespWord) (i : Nat) (baud : Baud) (rx tx : Pin) :
    (s.respond v).configure i baud rx tx = (s.configure i baud rx tx).respond v := rfl
theorem State.configurePins_respond (s : State) (v : RespWord) (rx tx : Pin) :
    (s.respond v).configurePins rx tx = (s.configurePins rx tx).respond v := rfl
theorem State.activate_respond (s : State) (v : RespWord) (i : Nat) (baud : Baud) :
    (s.respond v).activate i baud = (s.activate i baud).respond v := rfl

theorem State.openSuccess_respond (s : State) (v : RespWord) (i : Nat) (baud : Baud) (rx tx : Pin) :
    (s.respond v).openSuccess i baud rx tx = (s.openSuccess i baud rx tx).respond v := by
  rw [State.openSuccess, State.openSuccess, State.closePrior_respond, State.configure_respond,
    State.configurePins_respond, State.activate_respond]

/-! ## The obligations on ISACTIVE, OPEN, CLOSE and the gate -/

/-- Settles O9: the answer is the gate, and OPEN and CLOSE leave the rate behind that it reads. -/
theorem isActiveReadsTheRate : Obligations.IsActiveReadsTheRate := by
  refine ⟨fun idx s => ?_, fun idx c => ?_, fun idx baud rx tx s t hl hf h => ?_, fun idx s t hl h => ?_⟩
  · have hanswer : respBool (s.gate idx) =
        if idx.toNat < s.cfg.nInst ∧ (s.inst idx.toNat).baudRate ≠ 0#32 then 1#32 else 0#32 := by
      simp only [respBool, State.gate_iff]
    rw [exec_isActive rfl, hanswer]
  · exact exec_isActive ((State.resetOf c).isActive_restart idx.toNat)
  · have hopen : t.gate idx = true := by
      rcases execOpen_cases h with ⟨hfails, -⟩ | ⟨-, -, rfl⟩
      · rw [hf] at hfails; cases hfails
      · rw [State.gate_respond, State.gate_openSuccess_self hl hf]
    exact exec_isActive hopen
  · have hclosed : t.gate idx = false := by
      rcases execClose_cases h with ⟨hrange, rfl⟩ | ⟨hrange, -, rfl⟩
      · rw [State.gate_respond, State.gate_eq_false_iff]
        exact .inl (by simpa [State.indexInRange] using hrange)
      · rw [State.gate_respond, State.gate, State.isActive_closeSuccess_self (hl.symm ▸ of_decide_eq_true hrange)]
    exact exec_isActive hclosed

/-- Settles O10: each of the four causes is one of `openFails`. -/
theorem openFailureWritesNothing : Obligations.OpenFailureWritesNothing :=
  fun idx baud rx tx s h => exec_open_of_fails ((s.openFails_iff_pins idx baud rx tx).mpr h)

/-- Settles O11: the slot and the pins that `openSuccess` leaves behind, and its frame. -/
theorem openSuccessConfiguresTheInstance : Obligations.OpenSuccessConfiguresTheInstance := by
  intro idx baud rx tx s hl hi hbaud hne hfree hr
  have hf : s.openFails idx baud rx tx = false := by
    rw [← Bool.not_eq_true, State.openFails_iff_pins]
    rintro (hrange | hzero | heq | ⟨j, hj, hji, hactive, hshared⟩)
    · omega
    · exact hbaud hzero
    · exact hne heq
    · obtain ⟨hrr, hrt, htr, htt⟩ := hfree j hj hji hactive
      simp [hrr, hrt, htr, htt] at hshared
  have he := exec_open_of_succeeds hf hr
  have hlen : idx.toNat < s.slots.length := hl.symm ▸ hi
  have hpin := s.pin_openSuccess idx.toNat baud rx tx
  refine ⟨_, he, ?_, ?_, ?_, ?_, ?_, ?_, fun j hj => ?_, fun p hpr hpt => ?_, ?_, exec_frame he⟩
  · rw [State.inst_respond, State.inst_openSuccess_self hlen, bitPeriodReg, bitPeriodOf]
  · rw [State.buf_respond, State.buf_openSuccess_self hlen]
  · rw [State.rx_respond, State.rx_openSuccess_self hlen]
  · rw [State.pin_respond, hpin, if_neg hne, if_pos rfl]
  · rw [State.pin_respond, hpin, if_pos rfl]
  · rw [State.responses_respond, State.responses_openSuccess, (s.openSuccess_frame _ _ _ _).now]
  · rw [State.slot_respond, State.slot_openSuccess_ne _ _ _ _ hj]
  · rw [State.pin_respond, hpin, if_neg hpt, if_neg hpr]
  · rw [State.tx_respond, State.tx_openSuccess]

/-- Settles O12: the first step of OPEN on an active index is the CLOSE. -/
theorem reopenIsCloseThenOpen : Obligations.ReopenIsCloseThenOpen := by
  intro idx baud rx tx s hl hg hf hr
  have hi : idx.toNat < s.cfg.nInst := ((s.gate_iff idx).mp hg).1
  have hclosed : ((s.closeSuccess idx.toNat).respond 1#32).openFails idx baud rx tx = false := by
    have hother : ∀ j, j ≠ idx.toNat → (s.closeSuccess idx.toNat).inst j = s.inst j := fun j hj => by
      rw [State.inst, s.slot_closeSuccess_ne hj, State.inst]
    exact (State.openFails_congr (s := s) (t := (s.closeSuccess idx.toNat).respond 1#32) rfl hother baud rx tx).trans hf
  have hopen := exec_open_of_succeeds hclosed hr
  rw [State.openSuccess_respond, State.openSuccess_closeSuccess (hl.symm ▸ hi) hg] at hopen
  refine ⟨_, _, _, exec_close_of_in_range hi hr, hopen, exec_open_of_succeeds hf hr, rfl, ?_, ?_⟩
  all_goals simp [(s.openSuccess_frame _ _ _ _).now]

/-- Settles O13: the slot that `closeSuccess` leaves behind, and its frame. -/
theorem closeDeactivatesTheInstance : Obligations.CloseDeactivatesTheInstance := by
  refine fun idx s => ⟨exec_close_of_out_of_range, fun hl hi hr => ?_⟩
  have he := exec_close_of_in_range hi hr
  have hlen : idx.toNat < s.slots.length := hl.symm ▸ hi
  exact ⟨_, he, State.inst_closeSuccess_self hlen, State.buf_closeSuccess_self hlen, State.rx_closeSuccess_self hlen,
    rfl, fun j hj => s.slot_closeSuccess_ne hj, rfl, rfl, exec_frame he⟩

/-- Settles O14: what CLOSE writes is what an inactive index holds, and what the first of two leaves behind. -/
theorem closeTwiceChangesNothingMore : Obligations.CloseTwiceChangesNothingMore := by
  refine ⟨fun idx s hs hi ha => ?_, fun idx s hl hi hr => ⟨_, exec_close_of_in_range hi hr, ?_⟩⟩
  · obtain ⟨hbaud, hrx, hrun⟩ := hs.closed_of_inactive hi ha
    rw [exec_close_of_in_range hi hrun, State.closeSuccess_of_closed hbaud hrx]
  · have hlen : idx.toNat < s.slots.length := hl.symm ▸ hi
    have hbaud : ((s.closeSuccess idx.toNat).inst idx.toNat).baudRate = 0#32 := by
      rw [State.inst_closeSuccess_self hlen]
    have hsecond := exec_close_of_in_range (s := (s.closeSuccess idx.toNat).respond 1#32) hi hr
    rw [State.closeSuccess_respond, State.closeSuccess_of_closed hbaud (State.rx_closeSuccess_self hlen)] at hsecond
    exact hsecond

/-- Settles O15: the two operations of the race meet a run of the index they name. -/
theorem registryRaceHasNoNextState : Obligations.RegistryRaceHasNoNextState := by
  intro idx s hb hinst
  have hr : s.receivingFor idx = true := by simp [State.receivingFor, hb, hinst]
  exact ⟨fun hi => exec_close_of_race hi hr, fun baud rx tx hf => exec_open_of_race hf hr⟩

/-- Settles O16: each of the six meanings asks the gate first. -/
theorem gatedOperationsFailWhenInactive : Obligations.GatedOperationsFailWhenInactive := by
  intro idx s h
  have hg : s.gate idx = false := (s.gate_eq_false_iff idx).mpr h
  have hclosed : ¬ s.gate idx = true := by simp [hg]
  exact ⟨fun _ => if_neg hclosed, fun _ => if_neg hclosed, if_neg hclosed, exec_read_sentinel (.inl hg),
    if_neg hclosed, if_neg hclosed⟩

end Sys2Proof.Machine
end

section
/-! SUPPORT. The pins that a host operation writes (R164; spec/44_buffer_access.md R257; spec/60_exceptions.md R297). -/

namespace Sys2Proof.Machine

/-- Pin `p` is in `t` what it was in `s`, and `t` is not sending on it. -/
structure PinKept (s : State) (p : Pin) (t : State) : Prop where
  not_driven : p ≠ (t.inst t.tx.inst).txPin
  pin : t.pin p = s.pin p

theorem PinKept.txWrite {s t : State} {p : Pin} (h : PinKept s p t) : PinKept s p t.txWrite where
  not_driven := h.not_driven
  pin := by rw [State.pin_congr t.pins_txWrite, State.pin_gpioSet, if_neg h.not_driven, h.pin]

theorem PinKept.beginPut {s t : State} {p : Pin} (h : PinKept s p t) (b : Byte) (bs : List Byte) :
    PinKept s p (t.beginPut t.tx.inst b bs) where
  not_driven := h.not_driven
  pin := by rw [State.pin_congr (t.pins_beginPut _ b bs), State.pin_gpioSet, if_neg h.not_driven, h.pin]

theorem PinKept.txFinish {s t : State} {p : Pin} (h : PinKept s p t) (v : RespWord) : PinKept s p (t.txFinish v) :=
  ⟨h.not_driven, h.pin⟩

/-- The transmit sequencer writes no pin but the transmit pin of the index it sends on. -/
theorem State.pin_txAdvance_of_ne {s : State} {p : Pin} (hp : p ≠ (s.inst s.tx.inst).txPin) (rest : List Byte) :
    (s.txAdvance rest).pin p = s.pin p := by
  have hkept : PinKept s p (s.txAdvance rest) :=
    State.txAdvance_induct (fun t h => State.txWrites_induct (fun _ hu _ => hu.txWrite) 10 t h)
      (fun _ b bs h _ _ => h.beginPut b bs) (fun _ v h _ => h.txFinish v) rest s ⟨hp, rfl⟩
  exact hkept.pin

/-- Settles O54: of the six writes of an operation, OPEN and a begun PUT alone reach a pin. -/
theorem pinsHaveTheirWriters : Obligations.PinsHaveTheirWriters := by
  intro i s t p h hp
  rcases exec_cases h with ⟨v, rfl⟩ | ⟨idx, baud, rx, tx, rfl, -, -, rfl⟩ | ⟨idx, -, -, -, rfl⟩ |
    ⟨idx, b, bs, hi, -, rfl⟩ | ⟨idx, -, -, -, rfl⟩ | ⟨idx, -, -, rfl⟩
  · exact absurd rfl hp
  · refine .inl ⟨idx, baud, rx, tx, rfl, ?_⟩
    by_contra hne
    simp only [not_or] at hne
    obtain ⟨hrx, htx⟩ := hne
    exact hp (by rw [State.pin_respond, State.pin_openSuccess, if_neg htx, if_neg hrx])
  · exact absurd rfl hp
  · have hpin : p = (s.inst idx.toNat).txPin := by
      by_contra hne
      refine hp ?_
      rw [State.pin_txAdvance_of_ne (s := s.beginPut idx.toNat b bs) hne, State.pin_congr (s.pins_beginPut _ b bs),
        State.pin_gpioSet, if_neg hne]
    rcases hi with ⟨rfl, -⟩ | rfl
    · exact .inr ⟨.inl ⟨idx, b, rfl⟩, hpin⟩
    · exact .inr ⟨.inr ⟨idx, b :: bs, rfl⟩, hpin⟩
  · exact absurd rfl hp
  · exact absurd rfl hp

end Sys2Proof.Machine
end

section
/-! SUPPORT. The only stop of the machine, from the operation to the tick (R166; spec/60_exceptions.md R280). -/

namespace Sys2Proof.Machine

/-- The race of R166 needs a run in progress. -/
theorem exec_stops_in_run {i : Instr} {s : State} :
    (∃ t, exec i s = .next t) ∨ (exec i s = .fault .registryRace ∧ s.isr.busy = true) := by
  rcases exec_stops (i := i) (s := s) with ht | ⟨hfault, idx, hr, -⟩
  · exact .inl ht
  · have hrun : s.isr.busy = true ∧ s.isr.inst = idx.toNat := by simpa [State.receivingFor] using hr
    exact .inr ⟨hfault, hrun.1⟩

/-- The acceptances of a tick stop only by the race, during the run that the tick leaves in progress. -/
theorem acceptLoop_stops (n : Nat) (s : State) :
    (∃ t, acceptLoop exec n s = .next t) ∨ (acceptLoop exec n s = .fault .registryRace ∧ s.isr.busy = true) := by
  induction n generalizing s with
  | zero => exact .inl ⟨s, rfl⟩
  | succ n ih =>
    rw [acceptLoop]
    split
    · exact .inl ⟨s, rfl⟩
    · split
      · exact .inl ⟨s, rfl⟩
      · exact ih s.rejectWord
      · next i rest _ =>
        rcases exec_stops_in_run (i := i) (s := s.takeWords (wordLength i)) with ⟨u, hu⟩ | ⟨hfault, hb⟩
        · have hisr : u.isr = s.isr := (exec_frame hu).isr
          rw [hu, andThen_next, ← hisr]
          exact ih u
        · rw [hfault]
          exact .inr ⟨rfl, hb⟩

/-- A tick goes on, or it stops by the race during a run that does not hold the normal context. -/
theorem step_stops (s : State) :
    (∃ t, step s = .next t) ∨
    (step s = .fault .registryRace ∧ s.cfg.singleCore = false ∧ s.interruptPart.isr.busy = true) := by
  by_cases hh : s.interruptPart.held = true
  · exact .inl ⟨_, if_pos hh⟩
  · have hh : s.interruptPart.held = false := by simpa using hh
    rw [step_of_not_held hh, State.beforeAccept_of_not_held hh]
    rcases acceptLoop_stops _ s.interruptPart.transmitStep with ht | ⟨hfault, hb⟩
    · exact .inl ht
    · rw [(State.transmitStep_frame _).isr] at hb
      have hcore : s.cfg.singleCore = false := by simpa [State.held, hb] using hh
      exact .inr ⟨hfault, hcore, hb⟩

/-- Settles O49: a tick either goes on or stops by the race. -/
theorem onlyTheRegistryRaceStops : Obligations.OnlyTheRegistryRaceStops := by
  intro s
  rcases step_stops s with ⟨t, ht⟩ | ⟨hfault, hcore, hb⟩
  · rw [ht]
    exact ⟨nofun, fun _ => ⟨t, rfl⟩, nofun⟩
  · rw [hfault, hcore]
    exact ⟨nofun, nofun, fun _ _ => ⟨rfl, hb⟩⟩

end Sys2Proof.Machine
end

section
/-! SUPPORT. The ticks in which a run acts: its samples and its end at one offset each from its start, nothing before,
and the obligations on a sample and on the end of a run (spec/42_receive_engine.md R186 to R192). -/

namespace Sys2Proof.Machine

/-! ## The offsets of the actions of a run (R187, R190) -/

theorem sampleOffset_succ (c : Config) (bp k : Nat) : sampleOffset c bp (k + 1) = sampleOffset c bp k + bp := by
  simp only [sampleOffset, intraBitDelay, Nat.add_mul]
  omega

/-- The run ends where a ninth sample would be taken. -/
theorem windowLength_eq_sampleOffset (c : Config) (bp : Nat) : windowLength c bp = sampleOffset c bp 8 :=
  (sampleOffset_succ c bp 7).symm

/-- The offset of a sample where R8 holds. -/
theorem sampleOffset_of_fits {c : Config} {bp : Nat} (h : c.marginFits bp = true) (k : Nat) :
    (sampleOffset c bp k : Int) = ((bp / 2 : Nat) : Int) + c.startupMargin + (k + 1) * bp := by
  rw [sampleOffset, Nat.cast_add, centeringDelay_of_fits h, intraBitDelay]
  push_cast
  rfl

theorem State.endDue_iff (s : State) :
    s.endDue = true ↔
      s.isr.busy = true ∧ s.isr.k = 8 ∧ s.isr.ts + sampleOffset s.cfg s.runPeriod 8 ≤ s.now := by
  simp [State.endDue, windowLength_eq_sampleOffset, and_assoc]

/-! ## A tick with no action, with one sample, and with the end -/

/-- Before its next action is due nothing of a run is. -/
theorem State.not_due_of_early {s : State} (h : s.now < s.isr.ts + sampleOffset s.cfg s.runPeriod s.isr.k) :
    s.sampleDue = false ∧ s.endDue = false := by
  rw [← Bool.not_eq_true, ← Bool.not_eq_true, State.sampleDue_iff, State.endDue_iff]
  constructor
  · rintro ⟨-, -, hdue⟩
    omega
  · rintro ⟨-, hk, hdue⟩
    rw [hk] at h
    omega

theorem State.advanceRun_of_not_due {s : State} (hs : s.sampleDue = false) (he : s.endDue = false) :
    s.advanceRun = s := by
  simp [State.advanceRun, State.takeSamples_of_not_due 8 s hs, he]

theorem State.advanceRun_of_early {s : State} (h : s.now < s.isr.ts + sampleOffset s.cfg s.runPeriod s.isr.k) :
    s.advanceRun = s :=
  State.advanceRun_of_not_due (State.not_due_of_early h).1 (State.not_due_of_early h).2

/-- Before the action after it is due, a sample is all that a run does in the tick. -/
theorem State.advanceRun_of_one_sample {s : State} (hd : s.sampleDue = true)
    (hnext : s.now < s.isr.ts + sampleOffset s.cfg s.runPeriod (s.isr.k + 1)) : s.advanceRun = s.takeSample := by
  have hearly : s.takeSample.now <
      s.takeSample.isr.ts + sampleOffset s.takeSample.cfg s.takeSample.runPeriod s.takeSample.isr.k := by
    rw [s.takeSample_frame.now, s.takeSample_frame.cfg, State.runPeriod_takeSample, State.isr_takeSample]
    exact hnext
  obtain ⟨hs, he⟩ := State.not_due_of_early hearly
  have hsamples : State.takeSamples 8 s = s.takeSample := by
    rw [State.takeSamples, if_pos hd, State.takeSamples_of_not_due 7 _ hs]
  simp [State.advanceRun, hsamples, he]

theorem State.advanceRun_of_endDue {s : State} (h : s.endDue = true) : s.advanceRun = s.endRun := by
  obtain ⟨-, hk, -⟩ := s.endDue_iff.mp h
  have hs : s.sampleDue = false := by simp [State.sampleDue, hk]
  simp [State.advanceRun, State.takeSamples_of_not_due 8 s hs, h]

/-! ## The obligations on a sample and on the end -/

/-- Settles O31: the two conditions of the tick are those of the offset of sample `k`, and with a bit period of at least
1 the action after it is later. -/
theorem sampleTakenAtItsTick : Obligations.SampleTakenAtItsTick := by
  intro s hb hk hp hfits
  have hoffset := sampleOffset_of_fits hfits s.isr.k
  refine ⟨fun hearly => State.advanceRun_of_early (by omega), fun hnow => ?_⟩
  have hdue : s.now = s.isr.ts + sampleOffset s.cfg s.runPeriod s.isr.k := by omega
  have hrun : s.advanceRun = s.takeSample :=
    State.advanceRun_of_one_sample (s.sampleDue_iff.mpr ⟨hb, hk, hdue.ge⟩) (by rw [sampleOffset_succ]; omega)
  refine ⟨s.recordSample.isr.shift, fun n hn => getLsbD_setBit _ _ _ hn, fun hlt => ?_, fun heq => ?_⟩
  · rcases s.takeSample_cases with ⟨he, -⟩ | ⟨-, h⟩
    · omega
    · exact hrun.trans h
  · rcases s.takeSample_cases with ⟨-, h⟩ | ⟨hne, -⟩
    · rw [hrun, h, show (8 : Nat) = s.isr.k + 1 by omega]
      rfl
    · omega

/-- Settles O32: after the eighth sample the only action left is the end. -/
theorem runEndsAndReArms : Obligations.RunEndsAndReArms := by
  intro s hb hk hi
  have hend : sampleOffset s.cfg s.runPeriod 8 = centeringDelay s.cfg s.runPeriod + 9 * s.runPeriod := rfl
  refine ⟨fun hearly => State.advanceRun_of_early (by rw [hk]; omega), fun hdue => ?_⟩
  rw [State.advanceRun_of_endDue (s.endDue_iff.mpr ⟨hb, hk, by omega⟩)]
  refine ⟨?_, s.isr_endRun, fun j => ⟨s.endRun_frame.inst j, ?_⟩, fun j hj => ?_, rfl⟩
  · rw [State.rx_endRun, State.rx_attach, if_pos ⟨rfl, hi⟩]
  · rw [State.buf_endRun, State.buf_attach]
  · rw [State.rx_endRun, State.rx_attach, if_neg (fun h => hj h.1)]

end Sys2Proof.Machine
end

section
/-! SUPPORT. Which run the interrupt context starts, and the obligations on the start of a run
(spec/42_receive_engine.md R184; spec/60_exceptions.md R287, R288). -/

namespace Sys2Proof.Machine

/-! ## The instance served -/

theorem State.nextPending_eq_none {s : State}
    (h : ∀ i, i < s.cfg.nInst → ¬ ((s.rx i).pend = true ∧ (s.rx i).attached = true)) : s.nextPending = none := by
  rw [State.nextPending, List.find?_eq_none]
  intro i hi
  simpa using h i (List.mem_range.mp hi)

theorem State.nextPending_eq_some {s : State} {i : Nat} (hi : i < s.cfg.nInst) (hp : (s.rx i).pend = true)
    (ha : (s.rx i).attached = true) (hlow : ∀ j, j < i → ¬ ((s.rx j).pend = true ∧ (s.rx j).attached = true)) :
    s.nextPending = some i := by
  rw [State.nextPending, List.find?_range_eq_some]
  exact ⟨by rw [hp, ha]; rfl, List.mem_range.mpr hi, fun j hj => by simpa [imp_iff_not_or] using hlow j hj⟩

/-! ## The starts of a tick -/

theorem State.startRuns_of_busy {s : State} (h : s.isr.busy = true) (n : Nat) : State.startRuns n s = s := by
  cases n with
  | zero => rfl
  | succ n => rw [State.startRuns, if_pos h]

theorem State.startRuns_of_some {s : State} {i : Nat} (hb : s.isr.busy = false) (h : s.nextPending = some i)
    (n : Nat) : State.startRuns (n + 1) s = State.startRuns n (s.serve i).advanceRun := by
  simp [State.startRuns, hb, h]

theorem State.interruptStep_eq_startRuns {s : State} (h : s.isr.busy = false) :
    s.interruptStep = State.startRuns s.cfg.nInst s := by
  rw [State.interruptStep, State.advanceRun_of_idle s h]

/-- The interrupt step starts the run of the instance served, does what is due of it, and goes on from there. -/
theorem State.interruptStep_of_some {s : State} {i : Nat} (hb : s.isr.busy = false) (h : s.nextPending = some i) :
    s.interruptStep = State.startRuns (s.cfg.nInst - 1) (s.serve i).advanceRun := by
  obtain ⟨hi, -⟩ := State.nextPending_some h
  obtain ⟨n, hn⟩ := Nat.exists_eq_succ_of_ne_zero (Nat.ne_zero_of_lt hi)
  rw [State.interruptStep_eq_startRuns hb, hn]
  exact State.startRuns_of_some hb h n

/-- When the run started has ended in its tick, what follows is a whole interrupt step. -/
theorem State.interruptStep_of_ended {s : State} {i : Nat} (hb : s.isr.busy = false) (h : s.nextPending = some i)
    (hended : (s.serve i).advanceRun.isr.busy = false) :
    s.interruptStep = (s.serve i).advanceRun.interruptStep := by
  have hcfg : (s.serve i).advanceRun.cfg = s.cfg := ((s.serve_frame i).trans (State.advanceRun_frame _)).cfg
  have hall : s.waiting.card ≤ s.cfg.nInst := by
    simpa using Finset.card_filter_le (Finset.range s.cfg.nInst)
      (fun i => (s.rx i).pend = true ∧ (s.rx i).attached = true)
  have hfewer := s.waiting_serve_lt i h
  rw [State.interruptStep_of_some hb h, State.interruptStep_eq_startRuns hended, hcfg]
  exact State.startRuns_fuel _ _ _ (by omega) (by omega)

theorem State.runPeriod_serve (s : State) (i : Nat) : (s.serve i).runPeriod = s.bitPeriod i := by
  rw [State.runPeriod, (s.serve_frame i).bitPeriod, State.isr_serve]

/-- The start of a run writes the interrupt bits and `isr`. -/
theorem State.serve_writes (s : State) (i : Nat) :
    { s.serve i with slots := [], isr := s.isr } = { s with slots := [] } := by
  unfold State.serve
  split <;> rfl

/-- In a window of positive length the run started has nothing more to do in its tick. -/
theorem State.advanceRun_serve_of_window_pos {s : State} {i : Nat} (h : 0 < windowLength s.cfg (s.bitPeriod i)) :
    (s.serve i).advanceRun = s.serve i := by
  have hpos : 0 < sampleOffset s.cfg (s.bitPeriod i) 0 := by
    simp only [windowLength, sampleOffset, intraBitDelay, stopBitDelay] at h ⊢
    omega
  refine State.advanceRun_of_early ?_
  rw [State.runPeriod_serve, State.isr_serve, (s.serve_frame i).cfg, (s.serve_frame i).now]
  exact Nat.lt_add_of_pos_right hpos

/-! ## The obligations on the start -/

/-- Settles O30: the interrupt step is the start of the one run, which then keeps the interrupt context busy. -/
theorem runStartsForTheLowestPendingIndex : Obligations.RunStartsForTheLowestPendingIndex := by
  intro s hlen hb
  refine ⟨fun hnone => ?_, fun i hi hp ha hlow hwindow => ?_⟩
  · exact State.interruptStep_of_idle hb (State.nextPending_eq_none hnone)
  · have hstep : s.interruptStep = s.serve i := by
      rw [State.interruptStep_of_some hb (State.nextPending_eq_some hi hp ha hlow),
        State.advanceRun_serve_of_window_pos hwindow, State.startRuns_of_busy (by rw [State.isr_serve])]
    rw [hstep]
    refine ⟨s.isr_serve i, ?_, fun j hj => ?_, fun j => ⟨s.buf_serve i j, (s.serve_frame i).inst j⟩,
      s.serve_writes i⟩
    · rw [State.rx_serve, if_pos ⟨rfl, hlen ▸ hi⟩]
    · rw [State.rx_serve, if_neg (fun h => hj h.1)]

/-- Settles O56: the run started is one with a bit period of 0 whose centering delay is over, so it ends in its tick. -/
theorem zeroWindowRunsFollowInOneTick : Obligations.ZeroWindowRunsFollowInOneTick := by
  intro s i hlen hb hi hp ha hlow hwindow
  have hperiod : s.bitPeriod i = 0 := by
    simp only [windowLength, intraBitDelay, stopBitDelay] at hwindow
    omega
  rw [hperiod, windowLength_zero] at hwindow
  have f := s.serve_frame i
  have hisr := s.isr_serve i
  have hslot : (s.serve i).isr.inst < (s.serve i).slots.length := by rw [hisr, f.slots_length, hlen]; exact hi
  have hstart : (s.serve i).isr.k < 8 := by rw [hisr]; exact Nat.zero_lt_succ 7
  obtain ⟨-, -, hrun⟩ := zeroPeriodRunTakesOneTick (s.serve i) (by rw [hisr]) hstart hslot
    ((s.runPeriod_serve i).trans hperiod)
  obtain ⟨b, -, hbyte, hended, hbuf, hrx, hinst, hother, hwrites⟩ :=
    hrun (by rw [hisr, f.cfg, f.now, hwindow]; exact Nat.le_refl _)
  rw [hisr] at hbyte hended hbuf hrx hother hwrites
  refine ⟨b, (s.serve i).advanceRun, ?_, hended, ?_, hrx, fun j hj => ⟨?_, ?_⟩,
    fun j => (hinst j).trans (f.inst j), ?_, ?_, ?_⟩
  · rw [hbyte rfl, f.level, f.inst]
  · rw [hbuf, f.cfg, State.buf_serve]
  · rw [State.buf, hother j hj]
    exact s.buf_serve i j
  · have hserve : (s.serve i).rx j = { s.rx j with pend := (s.rx j).pend && s.cfg.pendLatch } := by
      rw [State.rx_serve, if_neg (fun h => hj h.1)]
    rw [State.rx, hother j hj]
    exact hserve
  · exact (State.advanceRun_frame _).slots_length.trans f.slots_length
  · exact (congrArg (fun u : State => { u with isr := s.isr }) hwrites).trans (s.serve_writes i)
  · exact State.interruptStep_of_ended hb (State.nextPending_eq_some hi hp ha hlow) (by rw [hended])

end Sys2Proof.Machine
end

section
/-! SUPPORT. A run through whole ticks: what a tick inside the sampling window does of it, what of its instance the host
can change meanwhile, and the obligations on the window and on the byte of a whole run (spec/42_receive_engine.md R181
to R198). -/

namespace Sys2Proof.Machine

/-! ## A tick inside the window -/

theorem State.interruptStep_of_busy_after {s : State} (h : s.advanceRun.isr.busy = true) :
    s.interruptStep = s.advanceRun := by
  rw [State.interruptStep, State.startRuns_of_busy h]

/-- Inside the window nothing of the run is overdue, so the interrupt part of a tick takes the one sample due in it, or
detects edges only. -/
theorem SoundState.interruptPart_in_window {s : State} (h : SoundState s) (hb : s.isr.busy = true)
    (hin : s.now + 1 < s.isr.ts + windowLength s.cfg s.runPeriod) :
    (s.now + 1 < s.isr.ts + sampleOffset s.cfg s.runPeriod s.isr.k ∧
      s.interruptPart = s.sampleInputs.detectEdges) ∨
    (s.isr.k < 8 ∧ s.now + 1 = s.isr.ts + sampleOffset s.cfg s.runPeriod s.isr.k ∧
      s.interruptPart = s.sampleInputs.detectEdges.takeSample) := by
  rw [windowLength_eq_sampleOffset] at hin
  have hperiod : s.sampleInputs.detectEdges.runPeriod = s.runPeriod := s.sampleInputs.detectEdges_frame.bitPeriod _
  by_cases hearly : s.now + 1 < s.isr.ts + sampleOffset s.cfg s.runPeriod s.isr.k
  · have hrun : s.sampleInputs.detectEdges.advanceRun = s.sampleInputs.detectEdges :=
      State.advanceRun_of_early (by rw [hperiod]; exact hearly)
    exact .inl ⟨hearly, (State.interruptStep_of_busy_after (by rw [hrun]; exact hb)).trans hrun⟩
  · obtain ⟨-, -, hle, -⟩ := h.run_position hb
    have hk : s.isr.k < 8 := by
      refine Nat.lt_of_le_of_ne hle fun heq => hearly ?_
      rw [heq]
      exact hin
    have hnotlate : s.now < s.isr.ts + sampleOffset s.cfg s.runPeriod s.isr.k := by
      by_contra hlate
      have hdue := s.sampleDue_iff.mpr ⟨hb, hk, by omega⟩
      rw [h.run_not_late.1] at hdue
      cases hdue
    have hpos : 0 < s.runPeriod := by
      by_contra hzero
      have hzero : s.runPeriod = 0 := by omega
      rw [hzero, sampleOffset_zero] at hin hearly
      omega
    have hrun : s.sampleInputs.detectEdges.advanceRun = s.sampleInputs.detectEdges.takeSample := by
      refine State.advanceRun_of_one_sample ((State.sampleDue_iff _).mpr ⟨hb, hk, ?_⟩) ?_
      all_goals rw [hperiod]
      · exact Nat.not_lt.mp hearly
      · show s.now + 1 < s.isr.ts + sampleOffset s.cfg s.runPeriod (s.isr.k + 1)
        rw [sampleOffset_succ]
        omega
    refine .inr ⟨hk, by omega, (State.interruptStep_of_busy_after ?_).trans hrun⟩
    rw [hrun, State.isr_takeSample]
    exact hb

/-- Inside the window the run goes on for the same instance. -/
theorem SoundState.isr_interruptPart_in_window {s : State} (h : SoundState s) (hb : s.isr.busy = true)
    (hin : s.now + 1 < s.isr.ts + windowLength s.cfg s.runPeriod) :
    s.interruptPart.isr.busy = true ∧ s.interruptPart.isr.inst = s.isr.inst ∧
      s.interruptPart.isr.ts = s.isr.ts := by
  rcases h.interruptPart_in_window hb hin with ⟨-, he⟩ | ⟨-, -, he⟩
  · rw [he]
    exact ⟨hb, rfl, rfl⟩
  · rw [he, State.isr_takeSample]
    exact ⟨hb, rfl, rfl⟩

/-! ## What the host can change during a run (R166) -/

/-- No operation that goes on reconfigures the instance of the run in progress. -/
theorem exec_inst_of_running {i : Instr} {s t : State} (h : exec i s = .next t) (hb : s.isr.busy = true) :
    t.inst s.isr.inst = s.inst s.isr.inst := by
  have other : ∀ idx, s.receivingFor idx = false → s.isr.inst ≠ idx.toNat := fun idx hr => by
    simpa [State.receivingFor, hb] using hr
  rcases exec_cases h with ⟨v, rfl⟩ | ⟨idx, baud, rx, tx, -, -, hr, rfl⟩ | ⟨idx, -, -, hr, rfl⟩ |
    ⟨idx, b, bs, -, -, rfl⟩ | ⟨idx, -, -, -, rfl⟩ | ⟨idx, -, -, rfl⟩
  · rfl
  · rw [State.inst_respond, State.inst, State.slot_openSuccess_ne _ _ _ _ (other idx hr)]
    rfl
  · rw [State.inst_respond, State.inst, State.slot_closeSuccess_ne _ (other idx hr)]
    rfl
  · exact ((s.beginPut_frame idx.toNat b bs).trans (State.txAdvance_frame bs _)).inst _
  · rw [State.inst_respond, State.inst_popAdvance]
  · rw [State.inst_respond, State.inst_clearOverflow]

/-- A tick ends with the run as its interrupt part left it, and with the instance of that run as it was. -/
theorem step_run {s t : State} (h : step s = .next t) (hb : s.interruptPart.isr.busy = true) :
    t.isr = s.interruptPart.isr ∧ t.inst s.interruptPart.isr.inst = s.inst s.interruptPart.isr.inst := by
  refine step_induct (P := fun u => u.isr = s.interruptPart.isr ∧
    u.inst s.interruptPart.isr.inst = s.inst s.interruptPart.isr.inst) ⟨rfl, s.inst_interruptPart _⟩
    (fun u hu => ?_) (fun u hu _ => hu) (fun u i v rest hu _ _ he => ?_) h
  · exact ⟨u.transmitStep_frame.isr.trans hu.1, (u.transmitStep_frame.inst _).trans hu.2⟩
  · have hinst := exec_inst_of_running he (by rw [State.isr_takeWords, hu.1]; exact hb)
    rw [State.isr_takeWords, hu.1] at hinst
    exact ⟨(exec_frame he).isr.trans hu.1, hinst.trans hu.2⟩

/-! ## The obligation on the window -/

/-- In a sound state the instance of a run in progress is detached and not pending (R193). -/
theorem SoundState.rx_of_running {s : State} (h : SoundState s) (hb : s.isr.busy = true) :
    s.rx s.isr.inst = { attached := false, pend := false } := by
  obtain ⟨hi, -⟩ := h.run_position hb
  have hatt : (s.rx s.isr.inst).attached = false := by
    rw [h.armed_iff _ hi]
    simp [State.sampling, hb]
  have hpend : (s.rx s.isr.inst).pend = false := by
    rw [← Bool.not_eq_true]
    exact fun hp => Bool.false_ne_true (hatt.symm.trans (h.pending_attached _ hi hp))
  exact congrArg₂ RxControl.mk hatt hpend

/-- Settles O33: the tick leaves the run in progress, and the state it ends in is sound. -/
theorem lineIsNotWatchedInTheWindow : Obligations.LineIsNotWatchedInTheWindow := by
  intro s t hsound hb hin hstep
  obtain ⟨hbusy, hinst, hts⟩ := hsound.isr_interruptPart_in_window hb hin
  obtain ⟨hisr, hcfg⟩ := step_run hstep hbusy
  have hbusy : t.isr.busy = true := by rw [hisr]; exact hbusy
  have hrx := (stepKeepsSoundStates s t hsound hstep).rx_of_running hbusy
  rw [hisr, hinst] at hrx
  rw [hinst] at hcfg
  exact ⟨hbusy, by rw [hisr, hinst], by rw [hisr, hts], hrx, hcfg⟩

/-! ## The obligation on a whole run -/

/-- What `n` ticks make of a state `s` in which a run begins, while the run is in progress: each bit taken is the level
of the receive pin in the tick of its sample. -/
structure ReceivingFor (s : State) (n : Nat) (u : State) : Prop where
  sound : SoundState u
  cfg : u.cfg = s.cfg
  now : u.now = s.now + n
  inst : u.inst s.isr.inst = s.inst s.isr.inst
  busy : u.isr.busy = true
  running : u.isr.inst = s.isr.inst
  began : u.isr.ts = s.now
  bits : ∀ k, k < u.isr.k → ∃ w : State, ticks (sampleOffset s.cfg s.runPeriod k) s = .next w ∧
    levelOf w.level (s.inst s.isr.inst).rxPin = u.isr.shift.getLsbD k

section ticks

variable {s u v : State} {n : Nat}

theorem ReceivingFor.runPeriod (h : ReceivingFor s n u) : u.runPeriod = s.runPeriod := by
  rw [State.runPeriod, h.running]
  exact State.bitPeriod_congr h.inst

/-- The interrupt part of the next tick inside the window, in ticks since the run began. -/
theorem ReceivingFor.interruptPart_cases (h : ReceivingFor s n u) (hn : n + 1 < windowLength s.cfg s.runPeriod) :
    (n + 1 < sampleOffset s.cfg s.runPeriod u.isr.k ∧ u.interruptPart = u.sampleInputs.detectEdges) ∨
    (u.isr.k < 8 ∧ n + 1 = sampleOffset s.cfg s.runPeriod u.isr.k ∧
      u.interruptPart = u.sampleInputs.detectEdges.takeSample) := by
  have hcases := h.sound.interruptPart_in_window h.busy (by rw [h.now, h.began, h.cfg, h.runPeriod]; omega)
  rw [h.now, h.began, h.cfg, h.runPeriod, Nat.add_assoc, Nat.add_lt_add_iff_left, Nat.add_left_cancel_iff] at hcases
  exact hcases

/-- The byte after the sample of the next tick. -/
theorem ReceivingFor.getLsbD_sample (h : ReceivingFor s n u) {k : Nat} (hk : k < 8) :
    u.sampleInputs.detectEdges.recordSample.isr.shift.getLsbD k =
      if k = u.isr.k then levelOf u.nextLevel (s.inst s.isr.inst).rxPin else u.isr.shift.getLsbD k := by
  have hpin : u.sampleInputs.detectEdges.inst u.isr.inst = s.inst s.isr.inst := by
    rw [State.inst_detectEdges, State.inst_sampleInputs, h.running, h.inst]
  rw [← hpin]
  exact getLsbD_setBit _ _ _ hk

/-- A tick inside the window takes the sample due in it, or none. -/
theorem ReceivingFor.step (h : ReceivingFor s n u) (hn : n + 1 < windowLength s.cfg s.runPeriod)
    (hu : ticks n s = .next u) (hstep : Machine.step u = .next v) : ReceivingFor s (n + 1) v := by
  have f := step_inputFrame hstep
  obtain ⟨hbusy, hinst, hts⟩ := h.sound.isr_interruptPart_in_window h.busy
    (by rw [h.now, h.began, h.cfg, h.runPeriod]; omega)
  obtain ⟨hisr, hcfg⟩ := step_run hstep hbusy
  rw [hinst, h.running] at hcfg
  constructor
  case sound => exact stepKeepsSoundStates u v h.sound hstep
  case cfg => exact f.cfg.trans h.cfg
  case now => exact f.now.trans (congrArg (· + 1) h.now)
  case inst => exact hcfg.trans h.inst
  case busy => rw [hisr]; exact hbusy
  case running => rw [hisr, hinst, h.running]
  case began => rw [hisr, hts, h.began]
  case bits =>
    rcases h.interruptPart_cases hn with ⟨-, he⟩ | ⟨hk8, hnow, he⟩
    · rw [hisr, he]
      exact h.bits
    · rw [hisr, he, State.isr_takeSample]
      intro k (hk : k < u.isr.k + 1)
      rw [h.getLsbD_sample (by omega)]
      by_cases heq : k = u.isr.k
      · refine ⟨v, ?_, ?_⟩
        · rw [heq, ← hnow, ticks_last, hu, andThen_next, hstep]
        · rw [if_pos heq, f.level, State.level_sampleInputs]
      · rw [if_neg heq]
        exact h.bits k (by omega)

theorem SoundState.receivingFor_zero (h : SoundState s) (hb : s.isr.busy = true) (hts : s.isr.ts = s.now)
    (hk : s.isr.k = 0) : ReceivingFor s 0 s where
  sound := h
  cfg := rfl
  now := rfl
  inst := rfl
  busy := hb
  running := rfl
  began := hts
  bits k hlt := absurd hlt (by omega)

theorem ReceivingFor.ticks (h : ReceivingFor s 0 s) (hn : n < windowLength s.cfg s.runPeriod)
    (hu : ticks n s = .next u) : ReceivingFor s n u := by
  induction n generalizing u with
  | zero => cases hu; exact h
  | succ n ih =>
    rw [ticks_last] at hu
    obtain ⟨w, hw, hstep⟩ := andThen_eq_next hu
    exact (ih (by omega) hw).step hn hw hstep

/-- In the tick before the eighth sample the other seven have been taken (R187). -/
theorem ReceivingFor.seven_taken (h : ReceivingFor s n u) (hp : 0 < s.runPeriod)
    (hn : n + 1 = sampleOffset s.cfg s.runPeriod 7) : u.isr.k = 7 := by
  obtain ⟨-, -, hle, -, hnotearly⟩ := h.sound.run_position h.busy
  have hlate : ¬ u.sampleDue = true := by rw [h.sound.run_not_late.1]; exact Bool.false_ne_true
  rw [State.sampleDue_iff, h.began, h.cfg, h.runPeriod, h.now] at hlate
  rw [h.began, h.cfg, h.runPeriod, h.now] at hnotearly
  have hseventh : sampleOffset s.cfg s.runPeriod 7 = sampleOffset s.cfg s.runPeriod 6 + s.runPeriod :=
    sampleOffset_succ _ _ 6
  rcases Nat.lt_trichotomy u.isr.k 7 with hlt | heq | hgt
  · have hmono := sampleOffset_mono s.cfg s.runPeriod (show u.isr.k ≤ 6 by omega)
    exact absurd ⟨h.busy, by omega, by omega⟩ hlate
  · exact heq
  · have hmono := sampleOffset_mono s.cfg s.runPeriod (show 7 ≤ u.isr.k - 1 by omega)
    have := hnotearly (by omega)
    omega

/-- The eighth sample appends the byte (R189). -/
theorem ReceivingFor.buf_interruptPart_of_last (h : ReceivingFor s n u) (hk : u.isr.k = 7)
    (he : u.interruptPart = u.sampleInputs.detectEdges.takeSample) :
    u.interruptPart.buf s.isr.inst = (u.buf s.isr.inst).appended s.cfg.bufCap
      u.sampleInputs.detectEdges.recordSample.isr.shift := by
  obtain ⟨hi, -⟩ := h.sound.run_position h.busy
  have f := u.sampleInputs.detectEdges_frame.trans (State.recordSample_frame _)
  have hlen : s.isr.inst < u.sampleInputs.detectEdges.recordSample.slots.length := by
    rw [f.slots_length, ← h.running]
    exact hi.trans_eq h.sound.table_length.symm
  rcases State.takeSample_cases u.sampleInputs.detectEdges with ⟨-, hlast⟩ | ⟨hne, -⟩
  · rw [he, hlast, State.buf_append, State.isr_detectEdges, State.isr_sampleInputs, h.running, if_pos ⟨rfl, hlen⟩,
      f.cfg, State.cfg_sampleInputs, h.cfg, State.buf_congr (State.slots_recordSample _), State.buf_detectEdges,
      State.buf_sampleInputs]
  · exact absurd (congrArg (· + 1) hk) hne

end ticks

/-- Settles O34: by induction the bits taken are those of the line to the tick before the eighth sample, which the next
tick takes and appends. -/
theorem runAppendsTheSampledByte : Obligations.RunAppendsTheSampledByte := by
  intro s v hsound hb hts hk hp hv
  have hend := windowLength_eq s.cfg s.runPeriod
  have hpos : 0 < sampleOffset s.cfg s.runPeriod 7 := by rw [sampleOffset_succ]; omega
  rw [stopBitDelay] at hend
  obtain ⟨n, hn⟩ := Nat.exists_eq_succ_of_ne_zero hpos.ne'
  rw [hn, Nat.succ_sub_one] at hv
  have h : ReceivingFor s n v := (hsound.receivingFor_zero hb hts hk).ticks (by omega) hv
  have hseven : v.isr.k = 7 := h.seven_taken hp hn.symm
  rcases h.interruptPart_cases (by omega) with ⟨hearly, -⟩ | ⟨-, -, he⟩
  · rw [hseven] at hearly
    omega
  · refine ⟨_, h.buf_interruptPart_of_last hseven he, ?_, fun k hlt => ?_⟩
    · rw [h.getLsbD_sample (by decide), if_pos hseven.symm]
    · rw [h.getLsbD_sample (by omega), if_neg (by omega)]
      exact h.bits k (by omega)

end Sys2Proof.Machine
end

section
/-! SUPPORT. The start and the return of a PUT with a bit period of at least 1: what a PUT that begins writes, and the
transmit step of the tick in which it returns (spec/43_transmit_engine.md R222 to R226, R234 to R236). -/

namespace Sys2Proof.Machine

/-! ## The start of a PUT (R222, R223) -/

theorem State.pin_beginPut (s : State) (i : Nat) (b : Byte) (rest : List Byte) (p : Pin) :
    (s.beginPut i b rest).pin p =
      if p = (s.inst i).txPin then { s.pin (s.inst i).txPin with out := false } else s.pin p := by
  rw [State.pin_congr (s.pins_beginPut i b rest), State.pin_gpioSet]

/-- With a bit period of at least 1 the start bit is all that a PUT does in the tick it begins in. -/
theorem State.txAdvance_beginPut {s : State} {i : Nat} (hp : 0 < s.bitPeriod i) (b : Byte) (rest bytes : List Byte) :
    (s.beginPut i b rest).txAdvance bytes = s.beginPut i b rest := by
  have hnot : (s.beginPut i b rest).writeDue = false := by
    rw [← Bool.not_eq_true, State.writeDue_iff]
    rintro ⟨-, hdue⟩
    change s.now + s.bitPeriod i * 1 ≤ s.now at hdue
    omega
  have hstay : (s.beginPut i b rest).putReturns = false := rfl
  cases bytes with
  | nil => simp [State.txAdvance_nil, State.txWrites_of_not_due 10 _ hnot, hstay]
  | cons c cs => simp [State.txAdvance_cons, State.txWrites_of_not_due 10 _ hnot, hstay]

/-- PUT, and PUTS of at least one byte, begin their first byte and do nothing else. -/
theorem exec_begins_first_byte {idx : Index} {s : State} (hg : s.gate idx = true) (hp : 0 < s.bitPeriod idx.toNat)
    {i : Instr} {b : Byte} {bs : List Byte} (h : i = .put idx b ∧ bs = [] ∨ i = .puts idx (b :: bs)) :
    ∃ t, exec i s = .next t ∧
      t.tx = { busy := true, inst := idx.toNat, byte := b, t0 := s.now, j := 1, rest := bs } ∧
      t.pin (s.inst idx.toNat).txPin = { s.pin (s.inst idx.toNat).txPin with out := false } ∧
      (∀ p, p ≠ (s.inst idx.toNat).txPin → t.pin p = s.pin p) ∧
      t.slots = s.slots ∧ t.responses = s.responses ∧ ExecFrame s t := by
  refine ⟨s.beginPut idx.toNat b bs, ?_, rfl, ?_, fun p hne => ?_, rfl, rfl, (s.beginPut_frame _ b bs).execFrame⟩
  · rw [← State.txAdvance_beginPut hp b bs bs]
    rcases h with ⟨rfl, rfl⟩ | rfl <;> exact if_pos hg
  · rw [State.pin_beginPut, if_pos rfl]
  · rw [State.pin_beginPut, if_neg hne]

/-- Settles O36: the PUT begins, and no other action is due in its tick. -/
theorem putDrivesTheStartBit : Obligations.PutDrivesTheStartBit :=
  fun _ _ _ hg hp => exec_begins_first_byte hg hp (.inl ⟨rfl, rfl⟩)

/-- Settles O38: the PUT of the first byte begins, and no other action is due in its tick. -/
theorem putsBeginsWithItsFirstByte : Obligations.PutsBeginsWithItsFirstByte :=
  fun _ _ _ _ hg hp => exec_begins_first_byte hg hp (.inr rfl)

/-! ## The return of a PUT (R222, R226) -/

/-- A due pin write leads onto the frame, whatever level the pin had before. -/
theorem State.onFrame_txWrite {s : State} (hd : s.writeDue = true) : OnFrame s s.txWrite := by
  obtain ⟨hle, hdue⟩ := s.writeDue_iff.mp hd
  have hpin : ∀ p, s.txWrite.pin p = if p = (s.inst s.tx.inst).txPin then
      { s.pin (s.inst s.tx.inst).txPin with out := frameLevel s.tx.byte s.tx.j } else s.pin p := fun p => by
    rw [State.pin_congr s.pins_txWrite, State.pin_gpioSet]
  constructor
  case frame => exact s.txWrite_frame
  case tx => rfl
  case index_pos => exact Nat.le_add_left 1 _
  case index_le => exact Nat.succ_le_succ hle
  case not_early => exact hdue
  case pin => exact (hpin _).trans (if_pos rfl)
  case other_pins => exact fun p hp => (hpin p).trans (if_neg hp)
  case responses => rfl

/-- At or after its return deadline a PUT has performed all its pin writes, the stop bit last, and returns. -/
theorem State.onFrame_txWrites_of_return {s : State} (hpos : 1 ≤ s.tx.j) (hle : s.tx.j ≤ 10)
    (hout : s.tx.j = 10 → (s.pin (s.inst s.tx.inst).txPin).out = true)
    (hnow : s.tx.t0 + s.txPeriod * (9 + s.cfg.settleBits) ≤ s.now) :
    OnFrame s (State.txWrites 10 s) ∧ (State.txWrites 10 s).tx.j = 10 ∧ (State.txWrites 10 s).putReturns = true := by
  have hdeadline : ∀ j, j ≤ 9 → s.tx.t0 + s.txPeriod * j ≤ s.now := fun j hj =>
    (Nat.add_le_add_left (Nat.mul_le_mul_left _ (Nat.le_add_right_of_le hj)) _).trans hnow
  have hw : OnFrame s (State.txWrites 10 s) := by
    by_cases hten : s.tx.j = 10
    · exact (OnFrame.refl hpos hle (hdeadline _ (by omega)) (by rw [hout hten, hten]; rfl)).txWrites 10
    · have hd := s.writeDue_iff.mpr ⟨by omega, hdeadline _ (by omega)⟩
      rw [State.txWrites, if_pos hd]
      exact (State.onFrame_txWrite hd).txWrites 9
  have hten : (State.txWrites 10 s).tx.j = 10 := by
    have hdone := State.txWrites_done 10 s (Nat.le_add_left 10 _)
    rw [← Bool.not_eq_true, hw.writeDue_iff] at hdone
    by_contra hne
    have hnine : (State.txWrites 10 s).tx.j ≤ 9 := Nat.le_of_lt_succ (Nat.lt_of_le_of_ne hw.index_le hne)
    exact hdone ⟨hnine, hdeadline _ hnine⟩
  exact ⟨hw, hten, hw.putReturns_iff.mpr ⟨hten, hnow⟩⟩

/-- Settles O40: the pin writes are those of a whole frame; what follows them is the end of the operation, the next PUT
or the early stop. -/
theorem putReturnsAndNextByteBegins : Obligations.PutReturnsAndNextByteBegins := by
  intro s hb hp hpos hle _ hout hnow
  obtain ⟨hw, hten, hr⟩ := State.onFrame_txWrites_of_return hpos hle hout hnow
  have hstep : s.transmitStep = s.txAdvance s.tx.rest := if_pos hb
  have hinst : (State.txWrites 10 s).tx.inst = s.tx.inst := by rw [hw.tx]
  have hhigh : (State.txWrites 10 s).pin (s.inst s.tx.inst).txPin =
      { s.pin (s.inst s.tx.inst).txPin with out := true } := by rw [hw.pin, hten]; rfl
  have hanswer : ∀ v, ((State.txWrites 10 s).txFinish v).responses =
      s.responses ++ [{ tick := s.now, word := v }] := fun v => by
    rw [State.responses_txFinish, hw.responses, hw.frame.now]
  refine ⟨fun hrest => ?_, fun b bs hrest ha => ?_, fun b bs hrest ha => ?_,
    fun p hne => by rw [hstep]; exact State.pin_txAdvance_of_ne hne _, s.transmitStep_frame.slots,
    s.transmitStep_frame.execFrame⟩
  · rw [State.transmitStep_of_last_returning hb hrest hr]
    exact ⟨rfl, hhigh, hanswer _⟩
  · have hperiod : 0 < (State.txWrites 10 s).bitPeriod s.tx.inst := by rw [hw.frame.bitPeriod]; exact hp
    rw [hstep, hrest, State.txAdvance_cons, if_pos hr, hinst, hw.frame.isActive, if_pos ha,
      State.txAdvance_beginPut hperiod]
    refine ⟨?_, ?_, hw.responses⟩
    · rw [State.tx_beginPut, hw.frame.now]
    · rw [State.pin_beginPut, hw.frame.inst, if_pos rfl, hhigh]
  · rw [hstep, hrest, State.txAdvance_cons, if_pos hr, hinst, hw.frame.isActive, if_neg (by simp [ha])]
    exact ⟨rfl, hhigh, hanswer _⟩

end Sys2Proof.Machine
end

section
/-! SUPPORT. A PUT whose transmit pin is wired to the receive pin of an instance of the same block, from the tick it
begins in to the eighth sample of the run it causes there (spec/10_state.md R41; spec/42_receive_engine.md R187, R189;
spec/43_transmit_engine.md R229, R237). -/

namespace Sys2Proof.Machine

/-! ## Frame and samples -/

theorem frameLevel_succ (b : Byte) {k : Nat} (hk : k < 8) : frameLevel b (k + 1) = b.getLsbD k := by
  rw [frameLevel, if_neg (Nat.succ_ne_zero k), if_pos (Nat.succ_le_of_lt hk), Nat.add_sub_cancel]

/-- With a centering delay below one bit period, sample `k` falls in bit-time `k + 1` (R187, R224). -/
theorem sampleOffset_div {c : Config} {bp : Nat} (h : centeringDelay c bp < bp) (k : Nat) :
    sampleOffset c bp k / bp = k + 1 := by
  rw [sampleOffset, intraBitDelay, Nat.add_mul_div_right _ _ (Nat.zero_lt_of_lt h), Nat.div_eq_of_lt h, Nat.zero_add]

/-- An operation being sent drives its transmit pin to the level of the last frame index written (R225). -/
theorem SoundState.out_of_sending {s : State} (h : SoundState s) (hb : s.tx.busy = true) :
    s.out (s.inst s.tx.inst).txPin = some (frameLevel s.tx.byte (s.tx.j - 1)) := by
  obtain ⟨hi, ha, -⟩ := h.put_position hb
  rw [State.out, if_pos (h.tx_pin_output _ hi ha).1, congrArg PinState.out (h.onFrame hb).pin]

/-! ## Ticks with no operation on offer -/

/-- Without `SINGLE_CORE` and with an empty port, a tick is its interrupt part and its transmit step. -/
theorem step_of_port_nil {s : State} (hcores : s.cfg.singleCore = false) (hport : s.port = []) :
    step s = .next s.interruptPart.transmitStep := by
  have hheld : s.interruptPart.held = false :=
    State.held_of_two_cores ((congrArg Config.singleCore s.cfg_interruptPart).trans hcores)
  rw [step_of_not_held hheld, State.beforeAccept_of_not_held hheld]
  exact acceptAll_of_port_nil (s.interruptPart.transmitStep_frame.port.trans (s.port_interruptPart.trans hport))

theorem ticks_wires {n : Nat} {s u : State} (h : ticks n s = .next u) : u.wires = s.wires := by
  induction n generalizing u with
  | zero => cases h; rfl
  | succ n ih =>
    rw [ticks_last] at h
    obtain ⟨w, hw, hstep⟩ := andThen_eq_next h
    have hlast : u.wires = w.wires := (step_inputFrame hstep).wires
    exact hlast.trans (ih hw)

/-! ## The sending side -/

/-- A PUT has just begun on a block without `SINGLE_CORE`; its transmit pin is wired to the receive pin of the
active instance `b`, which has the same bit period; that line is high, no run is in progress or pending, and nothing else
comes from outside.  Further bytes of a PUTS may wait behind the byte. -/
structure LoopedPut (s : State) (b : Nat) : Prop where
  sound : SoundState s
  two_cores : s.cfg.singleCore = false
  busy : s.tx.busy = true
  began_now : s.tx.t0 = s.now
  index : s.tx.j = 1
  receiver_active : s.isActive b = true
  same_period : s.bitPeriod b = s.txPeriod
  delay_lt : centeringDelay s.cfg s.txPeriod < s.txPeriod
  changes : s.changes = []
  port : s.port = []
  wires : s.wires = [{ source := (s.inst s.tx.inst).txPin, sink := (s.inst b).rxPin }]
  idle : s.isr.busy = false
  none_pending : ∀ i, i < s.cfg.nInst → (s.rx i).pend = false
  not_fresh : s.fresh = false
  line_high : levelOf s.level (s.inst b).rxPin = true

section ticks

variable {s u v : State} {b n : Nat}

theorem LoopedPut.period_pos (hs : LoopedPut s b) : 0 < s.txPeriod := Nat.zero_lt_of_lt hs.delay_lt

/-- The eighth sample is taken before the stop bit is over. -/
theorem LoopedPut.eighth_sample_lt (hs : LoopedPut s b) : sampleOffset s.cfg s.txPeriod 7 < s.txPeriod * 9 := by
  rw [Nat.mul_comm, ← Nat.div_lt_iff_lt_mul hs.period_pos, sampleOffset_div hs.delay_lt]
  decide

theorem LoopedPut.sendingFor_zero (hs : LoopedPut s b) : SendingFor s 0 s where
  sound := hs.sound
  cfg := rfl
  now := rfl
  inst := rfl
  tx := by rw [Nat.zero_div, Nat.min_zero, Nat.zero_add, ← hs.index]
  port := rfl
  responses := rfl

/-- While the PUT goes on, a tick is its interrupt part and its transmit step. -/
theorem SendingFor.step_of_looped (h : SendingFor s n u) (hs : LoopedPut s b) :
    Machine.step u = .next u.interruptPart.transmitStep :=
  step_of_port_nil (by rw [h.cfg]; exact hs.two_cores) (h.port.trans hs.port)

/-- A tick before the end of the stop bit moves the PUT along its frame, whatever bytes are still to follow it. -/
theorem SendingFor.next_of_looped (h : SendingFor s n u) (hs : LoopedPut s b) (hn : n + 1 < s.txPeriod * 9) :
    SendingFor s (n + 1) u.interruptPart.transmitStep := by
  have hsound := h.sound.interruptPart
  have htx : u.interruptPart.tx = { s.tx with j := min 9 (n / s.txPeriod) + 1 } := (u.tx_interruptPart).trans h.tx
  have hbusy : u.interruptPart.tx.busy = true := by rw [htx]; exact hs.busy
  have ht0 : u.interruptPart.tx.t0 = s.now := by rw [htx]; exact hs.began_now
  have hnow : u.interruptPart.now = s.now + (n + 1) := u.now_interruptPart.trans (congrArg (· + 1) h.now)
  have hinst : u.interruptPart.inst s.tx.inst = s.inst s.tx.inst := (u.inst_interruptPart _).trans h.inst
  have hperiod : u.interruptPart.txPeriod = s.txPeriod := by
    rw [State.txPeriod, htx]
    exact State.bitPeriod_congr hinst
  have hf := hsound.onFrame hbusy
  have hbefore : u.interruptPart.now <
      u.interruptPart.tx.t0 + u.interruptPart.txPeriod * (9 + u.interruptPart.cfg.settleBits) := by
    rw [hnow, ht0, hperiod, Nat.mul_add]
    omega
  obtain ⟨hafter, -, -, hslots, hresp, hframe⟩ := transmitPinFollowsElapsedTime u.interruptPart hbusy
    (hperiod ▸ hs.period_pos) hf.index_pos hf.index_le hf.not_early (congrArg PinState.out hf.pin) hbefore
  constructor
  case sound => exact hsound.transmitStep
  case cfg => exact hframe.cfg.trans (u.cfg_interruptPart.trans h.cfg)
  case now => exact hframe.now.trans hnow
  case inst => exact (State.inst_congr hslots _).trans hinst
  case tx => rw [hafter, hperiod, hnow, ht0, Nat.add_sub_cancel_left, htx]
  case port => exact hframe.port.trans (u.port_interruptPart.trans h.port)
  case responses => exact hresp.trans (u.responses_interruptPart.trans h.responses)

theorem LoopedPut.ticks (hs : LoopedPut s b) (hn : n < s.txPeriod * 9) :
    ∃ u, ticks n s = .next u ∧ SendingFor s n u := by
  induction n with
  | zero => exact ⟨s, rfl, hs.sendingFor_zero⟩
  | succ n ih =>
    obtain ⟨u, hu, h⟩ := ih (by omega)
    exact ⟨_, by rw [ticks_last, hu, andThen_next, h.step_of_looped hs], h.next_of_looped hs hn⟩

theorem LoopedPut.sendingFor (hs : LoopedPut s b) (hn : n < s.txPeriod * 9) (hu : Machine.ticks n s = .next u) :
    SendingFor s n u := by
  obtain ⟨w, hw, h⟩ := hs.ticks hn
  rw [hu] at hw
  cases hw
  exact h

/-- In the next tick the wire carries the bit-time that the elapsed time falls in (R41, R229). -/
theorem LoopedPut.levelOf_nextLevel (hs : LoopedPut s b) (hn : n < s.txPeriod * 9)
    (hu : Machine.ticks n s = .next u) :
    levelOf u.nextLevel (s.inst b).rxPin = frameLevel s.tx.byte (min 9 (n / s.txPeriod)) := by
  have h := hs.sendingFor hn hu
  have hwires : u.wires = [{ source := (s.inst s.tx.inst).txPin, sink := (s.inst b).rxPin }] :=
    (ticks_wires hu).trans hs.wires
  have hout := h.sound.out_of_sending (by rw [h.tx]; exact hs.busy)
  rw [h.tx, h.inst, Nat.add_sub_cancel] at hout
  have hwire : levelOf u.nextLevel (s.inst b).rxPin =
      u.wireLevel { source := (s.inst s.tx.inst).txPin, sink := (s.inst b).rxPin } :=
    State.levelOf_nextLevel_sink (by rw [hwires]; exact List.nodup_singleton _)
      (by rw [hwires]; exact List.mem_singleton_self _)
  rw [hwire, State.wireLevel, hout]
  rfl

/-- In the tick of sample `k` of a run that starts in the tick after the start bit, the wire carries bit `k`. -/
theorem LoopedPut.levelOf_nextLevel_at_sample (hs : LoopedPut s b) {k : Nat} (hk : k < 8)
    (hu : Machine.ticks (sampleOffset s.cfg s.txPeriod k) s = .next u) :
    levelOf u.nextLevel (s.inst b).rxPin = s.tx.byte.getLsbD k := by
  have hmono := sampleOffset_mono s.cfg s.txPeriod (show k ≤ 7 by omega)
  rw [hs.levelOf_nextLevel (hmono.trans_lt hs.eighth_sample_lt) hu, sampleOffset_div hs.delay_lt,
    Nat.min_eq_right (by omega), frameLevel_succ _ hk]

/-! ## The start of the run (R237) -/

theorem LoopedPut.attached (hs : LoopedPut s b) {i : Nat} (hi : i < s.cfg.nInst) :
    (s.rx i).attached = s.isActive i := by
  rw [hs.sound.armed_iff i hi, State.sampling, hs.idle]
  exact Bool.and_true _

/-- The start bit is the one falling edge of the next tick. -/
theorem LoopedPut.fallingEdge (hs : LoopedPut s b) (p : Pin) :
    s.sampleInputs.fallingEdge p = decide (p = (s.inst b).rxPin) := by
  have hedge : s.sampleInputs.fallingEdge p = (levelOf s.level p && !levelOf s.nextLevel p) := by
    rw [State.fallingEdge, State.prev_sampleInputs, hs.not_fresh]
    rfl
  rw [hedge]
  by_cases hp : p = (s.inst b).rxPin
  · have hlow : levelOf s.nextLevel p = false := by
      rw [hp, hs.levelOf_nextLevel (n := 0) (Nat.mul_pos hs.period_pos (by decide)) rfl, Nat.zero_div]
      rfl
    rw [hlow, hp, hs.line_high, decide_eq_true rfl]
    rfl
  · have hkept : levelOf s.nextLevel p = levelOf s.level p :=
      State.levelOf_nextLevel_of_untouched (by simpa [hs.wires] using Ne.symm hp) (by simp [hs.changes])
    rw [hkept, Bool.and_not_self, decide_eq_false hp]

/-- Of the instances armed, the wired one alone has the pin of that edge. -/
theorem LoopedPut.rx_detectEdges (hs : LoopedPut s b) {i : Nat} (hi : i < s.cfg.nInst) :
    s.sampleInputs.detectEdges.rx i = { attached := s.isActive i, pend := decide (i = b) } := by
  obtain ⟨hb, -⟩ := (s.isActive_iff b).mp hs.receiver_active
  have hpin : s.isActive i = true → ((s.inst i).rxPin = (s.inst b).rxPin ↔ i = b) := fun ha => by
    refine ⟨fun he => ?_, fun he => by rw [he]⟩
    by_contra hne
    have hshare := (s.sharesPin_iff b (s.inst i).rxPin (s.inst i).txPin).mpr (.inl he)
    rw [hs.sound.pins_disjoint i hi b hb hne ha hs.receiver_active] at hshare
    cases hshare
  have hrx : s.rx i = { attached := s.isActive i, pend := false } :=
    congrArg₂ RxControl.mk (hs.attached hi) (hs.none_pending i hi)
  rw [State.rx_detectEdges, State.rx_sampleInputs, State.inst_sampleInputs, hs.fallingEdge, State.isr_sampleInputs,
    hs.idle, hrx]
  by_cases ha : s.isActive i = true
  · by_cases hib : i = b
    · simp [hib, hs.receiver_active]
    · simp [ha, hib, (hpin ha).not.mpr hib]
  · have hib : i ≠ b := fun he => ha (he ▸ hs.receiver_active)
    simp [ha, hib]

/-- The run of the wired instance starts in the tick after the start bit. -/
theorem LoopedPut.interruptPart_starts (hs : LoopedPut s b) :
    s.interruptPart.isr = { busy := true, inst := b, ts := s.now + 1, k := 0, shift := 0#8 } ∧
      s.interruptPart.buf b = s.buf b := by
  obtain ⟨hb, -⟩ := (s.isActive_iff b).mp hs.receiver_active
  have f := s.sampleInputs.detectEdges_frame
  have hwindow : 0 < windowLength s.sampleInputs.detectEdges.cfg (s.sampleInputs.detectEdges.bitPeriod b) := by
    have hperiod : s.sampleInputs.detectEdges.bitPeriod b = s.txPeriod := (f.bitPeriod b).trans hs.same_period
    rw [hperiod]
    exact Nat.add_pos_right _ hs.period_pos
  obtain ⟨-, hstart⟩ := runStartsForTheLowestPendingIndex s.sampleInputs.detectEdges
    (f.slots_length.trans hs.sound.table_length) hs.idle
  obtain ⟨hisr, -, -, hslots, -⟩ := hstart b hb (by rw [hs.rx_detectEdges hb]; exact decide_eq_true rfl)
    (by rw [hs.rx_detectEdges hb]; exact hs.receiver_active)
    (fun j hj => by rw [hs.rx_detectEdges (hj.trans hb)]; simp [hj.ne]) hwindow
  exact ⟨hisr, (hslots b).1.trans (s.sampleInputs.buf_detectEdges b)⟩

/-- `v` is `s` one tick later, with a run for instance `b` that has just started and has written nothing. -/
structure RunStarts (s : State) (b : Nat) (v : State) : Prop where
  step : Machine.step s = .next v
  receiving : ReceivingFor v 0 v
  cfg : v.cfg = s.cfg
  running : v.isr.inst = b
  not_sampled : v.isr.k = 0
  inst : v.inst b = s.inst b
  buf : v.buf b = s.buf b

theorem LoopedPut.runStarts (hs : LoopedPut s b) : RunStarts s b s.interruptPart.transmitStep := by
  obtain ⟨hisr, hbuf⟩ := hs.interruptPart_starts
  have f := s.interruptPart.transmitStep_frame
  have hstep := hs.sendingFor_zero.step_of_looped hs
  have hisr := f.isr.trans hisr
  constructor
  case step => exact hstep
  case receiving =>
    refine (stepKeepsSoundStates s _ hs.sound hstep).receivingFor_zero (by rw [hisr]) ?_ (by rw [hisr])
    rw [hisr, f.now, State.now_interruptPart]
  case cfg => exact f.cfg.trans s.cfg_interruptPart
  case running => rw [hisr]
  case not_sampled => rw [hisr]
  case inst => exact (f.inst b).trans (s.inst_interruptPart b)
  case buf => exact (f.buf b).trans hbuf

theorem RunStarts.runPeriod (h : RunStarts s b v) (hs : LoopedPut s b) : v.runPeriod = s.txPeriod := by
  rw [State.runPeriod, h.running, State.bitPeriod_congr h.inst, hs.same_period]

theorem RunStarts.ticks (h : RunStarts s b v) (n : Nat) : Machine.ticks (n + 1) s = Machine.ticks n v := by
  rw [Machine.ticks, h.step, andThen_next]

/-! ## The run (R187, R189) -/

/-- Before the eighth sample a run writes no buffer. -/
theorem ReceivingFor.buf_interruptPart_before_last (h : ReceivingFor s n u)
    (hn : n + 1 < sampleOffset s.cfg s.runPeriod 7) (i : Nat) : u.interruptPart.buf i = u.buf i := by
  have hend : sampleOffset s.cfg s.runPeriod 7 ≤ windowLength s.cfg s.runPeriod := Nat.le_add_right _ _
  have hedges : u.sampleInputs.detectEdges.buf i = u.buf i := u.sampleInputs.buf_detectEdges i
  rcases h.interruptPart_cases (by omega) with ⟨-, he⟩ | ⟨-, hnow, he⟩
  · rw [he, hedges]
  · rw [he]
    rcases u.sampleInputs.detectEdges.takeSample_cases with ⟨hlast, -⟩ | ⟨-, hmid⟩
    · have hseven : u.isr.k = 7 := Nat.succ.inj hlast
      rw [hseven] at hnow
      omega
    · rw [hmid]
      exact hedges

/-- Up to the tick before the eighth sample the buffer of the wired instance is as it was. -/
theorem RunStarts.buf_before_last (h : RunStarts s b v) (hs : LoopedPut s b)
    (hn : n < sampleOffset s.cfg s.txPeriod 7) (hu : Machine.ticks n v = .next u) : u.buf b = s.buf b := by
  induction n generalizing u with
  | zero => cases hu; exact h.buf
  | succ n ih =>
    have heighth := hs.eighth_sample_lt
    have hwindow : sampleOffset s.cfg s.txPeriod 7 ≤ windowLength s.cfg s.txPeriod := Nat.le_add_right _ _
    rw [ticks_last] at hu
    obtain ⟨w, hw, hstep⟩ := andThen_eq_next hu
    rw [(hs.sendingFor (n := n + 1) (by omega) ((h.ticks n).trans hw)).step_of_looped hs] at hstep
    cases hstep
    have hreceiving : ReceivingFor v n w := h.receiving.ticks (by rw [h.cfg, h.runPeriod hs]; omega) hw
    rw [w.interruptPart.transmitStep_frame.buf, hreceiving.buf_interruptPart_before_last
      (by rw [h.cfg, h.runPeriod hs]; exact hn), ih (by omega) hw]

/-- The tick of the eighth sample appends the byte sent (R237). -/
theorem LoopedPut.appends_byte_sent (hs : LoopedPut s b) :
    ∃ u, Machine.ticks (1 + sampleOffset s.cfg s.txPeriod 7) s = .next u ∧
      u.buf b = (s.buf b).appended s.cfg.bufCap s.tx.byte := by
  have h := hs.runStarts
  generalize s.interruptPart.transmitStep = v at h
  have hperiod := h.runPeriod hs
  have hpos : 0 < v.runPeriod := hperiod ▸ hs.period_pos
  obtain ⟨m, hm⟩ := Nat.exists_eq_add_one_of_ne_zero
    (show sampleOffset s.cfg s.txPeriod 7 ≠ 0 by rw [sampleOffset_succ]; have := hs.period_pos; omega)
  obtain ⟨w, hw, hsending⟩ := hs.ticks hs.eighth_sample_lt
  have hwv : Machine.ticks m v = .next w := by rw [← h.ticks, ← hm, hw]
  obtain ⟨byte, hbuf, hlast, hbits⟩ := runAppendsTheSampledByte v w h.receiving.sound h.receiving.busy
    h.receiving.began h.not_sampled hpos (by rw [h.cfg, hperiod, hm]; exact hwv)
  rw [h.running, h.cfg, h.buf_before_last hs (by omega) hwv] at hbuf
  rw [h.running, h.inst] at hlast hbits
  have hbyte : byte = s.tx.byte := BitVec.eq_of_getLsbD_eq fun k hk => by
    by_cases hseven : k = 7
    · rw [hseven, ← hlast, hs.levelOf_nextLevel_at_sample (by decide) hw]
    · obtain ⟨u, hu, hlevel⟩ := hbits k (by omega)
      rw [h.cfg, hperiod, ← h.ticks, ticks_last] at hu
      obtain ⟨x, hx, hstep⟩ := andThen_eq_next hu
      rw [← hlevel, (step_inputFrame hstep).level, State.level_sampleInputs, hs.levelOf_nextLevel_at_sample hk hx]
  refine ⟨w.interruptPart.transmitStep, ?_, ?_⟩
  · rw [Nat.add_comm, ticks_last, hw, andThen_next, hsending.step_of_looped hs]
  · rw [w.interruptPart.transmitStep_frame.buf, hbuf, hbyte]

end ticks

/-- Settles O43: the run that the start bit causes samples the frame sent, and its append finds room. -/
theorem loopBackDeliversTheByteSent : Obligations.LoopBackDeliversTheByteSent := by
  intro s b hsound hcores hbusy ht0 hj _ hb hactive hperiod hdelay hidle hpend hfresh hchanges hport hwires hhigh hroom
  have hs : LoopedPut s b := ⟨hsound, hcores, hbusy, ht0, hj, hactive, hperiod, hdelay, hchanges, hport, hwires, hidle,
    hpend, hfresh, hhigh⟩
  obtain ⟨u, hu, hbuf⟩ := hs.appends_byte_sent
  obtain ⟨hhead, htail, -⟩ := hsound.buffers_wf b hb
  have hnotfull : (s.buf b).isFull s.cfg.bufCap = false := by
    rw [← Bool.not_eq_true, Buffer.isFull_iff hhead htail]
    exact hroom.ne
  refine ⟨u, hu, ?_, ?_⟩
  · rw [hbuf, Buffer.contents_appended _ hhead htail, hnotfull]
    rfl
  · rw [hbuf, Buffer.overflowFlag_appended_eq_or, hnotfull, Bool.or_false]

end Sys2Proof.Machine
end

section
/-! SUPPORT. What OVF and OVFCLR answer and write, and the obligations on AVAIL, OVF and OVFCLR
(spec/44_buffer_access.md R250, R254, R256). -/

namespace Sys2Proof.Machine

/-! ## The answers of AVAIL, OVF and OVFCLR -/

theorem respCount_of_lt {n : Nat} (h : n < 2 ^ 32) : respCount n = BitVec.ofNat 32 n := if_pos h

theorem exec_ovf_of_gate {idx : Index} {s : State} (hg : s.gate idx = true) :
    exec (.ovf idx) s = .next (s.respond (respBool (s.buf idx.toNat).overflowFlag)) := if_pos hg

theorem exec_ovfclr_of_gate {idx : Index} {s : State} (hg : s.gate idx = true) :
    exec (.ovfclr idx) s = .next ((s.clearOverflow idx.toNat).respond 1#32) := if_pos hg

/-- The gate of R151 for the three operations of this section. -/
theorem exec_of_gate_closed {idx : Index} {s : State} (hg : s.gate idx = false) :
    exec (.avail idx) s = .next (s.respond 0#32) ∧ exec (.ovf idx) s = .next (s.respond 0#32) ∧
      exec (.ovfclr idx) s = .next (s.respond 0#32) := by
  obtain ⟨-, -, havail, -, hovf, hovfclr⟩ := gatedOperationsFailWhenInactive idx s ((s.gate_eq_false_iff idx).mp hg)
  exact ⟨havail, hovf, hovfclr⟩

/-! ## Clearing the flag (R256) -/

theorem State.gate_clearOverflow (s : State) (i : Nat) (idx : Index) : (s.clearOverflow i).gate idx = s.gate idx :=
  State.isActive_congr (s.cfg_setBuf i _) _ (by rw [State.inst_setBuf])

theorem State.buf_clearOverflow_self {s : State} {i : Nat} (h : i < s.slots.length) :
    (s.clearOverflow i).buf i = { s.buf i with overflowFlag := false } := s.buf_setBuf_self i _ h

/-- A flag that is clear already stays as it is, and so does everything else. -/
theorem State.clearOverflow_of_clear {s : State} {i : Nat} (h : (s.buf i).overflowFlag = false) :
    s.clearOverflow i = s := by
  have hbuf : { s.buf i with overflowFlag := false } = s.buf i := by rw [← h]
  rw [State.clearOverflow, hbuf]
  exact s.setSlot_slot i

/-- An append to a full buffer sets the flag, whatever it was (R66). -/
theorem State.overflowFlag_append_of_full {s : State} {i : Nat} (v : Byte) (hl : i < s.slots.length)
    (h : (s.buf i).isFull s.cfg.bufCap = true) : ((s.append i v).buf i).overflowFlag = true := by
  rw [State.buf_append, if_pos ⟨rfl, hl⟩, Buffer.appended_of_full v h]

/-! ## The obligations -/

/-- Settles O21, by the two answers of AVAIL. -/
theorem availAnswersTheOccupancy : Obligations.AvailAnswersTheOccupancy := by
  intro idx s
  refine ⟨fun hg => ⟨_, exec_avail_of_gate hg, respCount_of_lt⟩, fun hg => ?_⟩
  obtain ⟨havail, -, -⟩ := exec_of_gate_closed hg
  exact havail

/-- Settles O23, by the two answers of OVF. -/
theorem ovfAnswersTheFlag : Obligations.OvfAnswersTheFlag := by
  intro idx s
  refine ⟨exec_ovf_of_gate, fun hg => ?_⟩
  obtain ⟨-, hovf, -⟩ := exec_of_gate_closed hg
  exact hovf

/-- Settles O24: OVFCLR is a write of one flag, which leaves the gate open, writes nothing once the flag is clear, and
keeps the buffer as full as it was. -/
theorem ovfclrClearsTheFlagAlone : Obligations.OvfclrClearsTheFlagAlone := by
  intro idx s hlen
  refine ⟨fun hg => ?_, fun hg => ?_⟩
  · obtain ⟨-, -, hovfclr⟩ := exec_of_gate_closed hg
    exact hovfclr
  have hl : idx.toNat < s.slots.length := hlen ▸ ((s.gate_iff idx).mp hg).1
  have hclear := exec_ovfclr_of_gate hg
  have hbuf := State.buf_clearOverflow_self hl
  refine ⟨_, hclear, rfl, hbuf, s.inst_clearOverflow _ _, s.rx_clearOverflow _ _, fun j hj => s.slot_setSlot_ne _ hj,
    rfl, rfl, exec_frame hclear, ?_, fun hfull v => ?_⟩
  · have hagain : ((s.clearOverflow idx.toNat).respond 1#32).gate idx = true := by
      rw [State.gate_respond, State.gate_clearOverflow, hg]
    rw [exec_ovfclr_of_gate hagain, State.clearOverflow_of_clear (by rw [State.buf_respond, hbuf])]
  · exact State.overflowFlag_append_of_full v ((exec_frame hclear).slots_length.symm ▸ hl) hfull

end Sys2Proof.Machine
end

section
/-! SUPPORT. Which falls edge detection sees, which pending bits it sets, and the obligation on steps 1 and 2 of a tick
(spec/10_state.md R37; spec/60_exceptions.md R286). -/

namespace Sys2Proof.Machine

/-- After the inputs are sampled a falling edge is a fall from this tick's levels to the next ones, and the first tick
sees none (R37). -/
theorem State.fallingEdge_sampleInputs_iff (s : State) (p : Pin) :
    s.sampleInputs.fallingEdge p = true ↔
      s.fresh = false ∧ levelOf s.level p = true ∧ levelOf s.nextLevel p = false := by
  cases hf : s.fresh with
  | true => simp [State.fallingEdge_sampleInputs_of_fresh hf]
  | false => simp [State.fallingEdge, hf]

/-- Detection attaches and detaches nothing. -/
theorem State.attached_detectEdges (s : State) (i : Nat) : (s.detectEdges.rx i).attached = (s.rx i).attached := by
  rw [State.rx_detectEdges]
  split <;> rfl

/-- A pending bit is kept, or set by an edge that the attached instance is free to detect (R286). -/
theorem State.pend_detectEdges_iff (s : State) (i : Nat) :
    (s.detectEdges.rx i).pend = true ↔
      (s.rx i).pend = true ∨
      ((s.rx i).attached = true ∧ s.fallingEdge (s.inst i).rxPin = true ∧
        (s.isr.busy = false ∨ s.cfg.pendLatch = true)) := by
  have hguard : ((s.rx i).attached && s.fallingEdge (s.inst i).rxPin && (!s.isr.busy || s.cfg.pendLatch)) = true ↔
      (s.rx i).attached = true ∧ s.fallingEdge (s.inst i).rxPin = true ∧
        (s.isr.busy = false ∨ s.cfg.pendLatch = true) := by
    simp [and_assoc]
  rw [State.rx_detectEdges, ← hguard]
  split
  · next hset => exact iff_of_true rfl (.inr hset)
  · next hkeep => exact (or_iff_left hkeep).symm

/-- Settles O29: the edges detected are those of the sampled inputs, and detection writes the pending bits alone. -/
theorem fallingEdgeSetsPending : Obligations.FallingEdgeSetsPending := by
  intro s i
  refine ⟨s.sampleInputs.inst_detectEdges i, s.sampleInputs.buf_detectEdges i, s.sampleInputs.attached_detectEdges i, ?_,
    rfl⟩
  rw [State.pend_detectEdges_iff, State.rx_sampleInputs, State.inst_sampleInputs, State.isr_sampleInputs,
    State.cfg_sampleInputs, State.fallingEdge_sampleInputs_iff, and_assoc, and_assoc]

end Sys2Proof.Machine
end

section
/-! SUPPORT. What OPEN and CLOSE answer where no run is in progress, the failures of OPEN where nothing is active, and the
obligation on the operations after reset (spec/41_instance_registry.md R154 to R162; spec/70_reset_and_hazards.md R331,
R334). -/

namespace Sys2Proof.Machine

/-- With no run in progress no operation meets the race of R166. -/
theorem State.receivingFor_of_idle {s : State} (h : s.isr.busy = false) (idx : Index) : s.receivingFor idx = false := by
  simp [State.receivingFor, h]

/-- Where nothing is active OPEN meets no pin conflict (R157). -/
theorem State.openFails_iff_of_inactive {s : State} (h : ∀ j, s.isActive j = false) (idx : Index) (baud : Baud)
    (rx tx : Pin) :
    s.openFails idx baud rx tx = true ↔ ¬ (idx.toNat < s.cfg.nInst ∧ baud ≠ 0#32 ∧ rx ≠ tx) := by
  have hfree : ¬ s.pinConflict idx.toNat rx tx = true := by simp [State.pinConflict, h]
  rw [State.openFails_iff, or_iff_left hfree]
  simp only [not_and_or, not_lt, not_not]

/-- CLOSE goes on with its one response while the interrupt context is idle (R161, R162). -/
theorem exec_close_of_idle {s : State} (h : s.isr.busy = false) (idx : Index) :
    ∃ t, exec (.closeInst idx) s = .next t ∧
      t.responses = s.responses ++ [Response.mk s.now (if idx.toNat < s.cfg.nInst then 1#32 else 0#32)] := by
  by_cases hi : idx.toNat < s.cfg.nInst
  · exact ⟨_, exec_close_of_in_range hi (State.receivingFor_of_idle h idx), by rw [if_pos hi]; rfl⟩
  · exact ⟨_, exec_close_of_out_of_range (not_lt.mp hi), by rw [if_neg hi, State.responses_respond]⟩

/-- OPEN goes on with its one response while the interrupt context is idle (R158, R159). -/
theorem exec_open_of_idle {s : State} (h : s.isr.busy = false) (idx : Index) (baud : Baud) (rx tx : Pin) :
    ∃ t, exec (.openInst idx baud rx tx) s = .next t ∧
      t.responses = s.responses ++ [Response.mk s.now (if s.openFails idx baud rx tx then 0#32 else 1#32)] := by
  cases hf : s.openFails idx baud rx tx with
  | true => exact ⟨_, exec_open_of_fails hf, State.responses_respond s 0#32⟩
  | false =>
    refine ⟨_, exec_open_of_succeeds hf (State.receivingFor_of_idle h idx), ?_⟩
    rw [State.responses_respond, State.responses_openSuccess, (s.openSuccess_frame _ _ _ _).now]
    rfl

/-- Settles O45: after reset the gate is closed to every index, no run is in progress, and no pin is held. -/
theorem operationsOnTheResetState : Obligations.OperationsOnTheResetState := by
  intro c idx
  have hinactive : ∀ j, (State.resetOf c).isActive j = false := (State.resetOf c).isActive_restart
  have hgate : (State.resetOf c).gate idx = false := hinactive idx.toNat
  obtain ⟨hput, hputs, havail, hread, hovf, hovfclr⟩ :=
    gatedOperationsFailWhenInactive idx _ ((State.gate_eq_false_iff _ idx).mp hgate)
  refine ⟨?_, hput, hputs, exec_close_of_idle rfl idx, fun baud rx tx => ?_⟩
  · simp only [List.forall_mem_cons]
    exact ⟨exec_isActive hgate, havail, hread, hovf, hovfclr, List.forall_mem_nil _⟩
  · obtain ⟨t, hexec, hresponses⟩ := exec_open_of_idle (s := State.resetOf c) rfl idx baud rx tx
    refine ⟨t, hexec, hresponses.trans ?_⟩
    simp only [State.openFails_iff_of_inactive hinactive, ite_not]
    rfl

end Sys2Proof.Machine
end
